-- ==== Sys2Proof/Word.lean ====
section
/-! DEFINITION. The widths of 00_scope.md R11 and R13: bytes, the 16-bit CRC register, 32-bit command words and host
registers. Everything else of the spec is a natural number, a list or a named choice. -/

namespace Sys2Proof

/-- A byte: 8 bits, an unsigned integer 0..255 (00_scope.md R11). -/
abbrev Byte := BitVec 8

/-- The CRC register: 16 bits (42_framers.md R130). -/
abbrev Half := BitVec 16

/-- A command word or a host register: 32 bits (00_scope.md R13). -/
abbrev Word := BitVec 32

end Sys2Proof
end

