-- ==== Sys2Proof/Config.lean ====
section
/-! DEFINITION. The configuration record `Cfg` of 00_scope.md R8, the constraints of R9, and the one configuration the
machine runs with. A field R8 calls OPEN has no value here: it is part of one opaque constant without a body, of which
only R9 is known (notes/assumptions/1.md). Every rule function of the machine takes a `Cfg`; the meanings apply it to
`Config.cfg`. -/

namespace Sys2Proof

/-- The OPEN fields of 00_scope.md R8, in its order. -/
structure OpenValues where
  /-- `ALPHA[0]`, the standard alphabet. -/
  alphaStd : List Byte
  /-- `ALPHA[1]`, the alternate device-family alphabet. -/
  alphaAlt : List Byte
  /-- `ALPHA[2]`, the EEPROM alphabet. -/
  alphaEep : List Byte
  /-- `ALPHA[3]`, the phone alphabet. -/
  alphaPhn : List Byte
  /-- `K_TERM`, the EEPROM terminator code. -/
  kTerm : Byte
  /-- `PACK_ZERO_LEN`, the number of bytes emitted for a zero accumulator. -/
  packZeroLen : Nat
  /-- `K_PING`. -/
  kPing : Byte
  /-- `K_SYNC1`. -/
  kSync1 : Byte
  /-- `K_SYNC2`. -/
  kSync2 : Byte
  /-- `K_OP_TIME`. -/
  kOpTime : Byte
  /-- `K_OP_ALARM`. -/
  kOpAlarm : Byte
  /-- `K_OP_SNDOPT`. -/
  kOpSndopt : Byte
deriving DecidableEq, Repr

/-- 00_scope.md R9(a): 1 to 256 symbols, none twice, the space character among them. -/
abbrev ValidAlphabet (A : List Byte) : Prop :=
  1 ≤ A.length ∧ A.length ≤ 256 ∧ A.Nodup ∧ (0x20 : Byte) ∈ A

/-- 00_scope.md R9(a), (b), (c), and R8's range of `PACK_ZERO_LEN`. -/
abbrev OpenValues.Valid (v : OpenValues) : Prop :=
  ValidAlphabet v.alphaStd ∧ ValidAlphabet v.alphaAlt ∧ ValidAlphabet v.alphaEep ∧ ValidAlphabet v.alphaPhn ∧
  v.alphaEep.length ≤ 63 ∧ 1 ≤ v.kTerm.toNat ∧ v.kTerm.toNat ≤ 63 ∧ v.alphaEep.length ≤ v.kTerm.toNat ∧
  v.alphaPhn.length = 16 ∧ v.packZeroLen ≤ 1

/-- The whole record of 00_scope.md R8. -/
structure Cfg extends OpenValues where
  /-- `T_SIZE`. -/
  tSize : Nat
  /-- `R_SIZE`. -/
  rSize : Nat
  /-- `D_SIZE`. -/
  dSize : Nat
  /-- `O_SIZE`. -/
  oSize : Nat
  /-- `K_START`, the Start payload. -/
  kStart : List Byte
  /-- `K_END`, the End payload. -/
  kEnd : List Byte
  /-- `K_SYNC2_LEN`, the length of the sync-2 run. -/
  kSync2Len : Nat
deriving DecidableEq, Repr

/-- 00_scope.md R9: (a) to (c) on the OPEN fields, (d) the capacities meet the minima of R8. -/
abbrev Cfg.Valid (c : Cfg) : Prop :=
  c.toOpenValues.Valid ∧ 255 ≤ c.tSize ∧ 255 ≤ c.rSize ∧ 1 ≤ c.dSize ∧ 341 ≤ c.oSize

/-- OPEN values together with the proof that they meet R9. The defaults only show that such values exist, which an
opaque constant needs; nothing can be proved from them. -/
structure ValidOpenValues where
  /-- The values. -/
  values : OpenValues :=
    { alphaStd := [0x20], alphaAlt := [0x20], alphaEep := [0x20]
      alphaPhn := (List.range 16).map fun i => BitVec.ofNat 8 (0x20 + i)
      kTerm := 1, packZeroLen := 0, kPing := 0, kSync1 := 0, kSync2 := 0, kOpTime := 0, kOpAlarm := 0, kOpSndopt := 0 }
  /-- R9 holds of them. -/
  valid : values.Valid := by decide
deriving Inhabited

/-- The OPEN values the block was built with: free, but for R9 (00_scope.md R8, R9; notes/assumptions/1.md). -/
opaque Config.openPart : ValidOpenValues

/-- The configuration the machine runs with: R8's values where R8 gives one, the free constant where it says OPEN. -/
def Config.cfg : Cfg :=
  { Config.openPart.values with
    tSize := 256, rSize := 256, dSize := 65536, oSize := 131072
    kStart := [0x20, 0x00, 0x00, 0x04], kEnd := [0x21], kSync2Len := 40 }

/-- The machine's configuration meets 00_scope.md R9. -/
theorem Config.cfg_valid : Config.cfg.Valid :=
  ⟨Config.openPart.valid, by decide, by decide, by decide, by decide⟩

end Sys2Proof
end

