-- ==== Sys2Proof/Syntax.lean ====
section
/-! DEFINITION. The commands of the block as syntax: one constructor of `Instr` per row of spec/opcode_table.json
(30_encoding.md R79), with the operands of R72 to R78. Counts are naturals, registers a bounded index, selectors named
alternatives; bytes that are copied as they are stay bytes. -/

namespace Sys2Proof

/-- The buffer selector `buf` (30_encoding.md R76): 0 = T, 1 = R, 2 = D. -/
inductive Buf where
  | T | R | D
deriving DecidableEq, Repr

/-- The alphabet selector `alpha` (30_encoding.md R77): 0 = standard, 1 = alternate, 2 = EEPROM, 3 = phone. -/
inductive Alphabet where
  | std | alt | eep | phn
deriving DecidableEq, Repr

/-- The nineteen commands (30_encoding.md R79), in the table's order. -/
inductive Instr where
  /-- NOP: no effect but `ERR <- 0` (40_buffer_ops.md R102). -/
  | nop
  /-- PUTB buf, imm8: append one byte to a buffer (40_buffer_ops.md R103). -/
  | putb (buf : Buf) (imm8 : Byte)
  /-- SETP idx, imm8: write a parameter register (40_buffer_ops.md R104). -/
  | setp (idx : Fin 16) (imm8 : Byte)
  /-- CLRB mask: empty the selected buffers (40_buffer_ops.md R105). -/
  | clrb (mask : BitVec 4)
  /-- ENC alpha, maxlen, pad: fixed-width encoding of T into R (41_char_encoder.md R114). -/
  | enc (alpha : Alphabet) (maxlen : Nat) (pad : Bool)
  /-- PACK6: 6-bit EEPROM pack of T into R (41_char_encoder.md R119). -/
  | pack6
  /-- PACK4: 4-bit phone pack of T into R (41_char_encoder.md R122). -/
  | pack4
  /-- FCRC: checksum frame of R into O (42_framers.md R135). -/
  | fcrc
  /-- FLEN: length frame of R into D (42_framers.md R139). -/
  | flen
  /-- EMIT: R as one unframed packet into O (42_framers.md R140). -/
  | emit
  /-- PAGE h0, h1, cs: paginate D into O, unframed (43_paginator.md R155). -/
  | page (h0 h1 : Byte) (cs : Nat)
  /-- PAGEF h0, h1, cs: paginate D into O, each packet checksum-framed (43_paginator.md R156). -/
  | pagef (h0 h1 : Byte) (cs : Nat)
  /-- PCNT cs: append the packet count of D to R (43_paginator.md R157). -/
  | pcnt (cs : Nat)
  /-- GSYNC n: the Sync packet (44_generators.md R172). -/
  | gsync (n : Nat)
  /-- GSTART: the Start packet (44_generators.md R175). -/
  | gstart
  /-- GEND: the End packet (44_generators.md R177). -/
  | gend
  /-- GTIME alpha: the Time packet (44_generators.md R180). -/
  | gtime (alpha : Alphabet)
  /-- GALARM alpha, pad: the Alarm packet (44_generators.md R185). -/
  | galarm (alpha : Alphabet) (pad : Bool)
  /-- GSNDOPT: the SoundOptions packet (44_generators.md R188). -/
  | gsndopt
deriving DecidableEq, Repr

end Sys2Proof
end

