-- ==== Sys2Proof/WellFormed.lean ====
section
/-! DEFINITION. Which instructions a command word can carry: the operands that are naturals in `Instr` fit the fields
that carry them (30_encoding.md R73 to R75). Every other operand's type admits exactly the values its field admits. -/

namespace Sys2Proof

/-- The check, operand by operand: `maxlen` and `cs` are unsigned bytes (30_encoding.md R74, R75), `n` is an unsigned
16-bit count (R73). -/
def Instr.wf : Instr → Bool
  | .nop => true
  | .putb _ _ => true
  | .setp _ _ => true
  | .clrb _ => true
  | .enc _ maxlen _ => maxlen < 256
  | .pack6 => true
  | .pack4 => true
  | .fcrc => true
  | .flen => true
  | .emit => true
  | .page _ _ cs => cs < 256
  | .pagef _ _ cs => cs < 256
  | .pcnt cs => cs < 256
  | .gsync n => n < 65536
  | .gstart => true
  | .gend => true
  | .gtime _ => true
  | .galarm _ _ => true
  | .gsndopt => true

/-- The instruction has an encoding. -/
abbrev Instr.WellFormed (i : Instr) : Prop := i.wf = true

end Sys2Proof
end

