-- ==== Sys2Proof/Decode.lean ====
section
/-! DEFINITION. The command word: its fields, the decoder (total, rejecting with a reason: 30_encoding.md R80, R81), the
encoder (from the same formats, R71 and R79), and the rows of the opcode table. -/

namespace Sys2Proof

/-- Why a word is no command: the four clauses of 30_encoding.md R81. The block answers all four with `E_ILLCMD`
(notes/assumptions/14.md). -/
inductive Illegal where
  /-- R81(a): `op` is not one of the nineteen opcodes. -/
  | reservedOpcode
  /-- R81(b): a field the format marks "0" is not zero. -/
  | reservedBits
  /-- R81(c): PUTB with buffer selector 3. -/
  | reservedBuffer
  /-- R81(d): GTIME with `a[2] = 1`. -/
  | timePad
deriving DecidableEq, Repr

/-- `op` = w[31:24] (30_encoding.md R70). -/
def fieldOp (w : Word) : Byte := w.extractLsb' 24 8
/-- `a` = w[23:16] (30_encoding.md R70). -/
def fieldA (w : Word) : Byte := w.extractLsb' 16 8
/-- `b` = w[15:8] (30_encoding.md R70). -/
def fieldB (w : Word) : Byte := w.extractLsb' 8 8
/-- `c` = w[7:0] (30_encoding.md R70). -/
def fieldC (w : Word) : Byte := w.extractLsb' 0 8

/-- The word with the four given fields (30_encoding.md R70). -/
def ofFields (op a b c : Byte) : Word := op ++ a ++ b ++ c

/-! ## Selectors (30_encoding.md R76, R77) -/

/-- R76; selector 3 is reserved. -/
def bufOfSel (sel : BitVec 2) : Option Buf :=
  match sel.toNat with
  | 0 => some .T
  | 1 => some .R
  | 2 => some .D
  | _ => none

/-- R76. -/
def Buf.sel : Buf → BitVec 2
  | .T => 0
  | .R => 1
  | .D => 2

/-- R77: all four values are legal. -/
def alphabetOfSel (sel : BitVec 2) : Alphabet :=
  match sel.toNat with
  | 0 => .std
  | 1 => .alt
  | 2 => .eep
  | _ => .phn

/-- R77. -/
def Alphabet.sel : Alphabet → BitVec 2
  | .std => 0
  | .alt => 1
  | .eep => 2
  | .phn => 3

/-! ## Decoding, format by format (30_encoding.md R71) -/

/-- Format Z: no operands. -/
def decodeZ (a b c : Byte) (i : Instr) : Except Illegal Instr :=
  if a = 0 ∧ b = 0 ∧ c = 0 then .ok i else .error .reservedBits

/-- Format B: PUTB. -/
def decodeB (a b c : Byte) : Except Illegal Instr :=
  if a.extractLsb' 2 6 = 0 ∧ b = 0 then
    match bufOfSel (a.extractLsb' 0 2) with
    | some buf => .ok (.putb buf c)
    | none => .error .reservedBuffer
  else .error .reservedBits

/-- Format S: SETP. -/
def decodeS (a b c : Byte) : Except Illegal Instr :=
  if a.extractLsb' 4 4 = 0 ∧ b = 0 then .ok (.setp (a.extractLsb' 0 4).toFin c) else .error .reservedBits

/-- Format M: CLRB. -/
def decodeM (a b c : Byte) : Except Illegal Instr :=
  if a = 0 ∧ b = 0 ∧ c.extractLsb' 4 4 = 0 then .ok (.clrb (c.extractLsb' 0 4)) else .error .reservedBits

/-- Format E: ENC. -/
def decodeE (a b c : Byte) : Except Illegal Instr :=
  if a.extractLsb' 3 5 = 0 ∧ b = 0 then
    .ok (.enc (alphabetOfSel (a.extractLsb' 0 2)) c.toNat (a.getLsbD 2))
  else .error .reservedBits

/-- Format G: PAGE, PAGEF; every word is legal. -/
def decodeG (a b c : Byte) (i : Byte → Byte → Nat → Instr) : Except Illegal Instr := .ok (i a b c.toNat)

/-- Format C: PCNT. -/
def decodeC (a b c : Byte) : Except Illegal Instr :=
  if a = 0 ∧ b = 0 then .ok (.pcnt c.toNat) else .error .reservedBits

/-- Format Y: GSYNC; `n = (b << 8) | c` (30_encoding.md R73). -/
def decodeY (a b c : Byte) : Except Illegal Instr :=
  if a = 0 then .ok (.gsync ((b ++ c : BitVec 16).toNat)) else .error .reservedBits

/-- Format A for GTIME: `a[2]` must be 0 (30_encoding.md R71, R81(d)). -/
def decodeATime (a b c : Byte) : Except Illegal Instr :=
  if a.extractLsb' 3 5 = 0 ∧ b = 0 ∧ c = 0 then
    if a.getLsbD 2 then .error .timePad else .ok (.gtime (alphabetOfSel (a.extractLsb' 0 2)))
  else .error .reservedBits

/-- Format A for GALARM. -/
def decodeAAlarm (a b c : Byte) : Except Illegal Instr :=
  if a.extractLsb' 3 5 = 0 ∧ b = 0 ∧ c = 0 then
    .ok (.galarm (alphabetOfSel (a.extractLsb' 0 2)) (a.getLsbD 2))
  else .error .reservedBits

/-- The opcode map (30_encoding.md R79) on the four fields. -/
def decodeFields (op a b c : Byte) : Except Illegal Instr :=
  match op.toNat with
  | 0x00 => decodeZ a b c .nop
  | 0x01 => decodeB a b c
  | 0x02 => decodeS a b c
  | 0x03 => decodeM a b c
  | 0x10 => decodeE a b c
  | 0x11 => decodeZ a b c .pack6
  | 0x12 => decodeZ a b c .pack4
  | 0x20 => decodeZ a b c .fcrc
  | 0x21 => decodeZ a b c .flen
  | 0x22 => decodeZ a b c .emit
  | 0x30 => decodeG a b c .page
  | 0x31 => decodeG a b c .pagef
  | 0x32 => decodeC a b c
  | 0x40 => decodeY a b c
  | 0x41 => decodeZ a b c .gstart
  | 0x42 => decodeZ a b c .gend
  | 0x43 => decodeATime a b c
  | 0x44 => decodeAAlarm a b c
  | 0x45 => decodeZ a b c .gsndopt
  | _ => .error .reservedOpcode

/-- `decode(w)` of 30_encoding.md R80: total; `opcode` alone selects the format. -/
def decode (w : Word) : Except Illegal Instr :=
  decodeFields (fieldOp w) (fieldA w) (fieldB w) (fieldC w)

/-! ## Encoding (30_encoding.md R71 to R79) -/

/-- The `a` field of formats E and A: a[2] = pad, a[1:0] = alpha. -/
def encodePadAlpha (alpha : Alphabet) (pad : Bool) : Byte := (0 : BitVec 5) ++ BitVec.ofBool pad ++ alpha.sel

/-- The word of an instruction; of a well-formed one no bit is lost. -/
def encode : Instr → Word
  | .nop => ofFields 0x00 0 0 0
  | .putb buf imm8 => ofFields 0x01 ((0 : BitVec 6) ++ buf.sel) 0 imm8
  | .setp idx imm8 => ofFields 0x02 ((0 : BitVec 4) ++ BitVec.ofFin (w := 4) idx) 0 imm8
  | .clrb mask => ofFields 0x03 0 0 ((0 : BitVec 4) ++ mask)
  | .enc alpha maxlen pad => ofFields 0x10 (encodePadAlpha alpha pad) 0 (BitVec.ofNat 8 maxlen)
  | .pack6 => ofFields 0x11 0 0 0
  | .pack4 => ofFields 0x12 0 0 0
  | .fcrc => ofFields 0x20 0 0 0
  | .flen => ofFields 0x21 0 0 0
  | .emit => ofFields 0x22 0 0 0
  | .page h0 h1 cs => ofFields 0x30 h0 h1 (BitVec.ofNat 8 cs)
  | .pagef h0 h1 cs => ofFields 0x31 h0 h1 (BitVec.ofNat 8 cs)
  | .pcnt cs => ofFields 0x32 0 0 (BitVec.ofNat 8 cs)
  | .gsync n => ofFields 0x40 0 (BitVec.ofNat 8 (n / 256)) (BitVec.ofNat 8 (n % 256))
  | .gstart => ofFields 0x41 0 0 0
  | .gend => ofFields 0x42 0 0 0
  | .gtime alpha => ofFields 0x43 (encodePadAlpha alpha false) 0 0
  | .galarm alpha pad => ofFields 0x44 (encodePadAlpha alpha pad) 0 0
  | .gsndopt => ofFields 0x45 0 0 0

/-! ## The opcode table (30_encoding.md R79) -/

/-- One row of the table: `(w & mask) = code`, and the extra condition of PUTB. -/
structure TableRow where
  /-- The mnemonic. -/
  mnemonic : String
  /-- The column "match". -/
  code : Word
  /-- The column "mask". -/
  mask : Word
  /-- The column "extra condition": a[1:0] must not be 3. -/
  selectorNot3 : Bool
deriving DecidableEq, Repr

/-- The nineteen rows. -/
def opcodeTable : List TableRow :=
  [⟨"NOP", 0x00000000, 0xFFFFFFFF, false⟩, ⟨"PUTB", 0x01000000, 0xFFFCFF00, true⟩,
   ⟨"SETP", 0x02000000, 0xFFF0FF00, false⟩, ⟨"CLRB", 0x03000000, 0xFFFFFFF0, false⟩,
   ⟨"ENC", 0x10000000, 0xFFF8FF00, false⟩, ⟨"PACK6", 0x11000000, 0xFFFFFFFF, false⟩,
   ⟨"PACK4", 0x12000000, 0xFFFFFFFF, false⟩, ⟨"FCRC", 0x20000000, 0xFFFFFFFF, false⟩,
   ⟨"FLEN", 0x21000000, 0xFFFFFFFF, false⟩, ⟨"EMIT", 0x22000000, 0xFFFFFFFF, false⟩] ++
  [⟨"PAGE", 0x30000000, 0xFF000000, false⟩, ⟨"PAGEF", 0x31000000, 0xFF000000, false⟩,
   ⟨"PCNT", 0x32000000, 0xFFFFFF00, false⟩, ⟨"GSYNC", 0x40000000, 0xFFFF0000, false⟩,
   ⟨"GSTART", 0x41000000, 0xFFFFFFFF, false⟩, ⟨"GEND", 0x42000000, 0xFFFFFFFF, false⟩,
   ⟨"GTIME", 0x43000000, 0xFFFCFFFF, false⟩, ⟨"GALARM", 0x44000000, 0xFFF8FFFF, false⟩,
   ⟨"GSNDOPT", 0x45000000, 0xFFFFFFFF, false⟩]

/-- A word meets a row: "`(w & mask) = match` and the extra condition, if any, holds" (30_encoding.md R79). -/
def TableRow.accepts (row : TableRow) (w : Word) : Bool :=
  (w &&& row.mask == row.code) && !(row.selectorNot3 && (w.extractLsb' 16 2 == 3))

/-- The mnemonic of an instruction, as the table spells it. -/
def Instr.mnemonic : Instr → String
  | .nop => "NOP"
  | .putb _ _ => "PUTB"
  | .setp _ _ => "SETP"
  | .clrb _ => "CLRB"
  | .enc _ _ _ => "ENC"
  | .pack6 => "PACK6"
  | .pack4 => "PACK4"
  | .fcrc => "FCRC"
  | .flen => "FLEN"
  | .emit => "EMIT"
  | .page _ _ _ => "PAGE"
  | .pagef _ _ _ => "PAGEF"
  | .pcnt _ => "PCNT"
  | .gsync _ => "GSYNC"
  | .gstart => "GSTART"
  | .gend => "GEND"
  | .gtime _ => "GTIME"
  | .galarm _ _ => "GALARM"
  | .gsndopt => "GSNDOPT"

/-- The decoder on a word of the opcode table: `nbits` bits given, every bit above them 0. A command word is one 32-bit
number (20_memory.md R61), so the table's numbering of bits is the word's own. -/
def decodeTableWord (nbits w : Nat) : Option Instr :=
  match decode (BitVec.ofNat 32 (w % 2 ^ nbits)) with
  | .ok i => some i
  | .error _ => none

end Sys2Proof
end

