-- ==== Sys2Proof/Machine/State.lean ====
section
/-! DEFINITION. The state of the block as plain data (10_state.md R20), the host accesses it serves (20_memory.md R54,
70_reset_and_hazards.md R270), the code names of 60_exceptions.md R241, and the state after reset (10_state.md R42). -/

namespace Sys2Proof.Machine

/-- The outcome codes of 60_exceptions.md R241 that are not fatal: `OK` and the eight rejections, in the table's order. -/
inductive Code where
  | ok | illCmd | param | empty | frameLen | pageCnt | bufFull | oFull | faulted
deriving DecidableEq, Repr

/-- The fatal cause codes of 60_exceptions.md R241; `priority` is reserved and never raised by the block (R244). -/
inductive Cause where
  | zone | alarmNo | priority
deriving DecidableEq, Repr

/-- One entry of the output queue: a byte and its end-of-packet bit (10_state.md R38, 00_scope.md R12). -/
structure Entry where
  /-- The byte. -/
  byte : Byte
  /-- 1 on the last byte of a packet. -/
  eop : Bool
deriving DecidableEq, Repr

/-- What the outside world does to the block, one at a time: a host read or write at a byte offset with a width in bits
(20_memory.md R54, R59), or the reset input (70_reset_and_hazards.md R270). -/
inductive Access where
  /-- `RegRead(off)`. -/
  | read (off width : Nat)
  /-- `RegWrite(off, v)`. -/
  | write (off width : Nat) (v : Word)
  /-- The hardware reset event. -/
  | reset
deriving DecidableEq, Repr

/-- The architectural state, "exactly the following record" (10_state.md R20), and two fields of the model's own:
`accesses` and `rdata` (notes/assumptions/3.md, notes/assumptions/4.md). -/
structure State where
  /-- The sixteen 8-bit parameter registers (10_state.md R21). -/
  P : Vector Byte 16
  /-- The text buffer (10_state.md R35). -/
  T : List Byte
  /-- The record buffer (10_state.md R36). -/
  R : List Byte
  /-- The data buffer (10_state.md R37). -/
  D : List Byte
  /-- The output queue, head first (10_state.md R38). -/
  O : List Entry
  /-- 1 after a fatal fault, until reset (10_state.md R27). -/
  FAULT : Bool
  /-- The cause code of the fatal fault (10_state.md R28). -/
  CAUSE : Byte
  /-- The outcome code of the most recent command (10_state.md R29). -/
  ERR : Byte
  /-- The packet count of the most recent completed PAGE, PAGEF or PCNT (10_state.md R30). -/
  NPKT : Byte
  /-- The model's own: the accesses still to be served, oldest first. -/
  accesses : List Access
  /-- The model's own: the value the most recent host read returned. -/
  rdata : Word
deriving DecidableEq, Repr

/-- The block has no condition that stops it: "`step` ... never fails" (60_exceptions.md R262). A fatal fault of the spec
(R250) is a next state, not one of these. So the type has no constructor (notes/assumptions/7.md); no statement can be
made unsafe by it. -/
inductive Fault where
deriving DecidableEq, Repr

/-- Why the model gives an access no step. -/
inductive Refusal where
  /-- Raised by `exec` for an instruction without a meaning; no arm of the finished model raises it. Safe: the model
  stops where the block would go on. -/
  | notModelled (mnemonic : String)
  /-- Raised by serving an access that is not 32 bits wide or not 4-byte aligned: "not defined by this spec; a model
  refuses them (it gives them no step), which errs toward unprovable" (20_memory.md R59). Safe. -/
  | undefinedAccess (off width : Nat)
deriving DecidableEq, Repr

/-- Every field at the value of 10_state.md R42 ("Nothing is left unspecified"); no access waits, and no read has
returned a value yet. -/
def State.reset : State :=
  { P := Vector.replicate 16 0, T := [], R := [], D := [], O := []
    FAULT := false, CAUSE := 0, ERR := 0, NPKT := 0
    accesses := [], rdata := 0 }

end Sys2Proof.Machine
end

