-- ==== Sys2Proof/Machine/Operands.lean ====
section
/-! DEFINITION. The operand forms: buffers by selector, parameter registers, alphabets by selector, flag operands. -/

namespace Sys2Proof.Machine

/-- The contents of the buffer a selector names (30_encoding.md R76). -/
def State.buf (s : State) : Buf → List Byte
  | .T => s.T
  | .R => s.R
  | .D => s.D

/-- The state with that buffer replaced. -/
def State.setBuf (s : State) (b : Buf) (x : List Byte) : State :=
  match b with
  | .T => { s with T := x }
  | .R => { s with R := x }
  | .D => { s with D := x }

/-- The capacity of the buffer (00_scope.md R8). -/
def bufSize (c : Cfg) : Buf → Nat
  | .T => c.tSize
  | .R => c.rSize
  | .D => c.dSize

/-- `P[i]`: no register is hardwired or banked (10_state.md R21). -/
def State.reg (s : State) (i : Fin 16) : Byte := s.P.get i

/-- `P[i] <- v`. -/
def State.setReg (s : State) (i : Fin 16) (v : Byte) : State := { s with P := s.P.set i v }

/-- `ALPHA[k]` (30_encoding.md R77, 00_scope.md R8). -/
def alphabet (c : Cfg) : Alphabet → List Byte
  | .std => c.alphaStd
  | .alt => c.alphaAlt
  | .eep => c.alphaEep
  | .phn => c.alphaPhn

/-- A flag operand is true if the register is not 0, and true is emitted as 0x01, false as 0x00
(44_generators.md R171). -/
def flagByte (b : Byte) : Byte := if b = 0 then 0 else 1

/-- Bit `k` of the CLRB mask (30_encoding.md R78): a buffer is kept unless its bit is 1. -/
def keepUnless {α : Type} (selected : Bool) (x : List α) : List α := if selected then [] else x

end Sys2Proof.Machine
end

