-- ==== Sys2Proof/Machine/Flags.lean ====
section
/-! DEFINITION. The flags and views, each a pure function of the state (10_state.md R26, R31): the block has no
arithmetic condition codes and no command reads a flag. -/

namespace Sys2Proof.Machine

/-- `STATUS.ERRF` = 1 exactly when `ERR != 0` (10_state.md R26). -/
def State.errf (s : State) : Bool := s.ERR != 0

/-- `STATUS.OAVAIL` = 1 exactly when `len(O) > 0` and `FAULT = 0` (10_state.md R26). -/
def State.oavail (s : State) : Bool := !s.O.isEmpty && !s.FAULT

/-- The STATUS register: [0] FAULT, [1] ERRF, [2] OAVAIL, [3] BUSY, which reads 0 (20_memory.md R55, 10_state.md R25). -/
def State.status (s : State) : Word :=
  (0 : BitVec 28) ++ BitVec.ofBool false ++ BitVec.ofBool s.oavail ++ BitVec.ofBool s.errf ++ BitVec.ofBool s.FAULT

/-- `OPKTS`: the number of entries of O whose eop bit is 1 (10_state.md R31). -/
def State.opkts (s : State) : Nat := s.O.countP (·.eop)

/-- A length or count as a 32-bit register reads it (20_memory.md R55). -/
def countWord (n : Nat) : Word := BitVec.ofNat 32 n

/-- `zext_32` of a byte register (20_memory.md R55, R56). -/
def byteWord (b : Byte) : Word := b.setWidth 32

end Sys2Proof.Machine
end

