-- ==== Sys2Proof/Machine/Ops.lean ====
section
/-! DEFINITION. The shared operations: how a command ends (00_scope.md R13), fatal fault entry and the way out of it
(60_exceptions.md R250, R252), the execution envelope (40_buffer_ops.md R100), appending to a buffer (20_memory.md R51),
emitting packets (R53), and taking an entry off the queue (R57). -/

namespace Sys2Proof.Machine

/-! ## Codes (60_exceptions.md R241) -/

/-- The byte ERR holds for an outcome. -/
def Code.byte : Code → Byte
  | .ok => 0x00
  | .illCmd => 0x01
  | .param => 0x02
  | .empty => 0x03
  | .frameLen => 0x04
  | .pageCnt => 0x05
  | .bufFull => 0x06
  | .oFull => 0x07
  | .faulted => 0x08

/-- The byte CAUSE and ERR hold after a fatal fault. -/
def Cause.byte : Cause → Byte
  | .zone => 0x80
  | .alarmNo => 0x81
  | .priority => 0x82

/-! ## How a command ends -/

/-- `reject(E)`: `ERR <- E`, and no other component of the state changes (60_exceptions.md R246). -/
def reject (e : Code) (s : State) : State := { s with ERR := e.byte }

/-- `done`: the command ends with `ERR <- 0` (00_scope.md R13). -/
def done (s : State) : State := { s with ERR := Code.ok.byte }

/-- `raise Fault(F)`, fatal fault entry: the cause is latched and all buffered work is discarded; P and NPKT are
unchanged (60_exceptions.md R250). There is no saved pc, no saved status and no vector. -/
def raiseFault (f : Cause) (s : State) : State :=
  { s with FAULT := true, CAUSE := f.byte, ERR := f.byte, T := [], R := [], D := [], O := [] }

/-- The effect of a hardware reset and of a soft reset, the only ways out of the fault state (70_reset_and_hazards.md
R270, R272; 60_exceptions.md R252): every piece of the block's state takes its reset value. The host's own list of
accesses and the value it last read are not the block's and stay (notes/assumptions/4.md). -/
def resetBlock (s : State) : State := { State.reset with accesses := s.accesses, rdata := s.rdata }

/-- The envelope of a write to CMD (40_buffer_ops.md R100): in the fault state `ERR <- E_FAULTED` and nothing else
happens (60_exceptions.md R247); otherwise the command's own rule decides. A rule is a function of the state that ends
in `reject`, `raiseFault` or `done`. Decoding changes no state, so its place before or after the test of FAULT cannot
be observed (notes/assumptions/5.md). -/
def command (rule : State → State) (s : State) : Host.Outcome State Fault Refusal :=
  .next (if s.FAULT then reject .faulted s else rule s)

/-! ## Appending and emitting -/

/-- Append `x` to a buffer, all or nothing, and go on with `next`; if it does not fit, `reject(E_BUFFULL)`
(20_memory.md R51). -/
def withAppend (c : Cfg) (b : Buf) (x : List Byte) (s : State) (next : State → State) : State :=
  if (s.buf b).length + x.length > bufSize c b then reject .bufFull s
  else next (s.setBuf b (s.buf b ++ x))

/-- `entries(p)`: every byte of the packet, the last one with `eop = 1` (00_scope.md R12). -/
def entries : List Byte → List Entry
  | [] => []
  | [b] => [⟨b, true⟩]
  | b :: b' :: p => ⟨b, false⟩ :: entries (b' :: p)

/-- `emit(p1) ... emit(pn)`: all or nothing; if `size`, the number of bytes they have together, does not fit in O,
`reject(E_OFULL)` (20_memory.md R53). -/
def withEmit (c : Cfg) (size : Nat) (packets : List (List Byte)) (s : State) (next : State → State) : State :=
  if s.O.length + size > c.oSize then reject .oFull s
  else next { s with O := s.O ++ packets.flatMap entries }

/-- The value a read of ODATA returns for an entry: `(1 << 9) | (e << 8) | b` (20_memory.md R57). -/
def Entry.word (e : Entry) : Word := (0 : BitVec 22) ++ BitVec.ofBool true ++ BitVec.ofBool e.eop ++ e.byte

/-- A read of ODATA: 0 and no change if `FAULT = 1` or O is empty; otherwise the head of O, which is removed
(20_memory.md R57). -/
def popO (s : State) : Word × State :=
  if s.FAULT then (0, s)
  else
    match s.O with
    | [] => (0, s)
    | e :: rest => (e.word, { s with O := rest })

end Sys2Proof.Machine
end

