-- ==== Sys2Proof/Machine/BufferOps.lean ====
section
/-! DEFINITION. The plumbing commands NOP, PUTB, SETP, CLRB (40_buffer_ops.md R102 to R105). -/

namespace Sys2Proof.Machine

/-- NOP's rule: `done` (40_buffer_ops.md R102). -/
def nopRule (s : State) : State := done s

/-- PUTB's rule (40_buffer_ops.md R103). -/
def putbRule (c : Cfg) (buf : Buf) (imm8 : Byte) (s : State) : State :=
  withAppend c buf [imm8] s done

/-- SETP's rule; the value is not validated here (40_buffer_ops.md R104). -/
def setpRule (idx : Fin 16) (imm8 : Byte) (s : State) : State := done (s.setReg idx imm8)

/-- CLRB's rule: bit 0 selects T, bit 1 R, bit 2 D, bit 3 O (40_buffer_ops.md R105). -/
def clrbRule (mask : BitVec 4) (s : State) : State :=
  done { s with
    T := keepUnless (mask.getLsbD 0) s.T, R := keepUnless (mask.getLsbD 1) s.R
    D := keepUnless (mask.getLsbD 2) s.D, O := keepUnless (mask.getLsbD 3) s.O }

/-- NOP (40_buffer_ops.md R102). -/
def execNop (s : State) : Host.Outcome State Fault Refusal := command nopRule s

/-- PUTB buf, imm8 (40_buffer_ops.md R103). -/
def execPutb (buf : Buf) (imm8 : Byte) (s : State) : Host.Outcome State Fault Refusal :=
  command (putbRule Config.cfg buf imm8) s

/-- SETP idx, imm8 (40_buffer_ops.md R104). -/
def execSetp (idx : Fin 16) (imm8 : Byte) (s : State) : Host.Outcome State Fault Refusal :=
  command (setpRule idx imm8) s

/-- CLRB mask (40_buffer_ops.md R105). -/
def execClrb (mask : BitVec 4) (s : State) : Host.Outcome State Fault Refusal := command (clrbRule mask) s

end Sys2Proof.Machine
end

