-- ==== Sys2Proof/Machine/CharEncoder.lean ====
section
/-! DEFINITION. The character encoder and the pack engine: the functions of 41_char_encoder.md R111 to R113 and R117,
and the commands ENC, PACK6, PACK4 (R114, R119, R122). -/

namespace Sys2Proof.Machine

/-- `lower(b)`: ASCII `A` to `Z` to lower case, every other byte as it is (41_char_encoder.md R111). -/
def lower (b : Byte) : Byte := if 0x41 ≤ b.toNat ∧ b.toNat ≤ 0x5A then b + 0x20 else b

/-- `space(A)`: the position of 0x20 in A (41_char_encoder.md R112). -/
def spaceIndex (A : List Byte) : Nat := A.idxOf 0x20

/-- `code(A, b)` as a position: b's own, or the space's if b does not occur in A (41_char_encoder.md R112). -/
def codeIndex (A : List Byte) (b : Byte) : Nat := if b ∈ A then A.idxOf b else spaceIndex A

/-- `code(A, b)` as the byte it is emitted as: "A code is less than `len(A)`, so fits a byte" (41_char_encoder.md R112). -/
def code (A : List Byte) (b : Byte) : Byte := BitVec.ofNat 8 (codeIndex A b)

/-- `space(A)` as a byte. -/
def spaceCode (A : List Byte) : Byte := BitVec.ofNat 8 (spaceIndex A)

/-- `encode(X, k, n, pad)` on the alphabet A = ALPHA[k]: lower-case, cut to n, look up, pad with the space code if asked
(41_char_encoder.md R113). -/
def encodeText (A : List Byte) (X : List Byte) (n : Nat) (pad : Bool) : List Byte :=
  let C := ((X.map lower).take n).map (code A)
  if pad then C ++ List.replicate (n - C.length) (spaceCode A) else C

/-- The accumulator V of `pack(C, w)`: the sum of `C[i] << (w * i)`, an unbounded natural (41_char_encoder.md R117). -/
def packValue (w : Nat) : List Byte → Nat
  | [] => 0
  | c :: C => c.toNat + 2 ^ w * packValue w C

/-- The least m with `V < 2^(8m)`, for V not 0 (41_char_encoder.md R117). -/
def byteCount (V : Nat) : Nat := Nat.log2 V / 8 + 1

/-- `pack(C, w)`: V least significant byte first in its least number of bytes; for V = 0, `PACK_ZERO_LEN` zero bytes
(41_char_encoder.md R117). -/
def pack (zeroLen : Nat) (w : Nat) (C : List Byte) : List Byte :=
  let V := packValue w C
  if V = 0 then List.replicate zeroLen 0
  else (List.range (byteCount V)).map fun j => BitVec.ofNat 8 (V >>> (8 * j))

/-- The bytes PACK6 appends for the text X: at most 31 characters, then the terminator, 6 bits per code
(41_char_encoder.md R119). -/
def pack6Bytes (c : Cfg) (X : List Byte) : List Byte :=
  pack c.packZeroLen 6 (encodeText (alphabet c .eep) X 31 false ++ [c.kTerm])

/-- The bytes PACK4 appends for the text X: at most 12 characters, no terminator, 4 bits per code
(41_char_encoder.md R122). -/
def pack4Bytes (c : Cfg) (X : List Byte) : List Byte :=
  pack c.packZeroLen 4 (encodeText (alphabet c .phn) X 12 false)

/-- Append `x` to R and empty T: what ENC, PACK6 and PACK4 have in common (41_char_encoder.md R114, R119, R122). -/
def textIntoR (c : Cfg) (x : List Byte) (s : State) : State :=
  withAppend c .R x s fun s' => done { s' with T := [] }

/-- ENC's rule (41_char_encoder.md R114). -/
def encRule (c : Cfg) (alpha : Alphabet) (maxlen : Nat) (pad : Bool) (s : State) : State :=
  textIntoR c (encodeText (alphabet c alpha) s.T maxlen pad) s

/-- PACK6's rule (41_char_encoder.md R119). -/
def pack6Rule (c : Cfg) (s : State) : State := textIntoR c (pack6Bytes c s.T) s

/-- PACK4's rule (41_char_encoder.md R122). -/
def pack4Rule (c : Cfg) (s : State) : State := textIntoR c (pack4Bytes c s.T) s

/-- ENC alpha, maxlen, pad (41_char_encoder.md R114). -/
def execEnc (alpha : Alphabet) (maxlen : Nat) (pad : Bool) (s : State) : Host.Outcome State Fault Refusal :=
  command (encRule Config.cfg alpha maxlen pad) s

/-- PACK6 (41_char_encoder.md R119). -/
def execPack6 (s : State) : Host.Outcome State Fault Refusal := command (pack6Rule Config.cfg) s

/-- PACK4 (41_char_encoder.md R122). -/
def execPack4 (s : State) : Host.Outcome State Fault Refusal := command (pack4Rule Config.cfg) s

end Sys2Proof.Machine
end

