-- ==== Sys2Proof/Machine/Framers.lean ====
section
/-! DEFINITION. The checksum framer and the length framer: the functions of 42_framers.md R131, R133 and R137, and the
commands FCRC, FLEN, EMIT (R135, R139, R140). -/

namespace Sys2Proof.Machine

/-- One of the eight shifts per byte: to the right, with 0xA001 exclusive-ored in when a 1 leaves (42_framers.md R131). -/
def crcShift (crc : Half) : Half := if crc.getLsbD 0 then (crc >>> 1) ^^^ 0xA001 else crc >>> 1

/-- `k` shifts. -/
def crcShifts : Nat → Half → Half
  | 0, crc => crc
  | k + 1, crc => crcShifts k (crcShift crc)

/-- One byte into the register: exclusive-or into the low 8 bits, then eight shifts (42_framers.md R131). -/
def crcByte (crc : Half) (x : Byte) : Half := crcShifts 8 (crc ^^^ x.setWidth 16)

/-- `crc16(X)`: initial register 0, no final exclusive-or (42_framers.md R131). -/
def crc16 (X : List Byte) : Half := X.foldl crcByte 0

/-- `frame(X)`: the header byte `len(X) + 3`, X, and the CRC over both, low byte first (42_framers.md R133). The spec
defines it for `len(X) <= 252`; no command uses it beyond (R136; notes/assumptions/9.md). -/
def frame (X : List Byte) : List Byte :=
  let hX := BitVec.ofNat 8 (X.length + 3) :: X
  let crc := crc16 hX
  hX ++ [crc.extractLsb' 0 8, crc.extractLsb' 8 8]

/-- `frame_len(X)`: the header byte `len(X) + 1`, then X (42_framers.md R137). The spec defines it for `len(X) <= 254`;
FLEN uses it no further (R138; notes/assumptions/9.md). -/
def frameLen (X : List Byte) : List Byte := BitVec.ofNat 8 (X.length + 1) :: X

/-- FCRC's rule (42_framers.md R135). -/
def fcrcRule (c : Cfg) (s : State) : State :=
  if s.R.length > 252 then reject .frameLen s
  else withEmit c (frame s.R).length [frame s.R] s fun s' => done { s' with R := [] }

/-- FLEN's rule (42_framers.md R139). -/
def flenRule (c : Cfg) (s : State) : State :=
  if s.R.length > 254 then reject .frameLen s
  else withAppend c .D (frameLen s.R) s fun s' => done { s' with R := [] }

/-- EMIT's rule (42_framers.md R140). -/
def emitRule (c : Cfg) (s : State) : State :=
  if s.R.length = 0 then reject .empty s
  else withEmit c s.R.length [s.R] s fun s' => done { s' with R := [] }

/-- FCRC (42_framers.md R135). -/
def execFcrc (s : State) : Host.Outcome State Fault Refusal := command (fcrcRule Config.cfg) s

/-- FLEN (42_framers.md R139). -/
def execFlen (s : State) : Host.Outcome State Fault Refusal := command (flenRule Config.cfg) s

/-- EMIT (42_framers.md R140). -/
def execEmit (s : State) : Host.Outcome State Fault Refusal := command (emitRule Config.cfg) s

end Sys2Proof.Machine
end

