-- ==== Sys2Proof/Machine/Generators.lean ====
section
/-! DEFINITION. The record-to-frame generators GSYNC, GSTART, GEND, GTIME, GALARM, GSNDOPT (44_generators.md R170 to
R189). Each emits one packet; none reads or writes R or D, none writes P (R170). -/

namespace Sys2Proof.Machine

/-- The Sync packet: the ping byte, n sync-1 bytes, the sync-2 run; not framed (44_generators.md R172). -/
def syncPacket (c : Cfg) (n : Nat) : List Byte :=
  c.kPing :: (List.replicate n c.kSync1 ++ List.replicate c.kSync2Len c.kSync2)

/-- The weekday index, Monday = 0, of an ISO weekday: `(P[7] + 6) mod 7`, on naturals (44_generators.md R179, R189). -/
def weekdayIndex (isoWeekday : Byte) : Byte := BitVec.ofNat 8 ((isoWeekday.toNat + 6) % 7)

/-- The display flag: 1 for 12-hour (`P[8] = 0`), 2 for 24-hour (44_generators.md R178, R179). -/
def displayFlag (flag24 : Byte) : Byte := if flag24 = 0 then 1 else 2

/-- Whether the code is one of the six date formats; 3 is unused (44_generators.md R179, R181). -/
def isDateFormat (code : Byte) : Bool := code ∈ ([0, 1, 2, 4, 5, 6] : List Byte)

/-- The 14-byte Time payload (44_generators.md R178, R180). -/
def timePayload (c : Cfg) (alpha : Alphabet) (s : State) : List Byte :=
  [c.kOpTime, s.reg 0, s.reg 1, s.reg 2, s.reg 3, s.reg 4, s.reg 5, s.reg 6] ++
  encodeText (alphabet c alpha) s.T 3 true ++
  [weekdayIndex (s.reg 7), displayFlag (s.reg 8), s.reg 9]

/-- The message of an Alarm (44_generators.md R183, R184). -/
def alarmMessage (c : Cfg) (alpha : Alphabet) (pad : Bool) (s : State) : List Byte :=
  encodeText (alphabet c alpha) s.T 8 pad

/-- The Alarm payload (44_generators.md R183, R185). -/
def alarmPayload (c : Cfg) (alpha : Alphabet) (pad : Bool) (s : State) : List Byte :=
  [c.kOpAlarm, s.reg 0, s.reg 1, s.reg 2, 0x00, 0x00] ++ alarmMessage c alpha pad s ++ [flagByte (s.reg 3)]

/-- The SoundOptions payload (44_generators.md R187, R188). -/
def sndoptPayload (c : Cfg) (s : State) : List Byte := [c.kOpSndopt, flagByte (s.reg 0), flagByte (s.reg 1)]

/-- GSYNC's rule; the packet has `n + 41` bytes: one, n, and the sync-2 run (44_generators.md R172). -/
def gsyncRule (c : Cfg) (n : Nat) (s : State) : State :=
  withEmit c (1 + n + c.kSync2Len) [syncPacket c n] s done

/-- GSTART's rule (44_generators.md R175). -/
def gstartRule (c : Cfg) (s : State) : State :=
  withEmit c (frame c.kStart).length [frame c.kStart] s done

/-- GEND's rule (44_generators.md R177). -/
def gendRule (c : Cfg) (s : State) : State :=
  withEmit c (frame c.kEnd).length [frame c.kEnd] s done

/-- GTIME's rule: the checks in the order of R181, then the packet; T is emptied (44_generators.md R180, R181). -/
def gtimeRule (c : Cfg) (alpha : Alphabet) (s : State) : State :=
  if s.reg 0 ≠ 1 ∧ s.reg 0 ≠ 2 then raiseFault .zone s
  else if (s.reg 7).toNat < 1 ∨ (s.reg 7).toNat > 7 then reject .param s
  else if ¬ isDateFormat (s.reg 9) then reject .param s
  else withEmit c 17 [frame (timePayload c alpha s)] s fun s' => done { s' with T := [] }

/-- GALARM's rule: the checks in the order of R186, then the packet; T is emptied (44_generators.md R185, R186). -/
def galarmRule (c : Cfg) (alpha : Alphabet) (pad : Bool) (s : State) : State :=
  if (s.reg 0).toNat < 1 ∨ (s.reg 0).toNat > 5 then raiseFault .alarmNo s
  else
    withEmit c (10 + (alarmMessage c alpha pad s).length) [frame (alarmPayload c alpha pad s)] s fun s' =>
      done { s' with T := [] }

/-- GSNDOPT's rule; no operand check, T is not read (44_generators.md R188). -/
def gsndoptRule (c : Cfg) (s : State) : State := withEmit c 6 [frame (sndoptPayload c s)] s done

/-- GSYNC n (44_generators.md R172). -/
def execGsync (n : Nat) (s : State) : Host.Outcome State Fault Refusal := command (gsyncRule Config.cfg n) s

/-- GSTART (44_generators.md R175). -/
def execGstart (s : State) : Host.Outcome State Fault Refusal := command (gstartRule Config.cfg) s

/-- GEND (44_generators.md R177). -/
def execGend (s : State) : Host.Outcome State Fault Refusal := command (gendRule Config.cfg) s

/-- GTIME alpha (44_generators.md R180). -/
def execGtime (alpha : Alphabet) (s : State) : Host.Outcome State Fault Refusal :=
  command (gtimeRule Config.cfg alpha) s

/-- GALARM alpha, pad (44_generators.md R185). -/
def execGalarm (alpha : Alphabet) (pad : Bool) (s : State) : Host.Outcome State Fault Refusal :=
  command (galarmRule Config.cfg alpha pad) s

/-- GSNDOPT (44_generators.md R188). -/
def execGsndopt (s : State) : Host.Outcome State Fault Refusal := command (gsndoptRule Config.cfg) s

end Sys2Proof.Machine
end

