-- ==== Sys2Proof/Machine/Paginator.lean ====
section
/-! DEFINITION. The chunk paginator: the functions of 43_paginator.md R150 and R151, and the commands PAGE, PAGEF, PCNT
(R155 to R157). -/

namespace Sys2Proof.Machine

/-- `npk(L, cs) = max(1, ceil(L / cs))`, the quotient as R159 computes it (43_paginator.md R150, R159). The rule gives it
for `cs >= 1`; that it is 1 for `cs = 0` is the model's choice and reaches no command (DESIGN CHOICE,
notes/assumptions/9.md). -/
def npk (L cs : Nat) : Nat := max 1 ((L + cs - 1) / cs)

/-- `chunk_i`, i counted from 1: `X[(i-1)*cs : min(i*cs, len(X))]` (43_paginator.md R151). -/
def chunk (cs : Nat) (X : List Byte) (i : Nat) : List Byte := (X.drop ((i - 1) * cs)).take cs

/-- `paginate(h0, h1, cs, X)`: packet i is `[h0, h1, i] ++ chunk_i`, i from 1 to npk (43_paginator.md R151). R151 defines
it for a chunk size in 1..255 and at most 255 packets. Outside that domain the value is the model's choice (the index
modulo 256; one packet with an empty chunk for `cs = 0`): no command and no host group of the model uses it there (DESIGN
CHOICE, notes/assumptions/9.md). -/
def paginate (h0 h1 : Byte) (cs : Nat) (X : List Byte) : List (List Byte) :=
  (List.range' 1 (npk X.length cs)).map fun i => h0 :: h1 :: BitVec.ofNat 8 i :: chunk cs X i

/-- The end of PAGE and PAGEF: `D <- []`, `NPKT <- n` (43_paginator.md R155, R156). -/
def pageDone (n : Nat) (s : State) : State := done { s with D := [], NPKT := BitVec.ofNat 8 n }

/-- PAGE's rule (43_paginator.md R155). -/
def pageRule (c : Cfg) (h0 h1 : Byte) (cs : Nat) (s : State) : State :=
  if cs = 0 then reject .param s
  else if npk s.D.length cs > 255 then reject .pageCnt s
  else
    withEmit c (3 * npk s.D.length cs + s.D.length) (paginate h0 h1 cs s.D) s
      (pageDone (npk s.D.length cs))

/-- PAGEF's rule (43_paginator.md R156). -/
def pagefRule (c : Cfg) (h0 h1 : Byte) (cs : Nat) (s : State) : State :=
  if cs = 0 then reject .param s
  else if min cs s.D.length + 3 > 252 then reject .frameLen s
  else if npk s.D.length cs > 255 then reject .pageCnt s
  else
    withEmit c (6 * npk s.D.length cs + s.D.length) ((paginate h0 h1 cs s.D).map frame) s
      (pageDone (npk s.D.length cs))

/-- PCNT's rule; D is read and not consumed (43_paginator.md R157). -/
def pcntRule (c : Cfg) (cs : Nat) (s : State) : State :=
  if cs = 0 then reject .param s
  else if npk s.D.length cs > 255 then reject .pageCnt s
  else
    withAppend c .R [BitVec.ofNat 8 (npk s.D.length cs)] s fun s' =>
      done { s' with NPKT := BitVec.ofNat 8 (npk s.D.length cs) }

/-- PAGE h0, h1, cs (43_paginator.md R155). -/
def execPage (h0 h1 : Byte) (cs : Nat) (s : State) : Host.Outcome State Fault Refusal :=
  command (pageRule Config.cfg h0 h1 cs) s

/-- PAGEF h0, h1, cs (43_paginator.md R156). -/
def execPagef (h0 h1 : Byte) (cs : Nat) (s : State) : Host.Outcome State Fault Refusal :=
  command (pagefRule Config.cfg h0 h1 cs) s

/-- PCNT cs (43_paginator.md R157). -/
def execPcnt (cs : Nat) (s : State) : Host.Outcome State Fault Refusal := command (pcntRule Config.cfg cs) s

end Sys2Proof.Machine
end

