-- ==== Sys2Proof/Machine/Dispatch.lean ====
section
/-! DEFINITION. One arm per command: the opcode map of 30_encoding.md R79, column "semantics". -/

namespace Sys2Proof.Machine

def exec (i : Instr) (s : State) : Host.Outcome State Fault Refusal :=
  match i with
  | .nop => Sys2Proof.Machine.execNop s
  | .putb buf imm8 => Sys2Proof.Machine.execPutb buf imm8 s
  | .setp idx imm8 => Sys2Proof.Machine.execSetp idx imm8 s
  | .clrb mask => Sys2Proof.Machine.execClrb mask s
  | .enc alpha maxlen pad => Sys2Proof.Machine.execEnc alpha maxlen pad s
  | .pack6 => Sys2Proof.Machine.execPack6 s
  | .pack4 => Sys2Proof.Machine.execPack4 s
  | .fcrc => Sys2Proof.Machine.execFcrc s
  | .flen => Sys2Proof.Machine.execFlen s
  | .emit => Sys2Proof.Machine.execEmit s
  | .page h0 h1 cs => Sys2Proof.Machine.execPage h0 h1 cs s
  | .pagef h0 h1 cs => Sys2Proof.Machine.execPagef h0 h1 cs s
  | .pcnt cs => Sys2Proof.Machine.execPcnt cs s
  | .gsync n => Sys2Proof.Machine.execGsync n s
  | .gstart => Sys2Proof.Machine.execGstart s
  | .gend => Sys2Proof.Machine.execGend s
  | .gtime alpha => Sys2Proof.Machine.execGtime alpha s
  | .galarm alpha pad => Sys2Proof.Machine.execGalarm alpha pad s
  | .gsndopt => Sys2Proof.Machine.execGsndopt s

end Sys2Proof.Machine
end

