-- ==== Sys2Proof/Machine/HostPort.lean ====
section
/-! DEFINITION. The host register space (20_memory.md R54 to R59) and the serving of one access, which is one step of
the machine (20_memory.md R66, 70_reset_and_hazards.md R292). -/

namespace Sys2Proof.Machine

/-- The registers of 20_memory.md R55. -/
inductive Reg where
  | cmd | status | err | cause | odata | tlen | rlen | dlen | olen | opkts | npkt | ctrl
  | pview (i : Fin 16)
deriving DecidableEq, Repr

/-- The register at a byte offset; `none` for a reserved offset and above 0x7C (20_memory.md R55, R59). -/
def regAt (off : Nat) : Option Reg :=
  if off = 0x00 then some .cmd
  else if off = 0x04 then some .status
  else if off = 0x08 then some .err
  else if off = 0x0C then some .cause
  else if off = 0x10 then some .odata
  else if off = 0x14 then some .tlen
  else if off = 0x18 then some .rlen
  else if off = 0x1C then some .dlen
  else if off = 0x20 then some .olen
  else if off = 0x24 then some .opkts
  else if off = 0x28 then some .npkt
  else if off = 0x2C then some .ctrl
  else if h : 0x40 ≤ off ∧ off ≤ 0x7C then some (.pview ⟨(off - 0x40) / 4, by omega⟩)
  else none

/-- The byte offset of a register (20_memory.md R55). -/
def Reg.offset : Reg → Nat
  | .cmd => 0x00
  | .status => 0x04
  | .err => 0x08
  | .cause => 0x0C
  | .odata => 0x10
  | .tlen => 0x14
  | .rlen => 0x18
  | .dlen => 0x1C
  | .olen => 0x20
  | .opkts => 0x24
  | .npkt => 0x28
  | .ctrl => 0x2C
  | .pview i => 0x40 + 4 * i.val

/-- The value a read of a register returns and the state it leaves: only ODATA has a side effect, write-only registers
read 0 (20_memory.md R55 to R57, R59). -/
def readReg (r : Reg) (s : State) : Word × State :=
  match r with
  | .cmd => (0, s)
  | .status => (s.status, s)
  | .err => (byteWord s.ERR, s)
  | .cause => (byteWord s.CAUSE, s)
  | .odata => popO s
  | .tlen => (countWord s.T.length, s)
  | .rlen => (countWord s.R.length, s)
  | .dlen => (countWord s.D.length, s)
  | .olen => (countWord s.O.length, s)
  | .opkts => (countWord s.opkts, s)
  | .npkt => (byteWord s.NPKT, s)
  | .ctrl => (0, s)
  | .pview i => (byteWord (s.reg i), s)

/-- `RegRead(off)`: a reserved or unmapped offset reads 0 with no side effect (20_memory.md R59). -/
def readAt (off : Nat) (s : State) : Word × State :=
  match regAt off with
  | some r => readReg r s
  | none => (0, s)

/-- A write of `w` to CMD: an illegal word is rejected with `E_ILLCMD` (60_exceptions.md R242), every other word is
executed; in the fault state both are rejected with `E_FAULTED` (`command`; R247). -/
def writeCmd (w : Word) (s : State) : Host.Outcome State Fault Refusal :=
  match decode w with
  | .ok i => exec i s
  | .error _ => command (reject .illCmd) s

/-- A write of `v` to CTRL: bit 0 `SRST` is a soft reset, every other bit is ignored (70_reset_and_hazards.md R272). -/
def writeCtrl (v : Word) (s : State) : State := if v.getLsbD 0 then resetBlock s else s

/-- `RegWrite(off, v)`: only CMD and CTRL take writes; read-only, reserved and unmapped offsets ignore them
(20_memory.md R55, R59). -/
def writeAt (off : Nat) (v : Word) (s : State) : Host.Outcome State Fault Refusal :=
  match regAt off with
  | some .cmd => writeCmd v s
  | some .ctrl => .next (writeCtrl v s)
  | _ => .next s

/-- The accesses the spec defines: 32 bits wide, 4-byte aligned (20_memory.md R54, R59, R62). -/
def accessDefined (off width : Nat) : Bool := width == 32 && off % 4 == 0

/-- Whether the spec gives the access a step; the reset event is always accepted (70_reset_and_hazards.md R270). -/
def Access.defined : Access → Bool
  | .read off width => accessDefined off width
  | .write off width _ => accessDefined off width
  | .reset => true

/-- The value of a host read goes to the host (`rdata`, the model's own). -/
def deliver (r : Word × State) : State := { r.2 with rdata := r.1 }

/-- Serve one access, completely (20_memory.md R54, R58). -/
def serve (a : Access) (s : State) : Host.Outcome State Fault Refusal :=
  match a with
  | .read off width =>
    if accessDefined off width then .next (deliver (readAt off s)) else .refused (.undefinedAccess off width)
  | .write off width v =>
    if accessDefined off width then writeAt off v s else .refused (.undefinedAccess off width)
  | .reset => .next (resetBlock s)

/-- Serve the oldest waiting access. With none waiting the block is idle and its state stays as it is
(10_state.md R25). -/
def serveNext (s : State) : Host.Outcome State Fault Refusal :=
  match s.accesses with
  | [] => .next s
  | a :: rest => serve a { s with accesses := rest }

/-- A host write of a command word to CMD (30_encoding.md R70, R86). -/
def cmdWrite (w : Word) : Access := .write 0x00 32 w

end Sys2Proof.Machine
end

