-- ==== Sys2Proof/Machine/Step.lean ====
section
/-! DEFINITION. One step of the machine is the serving of one host access or reset event (70_reset_and_hazards.md R292,
20_memory.md R66), and the place where the next command comes from: a write to CMD (10_state.md R24). -/

namespace Sys2Proof.Machine

/-- One host access is one step (70_reset_and_hazards.md R292). -/
def step (s : State) : Host.Outcome State Fault Refusal := serveNext s

/-- `s` with a host write of the word to CMD waiting before everything else, so that the very next step executes it: the
block has no fetch, "a command exists only while the host's write to the CMD register is being served" (10_state.md R24;
notes/assumptions/3.md). -/
def State.withFetchWord (s : State) (nbits w : Nat) : State :=
  { s with accesses := cmdWrite (BitVec.ofNat 32 (w % 2 ^ nbits)) :: s.accesses }

end Sys2Proof.Machine
end

