-- ==== Sys2Proof/Machine/Assembler.lean ====
section
/-! DEFINITION. The assembler syntax of 30_encoding.md R86 and the pseudo-instructions of R87: how a line of a host
program is written, which accesses it stands for, and the number R86 gives for its word. None of this is in the block;
it is the language the host sequences of 45_host_sequences.md are written in (notes/assumptions/11.md). -/

namespace Sys2Proof.Machine

/-- A line of a host program (30_encoding.md R86, R87). -/
inductive AsmLine where
  /-- A mnemonic line: one write of the encoded word to CMD. -/
  | command (i : Instr)
  /-- `TEXT buf, "s"`, s given by its characters' codes. -/
  | text (buf : Buf) (s : List Byte)
  /-- `BYTES buf, b0 b1 ... bk`. -/
  | bytes (buf : Buf) (bs : List Byte)
  /-- `PUTW buf, v`. -/
  | putw (buf : Buf) (v : BitVec 16)
  /-- `GSYNC` with no operand. -/
  | gsyncDefault
  /-- `GSYNC.L`. -/
  | gsyncLegacy
  /-- `CLRALL`. -/
  | clrall
  /-- `RESET`. -/
  | reset
  /-- `RD reg`. -/
  | rd (reg : Reg)
  /-- `WR reg, v`, for a register other than CMD. -/
  | wr (reg : Reg) (v : Word)
deriving DecidableEq, Repr

/-- The byte a host presents for a character that has no ASCII code. 41_char_encoder.md R110 asks for a byte outside every
alphabet and gives 0xFF as its example; that it is 0xFF in every build is the model's choice (DESIGN CHOICE,
notes/assumptions/11.md). -/
def nonAsciiByte : Byte := 0xFF

/-- The bytes of a string, one per character: its ASCII code (30_encoding.md R87), and `nonAsciiByte` for a character
without one (41_char_encoder.md R110; notes/assumptions/11.md). -/
def ascii (s : String) : List Byte :=
  s.toList.map fun ch => if ch.toNat < 128 then BitVec.ofNat 8 ch.toNat else nonAsciiByte

/-- The commands a line stands for (30_encoding.md R87); `RD`, `WR` and `RESET` are no commands. -/
def AsmLine.commands : AsmLine → List Instr
  | .command i => [i]
  | .text buf s => s.map (.putb buf)
  | .bytes buf bs => bs.map (.putb buf)
  | .putw buf v => [.putb buf (v.extractLsb' 8 8), .putb buf (v.extractLsb' 0 8)]
  | .gsyncDefault => [.gsync 300]
  | .gsyncLegacy => [.gsync 150]
  | .clrall => [.clrb 0xF]
  | .reset => []
  | .rd _ => []
  | .wr _ _ => []

/-- The host accesses a line makes beside its commands: `RESET` is `WR CTRL, 1` (30_encoding.md R86, R87). -/
def AsmLine.plainAccesses : AsmLine → List Access
  | .reset => [.write Reg.ctrl.offset 32 1]
  | .rd reg => [.read reg.offset 32]
  | .wr reg v => [.write reg.offset 32 v]
  | .command _ => []
  | .text _ _ => []
  | .bytes _ _ => []
  | .putw _ _ => []
  | .gsyncDefault => []
  | .gsyncLegacy => []
  | .clrall => []

/-- The host accesses a line stands for: one write to CMD per command (30_encoding.md R86, R87). -/
def AsmLine.accesses (line : AsmLine) : List Access :=
  line.commands.map (fun i => cmdWrite (encode i)) ++ line.plainAccesses

/-- The accesses of a host program, in order. -/
def accessesOf (lines : List AsmLine) : List Access := lines.flatMap AsmLine.accesses

/-- How many reads of ODATA `POPPKT` makes on a queue: "until a value with EOP = 1 or VALID = 0 is returned"
(30_encoding.md R87). -/
def popCount : List Entry → Nat
  | [] => 1
  | e :: rest => if e.eop then 1 else 1 + popCount rest

/-- `POPPKT` in the state it is issued in; in the fault state the first read returns `VALID = 0` (20_memory.md R57). -/
def popPkt (s : State) : List Access :=
  List.replicate (if s.FAULT then 1 else popCount s.O) (.read Reg.odata.offset 32)

/-- The column "word" of 30_encoding.md R86, as the arithmetic it is written in. -/
def asmWord : Instr → Nat
  | .nop => 0x00000000
  | .putb buf v => 0x01000000 + buf.sel.toNat * 2 ^ 16 + v.toNat
  | .setp i v => 0x02000000 + i.val * 2 ^ 16 + v.toNat
  | .clrb mask => 0x03000000 + mask.toNat
  | .enc alpha maxlen pad => 0x10000000 + (pad.toNat * 2 ^ 2 + alpha.sel.toNat) * 2 ^ 16 + maxlen
  | .pack6 => 0x11000000
  | .pack4 => 0x12000000
  | .fcrc => 0x20000000
  | .flen => 0x21000000
  | .emit => 0x22000000
  | .page h0 h1 cs => 0x30000000 + h0.toNat * 2 ^ 16 + h1.toNat * 2 ^ 8 + cs
  | .pagef h0 h1 cs => 0x31000000 + h0.toNat * 2 ^ 16 + h1.toNat * 2 ^ 8 + cs
  | .pcnt cs => 0x32000000 + cs
  | .gsync n => 0x40000000 + n
  | .gstart => 0x41000000
  | .gend => 0x42000000
  | .gtime alpha => 0x43000000 + alpha.sel.toNat * 2 ^ 16
  | .galarm alpha pad => 0x44000000 + (pad.toNat * 2 ^ 2 + alpha.sel.toNat) * 2 ^ 16
  | .gsndopt => 0x45000000

/-- A buffer's name in the syntax of 30_encoding.md R86. -/
def Buf.asm : Buf → String
  | .T => "T"
  | .R => "R"
  | .D => "D"

/-- An alphabet's name in the syntax of 30_encoding.md R86. -/
def Alphabet.asm : Alphabet → String
  | .std => "STD"
  | .alt => "ALT"
  | .eep => "EE"
  | .phn => "PH"

/-- The comma-separated list of CLRB (30_encoding.md R86). -/
def maskAsm (mask : BitVec 4) : String :=
  ", ".intercalate (((List.range 4).zip ["T", "R", "D", "O"]).filterMap fun p =>
    if mask.getLsbD p.1 then some p.2 else none)

/-- An instruction as R86 writes it, numbers in decimal. -/
def Instr.asm : Instr → String
  | .putb buf v => "PUTB " ++ Buf.asm buf ++ ", " ++ v.toNat.repr
  | .setp i v => "SETP " ++ i.val.repr ++ ", " ++ v.toNat.repr
  | .clrb mask => "CLRB " ++ maskAsm mask
  | .enc alpha maxlen pad =>
    "ENC " ++ Alphabet.asm alpha ++ ", " ++ maxlen.repr ++ (if pad then ", pad" else ", nopad")
  | .page h0 h1 cs => "PAGE " ++ h0.toNat.repr ++ ", " ++ h1.toNat.repr ++ ", " ++ cs.repr
  | .pagef h0 h1 cs => "PAGEF " ++ h0.toNat.repr ++ ", " ++ h1.toNat.repr ++ ", " ++ cs.repr
  | .pcnt cs => "PCNT " ++ cs.repr
  | .gsync n => "GSYNC " ++ n.repr
  | .gtime alpha => "GTIME " ++ Alphabet.asm alpha
  | .galarm alpha pad => "GALARM " ++ Alphabet.asm alpha ++ (if pad then ", pad" else ", nopad")
  | .nop => "NOP"
  | .pack6 => "PACK6"
  | .pack4 => "PACK4"
  | .fcrc => "FCRC"
  | .flen => "FLEN"
  | .emit => "EMIT"
  | .gstart => "GSTART"
  | .gend => "GEND"
  | .gsndopt => "GSNDOPT"

end Sys2Proof.Machine
end

