-- ==== Sys2Proof/Machine/HostSequences.lean ====
section
/-! DEFINITION. The parts of the source above the block (45_host_sequences.md R200 to R225): for each the pure function
the source defines, and the sequence of accesses by which a host computes it on the block. "Nothing in this file is a
command of the block." What the spec calls a duty of the host to refuse is `none` here (notes/assumptions/12.md). -/

namespace Sys2Proof.Machine

/-- The byte values the source does not print, operands the host passes (45_host_sequences.md, opening; 91_not_in_source.md
N9, N10). -/
structure HostConstants where
  /-- `H_ST_HDR`. -/
  stHdr : List Byte
  /-- `H_ST_DATA`, exactly two bytes. -/
  stData : Byte × Byte
  /-- `H_ST_END`. -/
  stEnd : List Byte
  /-- `CS_ST`, a byte: it is "passed as the cs operand of PCNT and PAGEF" (92_eei_decisions.md D44), "an unsigned byte"
  (30_encoding.md R74). That a host has no chunk size above 255 is DEDUCED from this (notes/assumptions/12.md). -/
  stChunk : Byte
  /-- `H_WA_CLEAR`. -/
  waClear : List Byte
  /-- `H_WA_HDR`. -/
  waHdr : List Byte
  /-- `H_WA_MARKER`. -/
  waMarker : Byte
  /-- `H_WA_DATA`. -/
  waData : Byte × Byte
  /-- `H_WA_END`. -/
  waEnd : List Byte
  /-- `CS_WA`, a byte: it is "passed as the cs operand of PCNT and PAGEF" (92_eei_decisions.md D44), "an unsigned byte"
  (30_encoding.md R74). That a host has no chunk size above 255 is DEDUCED from this (notes/assumptions/12.md). -/
  waChunk : Byte
  /-- `H_EE_CLEAR`. -/
  eeClear : List Byte
  /-- `H_EE_HDR`. -/
  eeHdr : List Byte
  /-- `H_EE_DATA`. -/
  eeData : Byte × Byte
  /-- `H_EE_END`. -/
  eeEnd : List Byte
deriving DecidableEq, Repr

/-- The payloads of a group's data packets, where the spec defines them: `paginate` is given for a chunk size in 1..255 and
at most 255 packets only (43_paginator.md R151). That a group outside this domain has no packets, `none`, is the model's
choice: the host sequences name no refusal there (DESIGN CHOICE, notes/assumptions/12.md). -/
def dataPayloads (hdr : Byte × Byte) (cs : Nat) (X : List Byte) : Option (List (List Byte)) :=
  if 1 ≤ cs ∧ cs ≤ 255 ∧ npk X.length cs ≤ 255 then some (paginate hdr.1 hdr.2 cs X) else none

/-- The packets of a group, "all individually checksum-framed, concatenation order preserved" (45_host_sequences.md R200),
where the spec defines them: `frame` is given for at most 252 bytes only (42_framers.md R133). That a group with a longer
payload has no packets is the model's choice (DESIGN CHOICE, notes/assumptions/12.md). -/
def framedGroup (payloads : List (List Byte)) : Option (List (List Byte)) :=
  if payloads.all (·.length ≤ 252) then some (payloads.map frame) else none

/-- A group of leading packets, the paginated data packets and a fixed end packet (45_host_sequences.md R200, R201, R204,
R217). -/
def groupPackets (leading : List (List Byte)) (hdr : Byte × Byte) (cs : Nat) (X : List Byte) (last : List Byte) :
    Option (List (List Byte)) :=
  (dataPayloads hdr cs X).bind fun data => framedGroup (leading ++ data ++ [last])

/-! ## SoundTheme (R201 to R203) -/

/-- The host "must refuse" a theme payload that is empty or longer than 256 bytes (R202). -/
def themeSendable (X : List Byte) : Bool := 1 ≤ X.length && X.length ≤ 256

/-- The packets of a SoundTheme group (R201), none for a payload the host must refuse (R202) and none outside the domain of
R151 and R133 (the model's choice, notes/assumptions/12.md). -/
def soundThemePackets (h : HostConstants) (X : List Byte) : Option (List (List Byte)) :=
  if themeSendable X then
    groupPackets [h.stHdr ++ [BitVec.ofNat 8 (npk X.length h.stChunk.toNat), BitVec.ofNat 8 (256 - X.length)]]
      h.stData h.stChunk.toNat X h.stEnd
  else none

/-- SoundTheme on the block, from a state with R and D empty (R203); nothing is sent for a payload the host must refuse, so
the offset byte is never reduced modulo 256 (R202). -/
def soundThemeLines (h : HostConstants) (X : List Byte) : Option (List AsmLine) :=
  if themeSendable X then
    some [.bytes .D X, .bytes .R h.stHdr, .command (.pcnt h.stChunk.toNat), .bytes .R [BitVec.ofNat 8 (256 - X.length)],
      .command .fcrc, .command (.pagef h.stData.1 h.stData.2 h.stChunk.toNat), .bytes .R h.stEnd, .command .fcrc]
  else none

/-! ## WristApp (R204, R205) -/

/-- The packets of a WristApp group (R204), none outside the domain of 43_paginator.md R151 and 42_framers.md R133 (the
model's choice, notes/assumptions/12.md). -/
def wristAppPackets (h : HostConstants) (X : List Byte) : Option (List (List Byte)) :=
  groupPackets [h.waClear, h.waHdr ++ [BitVec.ofNat 8 (npk X.length h.waChunk.toNat), h.waMarker]]
    h.waData h.waChunk.toNat X h.waEnd

/-- WristApp on the block, from a state with R and D empty (R205). -/
def wristAppLines (h : HostConstants) (X : List Byte) : List AsmLine :=
  [.bytes .R h.waClear, .command .fcrc, .bytes .D X, .bytes .R h.waHdr, .command (.pcnt h.waChunk.toNat),
   .bytes .R [h.waMarker], .command .fcrc, .command (.pagef h.waData.1 h.waData.2 h.waChunk.toNat),
   .bytes .R h.waEnd, .command .fcrc]

/-! ## EEPROM records (R206 to R211) -/

/-- An appointment (R206, R207); the year enters only the header packet (R216). -/
structure Appointment where
  /-- The two-digit year of its time (R216). -/
  year : Byte
  /-- Month. -/
  month : Byte
  /-- Day. -/
  day : Byte
  /-- Hour, 0..23 on a calendar. -/
  hour : Nat
  /-- Minute, 0..59 on a calendar. -/
  minute : Nat
  /-- The message. -/
  message : List Byte
deriving DecidableEq, Repr

/-- An anniversary (R206, R208). -/
structure Anniversary where
  /-- Month. -/
  month : Byte
  /-- Day. -/
  day : Byte
  /-- The label. -/
  label : List Byte
deriving DecidableEq, Repr

/-- A phone number (R206, R210); the tag is one character, a space by default. -/
structure PhoneNumber where
  /-- The name. -/
  name : List Byte
  /-- The number. -/
  number : List Byte
  /-- The type tag. -/
  typeTag : Byte := 0x20
deriving DecidableEq, Repr

/-- A list item (R206, R209). Only an item whose priority, if any, is 1 to 5 can be built: "a fatal precondition violation
at record construction, not at aggregation time" (R209). -/
structure ListItem where
  /-- The entry. -/
  entry : List Byte
  /-- The priority, if it has one. -/
  priority : Option Nat
  /-- The precondition. -/
  valid : ∀ p ∈ priority, 1 ≤ p ∧ p ≤ 5
deriving DecidableEq, Repr

/-- The host's construction of a list item, aborted on a priority outside 1 to 5 (R209, R211; 60_exceptions.md R244). -/
def ListItem.construct (entry : List Byte) : Option Nat → Option ListItem
  | none => some ⟨entry, none, nofun⟩
  | some p => if h : 1 ≤ p ∧ p ≤ 5 then some ⟨entry, some p, fun _ hq => Option.some.inj hq ▸ h⟩ else none

/-- The quarter hour of the day, `hour*4 + minute/15` (R207). -/
def quarterHour (hour minute : Nat) : Nat := hour * 4 + minute / 15

/-- qh as the byte of the record. R207 says that it is 0..95 for hour 0..23 and minute 0..59; for other values the model
refuses nothing and takes it modulo 256 (DESIGN CHOICE, notes/assumptions/12.md). -/
def Appointment.quarterHourByte (x : Appointment) : Byte := BitVec.ofNat 8 (quarterHour x.hour x.minute)

/-- The priority byte, 1 to 5, or 0 if none (R209). -/
def ListItem.priorityByte (x : ListItem) : Byte := BitVec.ofNat 8 (x.priority.getD 0)

/-- The text given to the phone pack: the number, one space, the type tag (R210). -/
def PhoneNumber.phoneText (x : PhoneNumber) : List Byte := x.number ++ [0x20, x.typeTag]

/-- R207; an hour above 23 or a minute above 59 as `quarterHourByte` says (the model's choice, notes/assumptions/12.md). -/
def Appointment.record (c : Cfg) (x : Appointment) : List Byte :=
  frameLen ([x.month, x.day, x.quarterHourByte] ++ pack6Bytes c x.message)

/-- R208. -/
def Anniversary.record (c : Cfg) (x : Anniversary) : List Byte :=
  frameLen ([x.month, x.day] ++ pack6Bytes c x.label)

/-- R209. -/
def ListItem.record (c : Cfg) (x : ListItem) : List Byte := frameLen ([x.priorityByte] ++ pack6Bytes c x.entry)

/-- R210. -/
def PhoneNumber.record (c : Cfg) (x : PhoneNumber) : List Byte :=
  frameLen (pack4Bytes c x.phoneText ++ pack6Bytes c x.name)

/-- An appointment on the block (R211). -/
def Appointment.lines (x : Appointment) : List AsmLine :=
  [.bytes .R [x.month, x.day, x.quarterHourByte], .text .T x.message, .command .pack6, .command .flen]

/-- An anniversary on the block (R211). -/
def Anniversary.lines (x : Anniversary) : List AsmLine :=
  [.bytes .R [x.month, x.day], .text .T x.label, .command .pack6, .command .flen]

/-- A list item on the block (R211); its priority was checked when it was built (`ListItem.construct`). -/
def ListItem.lines (x : ListItem) : List AsmLine :=
  [.bytes .R [x.priorityByte], .text .T x.entry, .command .pack6, .command .flen]

/-- A phone number on the block (R211). -/
def PhoneNumber.lines (x : PhoneNumber) : List AsmLine :=
  [.text .T x.number, .bytes .T [0x20, x.typeTag], .command .pack4, .text .T x.name, .command .pack6,
   .command .flen]

/-! ## The EEPROM aggregator (R212 to R221) -/

/-- The inputs of the aggregator (R212). -/
structure EepromData where
  /-- Appointments. -/
  appointments : List Appointment
  /-- List items. -/
  lists : List ListItem
  /-- Phone numbers. -/
  phones : List PhoneNumber
  /-- Anniversaries. -/
  anniversaries : List Anniversary
  /-- The notification lead-time in minutes, if any. -/
  leadTime : Option Nat
deriving DecidableEq, Repr

/-- The notification code: the index in 0/5/10/15/20/25/30, 0xFF when absent, nothing for another value (R212). -/
def notificationCode : Option Nat → Option Byte
  | none => some 0xFF
  | some m => (([0, 5, 10, 15, 20, 25, 30] : List Nat).idxOf? m).map (BitVec.ofNat 8)

/-- S0 to S3, "in fixed section order: appointments, lists, phone numbers, anniversaries" (R213). -/
def EepromData.sections (c : Cfg) (e : EepromData) : List (List Byte) :=
  [e.appointments.flatMap (Appointment.record c), e.lists.flatMap (ListItem.record c),
   e.phones.flatMap (PhoneNumber.record c), e.anniversaries.flatMap (Anniversary.record c)]

/-- Where each section starts, and last the end address: the running address from 0x0236 (R214). -/
def runningAddresses (start : Nat) : List (List Byte) → List Nat
  | [] => [start]
  | S :: rest => start :: runningAddresses (start + S.length) rest

/-- A0 to A3 (R214). -/
def EepromData.addresses (c : Cfg) (e : EepromData) : List Nat := (runningAddresses 0x0236 (e.sections c)).take 4

/-- `be16(v) = [v >> 8, v & 0xFF]` (R214, R217). -/
def be16 (v : Nat) : List Byte := [BitVec.ofNat 8 (v / 256), BitVec.ofNat 8 (v % 256)]

/-- The four section counts, in section order (R215). -/
def EepromData.counts (e : EepromData) : List Nat :=
  [e.appointments.length, e.lists.length, e.phones.length, e.anniversaries.length]

/-- "two-digit, min across all appointments; 0 if none" (R216). -/
def EepromData.earliestYear (e : EepromData) : Byte :=
  BitVec.ofNat 8 (((e.appointments.map (·.year.toNat)).min?).getD 0)

/-- The concatenated sections, `X = S0 ++ S1 ++ S2 ++ S3` (R213). -/
def EepromData.payload (c : Cfg) (e : EepromData) : List Byte := (e.sections c).flatten

/-- What the host must check before it sends anything: counts of at most 255 (R215), addresses that fit 16 bits (R214), and
an X that D holds and 255 chunks carry, `len(X) <= D_SIZE` and `n <= 255` (R220). Priorities were checked when the list
items were built (R209). -/
def EepromData.acceptable (c : Cfg) (e : EepromData) : Bool :=
  e.counts.all (· ≤ 255) && (runningAddresses 0x0236 (e.sections c)).all (· ≤ 0xFFFF) &&
  (e.payload c).length ≤ c.dSize && npk (e.payload c).length 32 ≤ 255

/-- The header packet's bytes after the opcode and the count: addresses, counts, year, notification code (R217). -/
def EepromData.headerTail (c : Cfg) (e : EepromData) (notif : Byte) : List Byte :=
  (e.addresses c).flatMap be16 ++ e.counts.map (BitVec.ofNat 8) ++ [e.earliestYear, notif]

/-- The packets of an EEPROM group (R217), none for data the host must refuse (R212, R214, R215, R220) and none for opcode
bytes that leave no room in a frame (the model's choice, notes/assumptions/12.md). -/
def eepromPackets (h : HostConstants) (c : Cfg) (e : EepromData) : Option (List (List Byte)) :=
  if e.acceptable c then
    (notificationCode e.leadTime).bind fun notif =>
      groupPackets [h.eeClear, h.eeHdr ++ [BitVec.ofNat 8 (npk (e.payload c).length 32)] ++ e.headerTail c notif]
        h.eeData 32 (e.payload c) h.eeEnd
  else none

/-- The aggregator on the block, from a state with T, R and D empty (R220). The host takes the addresses from its
readings of DLEN; here they stand as the numbers those readings give. -/
def eepromLines (h : HostConstants) (c : Cfg) (e : EepromData) : Option (List AsmLine) :=
  if e.acceptable c then
    (notificationCode e.leadTime).map fun notif =>
      [.bytes .R h.eeClear, .command .fcrc] ++
      e.appointments.flatMap Appointment.lines ++ [.rd .dlen] ++
      e.lists.flatMap ListItem.lines ++ [.rd .dlen] ++
      e.phones.flatMap PhoneNumber.lines ++ [.rd .dlen] ++
      e.anniversaries.flatMap Anniversary.lines ++
      [.bytes .R h.eeHdr, .command (.pcnt 32)] ++
      (e.addresses c).map (fun A => .putw .R (BitVec.ofNat 16 A)) ++
      [.bytes .R (e.counts.map (BitVec.ofNat 8)), .bytes .R [e.earliestYear], .bytes .R [notif], .command .fcrc,
       .command (.pagef h.eeData.1 h.eeData.2 32), .bytes .R h.eeEnd, .command .fcrc]
  else none

/-! ## The Session (R222 to R225) -/

/-- A session: "an ordered, append-only sequence" of device commands, each given by its lines; the order is the
caller's and nothing enforces it (R222, R223). A command that the host refused, `none`, leaves nothing of the session to
send: "must abort before any packet is emitted" (R225; R209). -/
def sessionLines (commands : List (Option (List AsmLine))) : Option (List AsmLine) :=
  if commands.all Option.isSome then some (commands.filterMap id).flatten else none

/-- The session order a device expects, "Sync and Start first and End last" (R223): a documented precondition of the
caller, not a check of the block. -/
def expectedSession (n : Nat) (commands : List (Option (List AsmLine))) : Option (List AsmLine) :=
  sessionLines ([some [.command (.gsync n)], some [.command .gstart]] ++ commands ++ [some [.command .gend]])

end Sys2Proof.Machine
end

