-- ==== Sys2Proof/Safety.lean ====
section
/-! DEFINITION. What counts as a safe state and a safe run: the invariant of 10_state.md R41 with the code rules of
60_exceptions.md R241, and the accesses that never stop the machine (20_memory.md R59). -/

namespace Sys2Proof.Machine

/-- "if O is not empty its last entry has `eop = 1`" (10_state.md R41). -/
def endsPacket (q : List Entry) : Prop := ∀ e, q.getLast? = some e → e.eop = true

/-- The invariant of every reachable state (10_state.md R41), and which codes ERR and CAUSE can hold (60_exceptions.md
R241). -/
structure State.Inv (c : Cfg) (s : State) : Prop where
  /-- `len(T) <= T_SIZE`. -/
  tFits : s.T.length ≤ c.tSize
  /-- `len(R) <= R_SIZE`. -/
  rFits : s.R.length ≤ c.rSize
  /-- `len(D) <= D_SIZE`. -/
  dFits : s.D.length ≤ c.dSize
  /-- `len(O) <= O_SIZE`. -/
  oFits : s.O.length ≤ c.oSize
  /-- O ends with a whole packet. -/
  oEnds : endsPacket s.O
  /-- `CAUSE = 0` if and only if `FAULT = 0`. -/
  causeIff : s.CAUSE = 0 ↔ s.FAULT = false
  /-- If `FAULT = 1` then T, R, D and O are all empty. -/
  faultEmpty : s.FAULT = true → s.T = [] ∧ s.R = [] ∧ s.D = [] ∧ s.O = []
  /-- CAUSE is 0 or a cause the block raises. -/
  causeCode : s.CAUSE = 0 ∨ s.CAUSE = 0x80 ∨ s.CAUSE = 0x81
  /-- ERR is one of 0x00 to 0x08 or, after a fatal fault, the cause code. -/
  errCode : s.ERR.toNat ≤ 8 ∨ (s.FAULT = true ∧ s.ERR = s.CAUSE)
  /-- In the fault state ERR is the cause or `E_FAULTED` (60_exceptions.md R247, R250). -/
  faultErr : s.FAULT = true → s.ERR = s.CAUSE ∨ s.ERR = 0x08

/-- Every value ERR can hold after a command that ran: 0, and the codes of the command's row of 60_exceptions.md R248. -/
def outcomeCodes : Instr → List Byte
  | .nop => [0x00]
  | .putb _ _ => [0x00, 0x06]
  | .setp _ _ => [0x00]
  | .clrb _ => [0x00]
  | .enc _ _ _ => [0x00, 0x06]
  | .pack6 => [0x00, 0x06]
  | .pack4 => [0x00, 0x06]
  | .fcrc => [0x00, 0x04, 0x07]
  | .flen => [0x00, 0x04, 0x06]
  | .emit => [0x00, 0x03, 0x07]
  | .page _ _ _ => [0x00, 0x02, 0x05, 0x07]
  | .pagef _ _ _ => [0x00, 0x02, 0x04, 0x05, 0x07]
  | .pcnt _ => [0x00, 0x02, 0x05, 0x06]
  | .gsync _ => [0x00, 0x07]
  | .gstart => [0x00, 0x07]
  | .gend => [0x00, 0x07]
  | .gtime _ => [0x00, 0x80, 0x02, 0x07]
  | .galarm _ _ => [0x00, 0x81, 0x07]
  | .gsndopt => [0x00, 0x07]

/-- Every waiting access is one the spec defines: 32 bits wide and 4-byte aligned (20_memory.md R54, R59). -/
def State.onlyDefinedAccesses (s : State) : Prop := ∀ a ∈ s.accesses, a.defined = true

/-- A run is safe for `k` steps: it does not stop, and every state it reaches meets the invariant. -/
def SafeFor (k : Nat) (s : State) : Prop :=
  ∀ j ≤ k, ∃ t, Host.Core.run Sys2Proof.core j s = .next t ∧ t.Inv Config.cfg

end Sys2Proof.Machine
end

