-- ==== Sys2Proof/Certificates/Slice0/Obligations.lean ====
section
/-! DEFINITION. The statements about the DLF block, from the numbered rules of spec/. In every statement about one
command `s.FAULT = false` is the only condition under which the command runs (40_buffer_ops.md R100); what the fault
state does to every command is a statement of its own. `accesses` and `rdata` are the model's own fields
(notes/assumptions/3.md, notes/assumptions/4.md); the CRC's parameters are those of 42_framers.md R131
(notes/assumptions/8.md). -/

open Sys2Proof Sys2Proof.Machine

/-! ## The command word -/

/-- No operand of any command is lost in its word: decoding the encoded word of a well-formed instruction gives the
instruction back, for every operand value the formats of 30_encoding.md R71 to R78 admit. -/
def Obligations.DecodeOfEncodeIsTheInstruction : Prop :=
  ∀ i : Instr, i.WellFormed → decode (encode i) = .ok i

/-- Each legal word has one meaning and each command one word: a word that decodes is the encoding of what it decodes to,
so no bit of it is ignored (30_encoding.md R84). -/
def Obligations.LegalWordIsEncodingOfItsInstruction : Prop :=
  ∀ (w : Word) (i : Instr), decode w = .ok i → i.WellFormed ∧ encode i = w

/-- 30_encoding.md R79: "a word w encodes the command exactly when `(w & mask) = match` and the extra condition, if any,
holds"; and a word that meets no row of the table is no command. -/
def Obligations.DecoderAgreesWithOpcodeTable : Prop :=
  (∀ row ∈ opcodeTable, ∀ w : Word, row.accepts w = true ↔ ∃ i, decode w = .ok i ∧ i.mnemonic = row.mnemonic) ∧
  (∀ w : Word, (∀ row ∈ opcodeTable, row.accepts w = false) → ∃ e, decode w = .error e)

/-- The encoder computes the sums of the column "word" of 30_encoding.md R86. -/
def Obligations.EncodedWordIsAssemblerSum : Prop :=
  ∀ i : Instr, i.WellFormed → (encode i).toNat = asmWord i

/-- The worked encodings of 30_encoding.md R88, each read by the decoder and made by the encoder. -/
def Obligations.WorkedEncodingsDecode : Prop :=
  ∀ p ∈ ([(0x00000000, .nop), (0x01000068, .putb .T 0x68), (0x010200FF, .putb .D 0xFF), (0x02070006, .setp 7 6),
      (0x03000003, .clrb 0b0011), (0x1004000A, .enc .std 10 true), (0x1003000C, .enc .phn 12 false)] ++
     [(0x31910120, .pagef 0x91 0x01 32), (0x32000020, .pcnt 32), (0x4000012C, .gsync 300),
      (0x40000096, .gsync 150), (0x43000000, .gtime .std), (0x44050000, .galarm .alt true)] : List (Word × Instr)),
    decode p.1 = .ok p.2 ∧ encode p.2 = p.1

/-! ## The execution envelope -/

/-- A step that serves a write to CMD whose word decodes to `i` is `exec i` in the state without that access; and
`withFetchWord` makes the very next step do so (20_memory.md R58, 40_buffer_ops.md R100; that the waiting accesses stand
in State is the model's choice, notes/assumptions/3.md). -/
def Obligations.StepExecutesTheDecodedCommand : Prop :=
  (∀ (s : State) (w : Word) (rest : List Access) (i : Instr),
    s.accesses = .write 0x00 32 w :: rest → decode w = .ok i → step s = exec i { s with accesses := rest }) ∧
  (∀ (s : State) (w : Word) (i : Instr), decode w = .ok i → step (s.withFetchWord 32 w.toNat) = exec i s)

/-- 60_exceptions.md R242: an illegal word is rejected with `E_ILLCMD`; nothing but ERR changes, and no fault is
raised. -/
def Obligations.IllegalWordIsRejected : Prop :=
  ∀ (s : State) (w : Word) (rest : List Access) (e : Illegal),
    s.FAULT = false → s.accesses = .write 0x00 32 w :: rest → decode w = .error e →
    step s = .next { s with accesses := rest, ERR := 0x01 }

/-- 60_exceptions.md R247: while `FAULT = 1` every write to CMD, legal or illegal, is rejected with `E_FAULTED`; CAUSE
and everything else stay. -/
def Obligations.FaultStateRejectsEveryCommand : Prop :=
  (∀ (s : State) (w : Word) (rest : List Access),
    s.FAULT = true → s.accesses = .write 0x00 32 w :: rest → step s = .next { s with accesses := rest, ERR := 0x08 }) ∧
  (∀ (s : State) (i : Instr), s.FAULT = true → exec i s = .next { s with ERR := 0x08 })

/-- 60_exceptions.md R246: a command that ends with a non-zero ERR and no fault entry has changed nothing but ERR. -/
def Obligations.RejectionChangesOnlyErr : Prop :=
  ∀ (i : Instr) (s t : State), exec i s = .next t → t.FAULT = s.FAULT → t.ERR ≠ 0 → t = { s with ERR := t.ERR }

/-- The table of 60_exceptions.md R248: after a command that ran, ERR is 0 or one of the codes of the command's row
(`outcomeCodes`). -/
def Obligations.CommandsRaiseOnlyTheirCodes : Prop :=
  ∀ (i : Instr) (s t : State), s.FAULT = false → exec i s = .next t → t.ERR ∈ outcomeCodes i

/-- Only GTIME and GALARM raise a fatal fault, exactly on the preconditions of 60_exceptions.md R244: a zone that is not
1 or 2, an alarm number that is not 1 to 5. -/
def Obligations.FatalFaultExactlyOnBadZoneOrAlarm : Prop :=
  ∀ (i : Instr) (s t : State), s.FAULT = false → exec i s = .next t →
    (t.FAULT = true ↔
      (∃ alpha, i = .gtime alpha ∧ (s.reg 0).toNat ≠ 1 ∧ (s.reg 0).toNat ≠ 2) ∨
      (∃ alpha pad, i = .galarm alpha pad ∧ ¬(1 ≤ (s.reg 0).toNat ∧ (s.reg 0).toNat ≤ 5)))

/-- 60_exceptions.md R250: fatal fault entry latches the cause, sets ERR to it and discards T, R, D and O; P and NPKT are
unchanged. -/
def Obligations.FatalFaultEntryDiscardsAllWork : Prop :=
  (∀ (s : State) (alpha : Alphabet), s.FAULT = false → (s.reg 0).toNat ≠ 1 → (s.reg 0).toNat ≠ 2 →
    exec (.gtime alpha) s =
      .next { s with FAULT := true, CAUSE := 0x80, ERR := 0x80, T := [], R := [], D := [], O := [] }) ∧
  (∀ (s : State) (alpha : Alphabet) (pad : Bool), s.FAULT = false → ¬(1 ≤ (s.reg 0).toNat ∧ (s.reg 0).toNat ≤ 5) →
    exec (.galarm alpha pad) s =
      .next { s with FAULT := true, CAUSE := 0x81, ERR := 0x81, T := [], R := [], D := [], O := [] })

/-- 60_exceptions.md R252: exactly a hardware reset and a write of CTRL with `SRST = 1` clear FAULT, and both clear P. -/
def Obligations.FaultStateIsLeftOnlyByReset : Prop :=
  ∀ s t : State, s.FAULT = true → step s = .next t →
    (t.FAULT = false ↔
      (∃ rest, s.accesses = .reset :: rest) ∨
      ∃ v rest, s.accesses = .write 0x2C 32 v :: rest ∧ v.getLsbD 0 = true) ∧
    (t.FAULT = false → t.P = Vector.replicate 16 0)

/-- Whatever is served, the parameter registers change only when the access is a reset, a soft reset or a SETP command
(10_state.md R22). -/
def Obligations.ParameterRegistersChangeOnlyBySetpOrReset : Prop :=
  ∀ s t : State, step s = .next t → t.P ≠ s.P →
    (∃ rest, s.accesses = .reset :: rest) ∨
    (∃ v rest, s.accesses = .write 0x2C 32 v :: rest ∧ v.getLsbD 0 = true) ∨
    (∃ w rest idx imm8, s.accesses = .write 0x00 32 w :: rest ∧ decode w = .ok (.setp idx imm8))

/-- A command leaves O as it is, empties it, or appends whole non-empty packets at its end: order is never changed and no
packet is split (20_memory.md R53, 10_state.md R38). -/
def Obligations.OutputGrowsByWholePackets : Prop :=
  ∀ (i : Instr) (s t : State), exec i s = .next t →
    t.O = s.O ∨ t.O = [] ∨ ∃ ps : List (List Byte), (∀ p ∈ ps, p ≠ []) ∧ t.O = s.O ++ ps.flatMap entries

/-! ## The plumbing commands -/

/-- 40_buffer_ops.md R102: NOP writes `ERR <- 0` and nothing else. -/
def Obligations.NopOnlyClearsErr : Prop :=
  ∀ s : State, s.FAULT = false → exec .nop s = .next { s with ERR := 0 }

/-- 40_buffer_ops.md R103: PUTB appends its byte to the named buffer, or is rejected with `E_BUFFULL` when it is full.
The capacities are 00_scope.md R8's (notes/assumptions/2.md). -/
def Obligations.PutbAppendsOrRejects : Prop :=
  ∀ (v : Byte) (s : State), s.FAULT = false →
    (s.T.length + 1 ≤ 256 → exec (.putb .T v) s = .next { s with T := s.T ++ [v], ERR := 0 }) ∧
    (s.R.length + 1 ≤ 256 → exec (.putb .R v) s = .next { s with R := s.R ++ [v], ERR := 0 }) ∧
    (s.D.length + 1 ≤ 65536 → exec (.putb .D v) s = .next { s with D := s.D ++ [v], ERR := 0 }) ∧
    (256 < s.T.length + 1 → exec (.putb .T v) s = .next { s with ERR := 0x06 }) ∧
    (256 < s.R.length + 1 → exec (.putb .R v) s = .next { s with ERR := 0x06 }) ∧
    (65536 < s.D.length + 1 → exec (.putb .D v) s = .next { s with ERR := 0x06 })

/-- 40_buffer_ops.md R104: SETP writes the named register, whatever the value, and no other. -/
def Obligations.SetpWritesOneRegister : Prop :=
  ∀ (idx : Fin 16) (v : Byte) (s : State), s.FAULT = false →
    ∃ t, exec (.setp idx v) s = .next t ∧ (∀ j : Fin 16, t.reg j = if j = idx then v else s.reg j) ∧
      t = { s with P := t.P, ERR := 0 }

/-- 40_buffer_ops.md R105: CLRB empties exactly the selected ones of T, R, D, O. -/
def Obligations.ClrbEmptiesSelectedBuffers : Prop :=
  ∀ (mask : BitVec 4) (s : State), s.FAULT = false →
    exec (.clrb mask) s = .next { s with
      T := if mask.getLsbD 0 then [] else s.T, R := if mask.getLsbD 1 then [] else s.R
      D := if mask.getLsbD 2 then [] else s.D, O := if mask.getLsbD 3 then [] else s.O, ERR := 0 }

/-! ## The character encoder and the pack engine -/

/-- 41_char_encoder.md R113, position by position: the result has `min(len(X), n)` codes, or n if padded; each is the code
of the lower-cased character at its place, the padding is the space code. The last clause gives `lower` in the numbers of
41_char_encoder.md R111, `A` to `Z` to `a` to `z` and nothing else, which the spec marks as general knowledge
(notes/assumptions/8.md). -/
def Obligations.EncodeIsCharacterwise : Prop :=
  (∀ (A X : List Byte) (n : Nat) (pad : Bool),
    (encodeText A X n pad).length = (if pad then n else min X.length n) ∧
    (∀ (j : Nat) (x : Byte), j < n → X[j]? = some x → (encodeText A X n pad)[j]? = some (code A (lower x))) ∧
    (∀ j : Nat, pad = true → X.length ≤ j → j < n → (encodeText A X n pad)[j]? = some (code A 0x20))) ∧
  (∀ b : Byte,
    (0x41 ≤ b.toNat → b.toNat ≤ 0x5A → (lower b).toNat = b.toNat + 0x20) ∧
    (b.toNat < 0x41 ∨ 0x5A < b.toNat → lower b = b))

/-- 41_char_encoder.md R112: a symbol's code is its 0-based position, every other byte's code is the space's position. -/
def Obligations.CodeIsPositionOrSpace : Prop :=
  ∀ A : List Byte, ValidAlphabet A → ∀ b : Byte,
    (code A b).toNat < A.length ∧
    (∀ j : Nat, A[j]? = some b → (code A b).toNat = j) ∧
    (b ∉ A → ∀ j : Nat, A[j]? = some 0x20 → (code A b).toNat = j)

/-- The alphabet that each selector names (30_encoding.md R77). -/
def Sys2Proof.Machine.selectedAlphabets : List (Alphabet × List Byte) :=
  [(.std, Config.cfg.alphaStd), (.alt, Config.cfg.alphaAlt), (.eep, Config.cfg.alphaEep), (.phn, Config.cfg.alphaPhn)]

/-- 41_char_encoder.md R114: ENC appends the codes of T, in the alphabet that the selector names, to R and empties T,
or is rejected with `E_BUFFULL`. The capacity is 00_scope.md R8's (notes/assumptions/2.md). -/
def Obligations.EncAppendsCodesToRecord : Prop :=
  ∀ (alpha : Alphabet) (A : List Byte) (maxlen : Nat) (pad : Bool) (s : State),
    (alpha, A) ∈ selectedAlphabets → s.FAULT = false →
    (s.R.length + (encodeText A s.T maxlen pad).length ≤ 256 →
      exec (.enc alpha maxlen pad) s = .next { s with R := s.R ++ encodeText A s.T maxlen pad, T := [], ERR := 0 }) ∧
    (256 < s.R.length + (encodeText A s.T maxlen pad).length →
      exec (.enc alpha maxlen pad) s = .next { s with ERR := 0x06 })

/-- 41_char_encoder.md R117: the accumulator is the sum of `C[i] << (w*i)`; a zero one gives `PACK_ZERO_LEN` zero bytes,
any other its bytes from the least significant up, in the least number m of bytes with `V < 2^(8m)`. -/
def Obligations.PackSerialisesTheAccumulator : Prop :=
  ∀ (z w : Nat) (C : List Byte),
    let V := ∑ j ∈ Finset.range C.length, (C.getD j 0).toNat <<< (w * j)
    (V = 0 → pack z w C = List.replicate z 0) ∧
    (V ≠ 0 →
      V < 2 ^ (8 * (pack z w C).length) ∧
      (∀ m : Nat, V < 2 ^ (8 * m) → (pack z w C).length ≤ m) ∧
      (∀ j < (pack z w C).length, ((pack z w C)[j]?.map (·.toNat)) = some (V >>> (8 * j) &&& 0xFF)))

/-- What 41_char_encoder.md R118 derives from R117: codes keep their bits at `w*i`; the last byte is not 0 unless the
accumulator is; trailing 0 codes leave no trace; the length; and the codes of both pack commands fit their lanes. -/
def Obligations.PackKeepsCodesApart : Prop :=
  (∀ (w : Nat) (C : List Byte), (∀ c ∈ C, c.toNat < 2 ^ w) → ∀ (j : Nat) (c : Byte), C[j]? = some c → ∀ k < w,
    (packValue w C).testBit (w * j + k) = c.toNat.testBit k) ∧
  (∀ (z w : Nat) (C : List Byte), packValue w C ≠ 0 → ∀ b, (pack z w C).getLast? = some b → b ≠ 0) ∧
  (∀ (z w : Nat) (C : List Byte), pack z w (C ++ [0]) = pack z w C) ∧
  (∀ (z w : Nat) (C : List Byte) (c : Byte), (∀ c' ∈ C ++ [c], c'.toNat < 2 ^ w) → c ≠ 0 →
    (pack z w (C ++ [c])).length = (w * C.length + c.toNat.size + 7) / 8) ∧
  (∀ X : List Byte, ∀ c ∈ encodeText Config.cfg.alphaEep X 31 false ++ [Config.cfg.kTerm], c.toNat < 2 ^ 6) ∧
  (∀ X : List Byte, ∀ c ∈ encodeText Config.cfg.alphaPhn X 12 false, c.toNat < 2 ^ 4)

/-- 41_char_encoder.md R119: PACK6 appends the packed text with its terminator to R and empties T, or is rejected with
`E_BUFFULL`. The capacity is 00_scope.md R8's (notes/assumptions/2.md). -/
def Obligations.Pack6AppendsTerminatedText : Prop :=
  ∀ s : State, s.FAULT = false →
    let Y := pack Config.cfg.packZeroLen 6 (encodeText Config.cfg.alphaEep s.T 31 false ++ [Config.cfg.kTerm])
    (s.R.length + Y.length ≤ 256 → exec .pack6 s = .next { s with R := s.R ++ Y, T := [], ERR := 0 }) ∧
    (256 < s.R.length + Y.length → exec .pack6 s = .next { s with ERR := 0x06 })

/-- 41_char_encoder.md R122: PACK4 appends the packed text to R and empties T, or is rejected with `E_BUFFULL`. The
capacity is 00_scope.md R8's (notes/assumptions/2.md). -/
def Obligations.Pack4AppendsPhoneText : Prop :=
  ∀ s : State, s.FAULT = false →
    let Y := pack Config.cfg.packZeroLen 4 (encodeText Config.cfg.alphaPhn s.T 12 false)
    (s.R.length + Y.length ≤ 256 → exec .pack4 s = .next { s with R := s.R ++ Y, T := [], ERR := 0 }) ∧
    (256 < s.R.length + Y.length → exec .pack4 s = .next { s with ERR := 0x06 })

/-- The length of a PACK6 result, 41_char_encoder.md R120: `ceil((6n + bitlength(K_TERM)) / 8)` for n characters, and
never more than 24 bytes. -/
def Obligations.Pack6LengthFromTerminator : Prop :=
  ∀ X : List Byte,
    (pack6Bytes Config.cfg X).length = (6 * min X.length 31 + Config.cfg.kTerm.toNat.size + 7) / 8 ∧
    (pack6Bytes Config.cfg X).length ≤ 24

/-- 41_char_encoder.md R121: two texts pack to the same bytes exactly when their normal forms agree; the normal form is
the text lower-cased, cut to 31 characters, every character outside `ALPHA[2]` replaced by a space. (`lower` is given
in numbers in `EncodeIsCharacterwise`; notes/assumptions/8.md.) -/
def Obligations.Pack6EqualExactlyForEqualNormalForms : Prop :=
  ∀ X₁ X₂ : List Byte,
    pack6Bytes Config.cfg X₁ = pack6Bytes Config.cfg X₂ ↔
    ((X₁.map lower).take 31).map (fun b => if b ∈ Config.cfg.alphaEep then b else 0x20) =
    ((X₂.map lower).take 31).map (fun b => if b ∈ Config.cfg.alphaEep then b else 0x20)

/-! ## The framers -/

/-- The table-driven form of 42_framers.md R132 gives the same register as the bit-serial form of R131, and the table has
the spot values the rule prints. The values rest on the CRC's parameters (notes/assumptions/8.md). -/
def Obligations.CrcTableFormAgrees : Prop :=
  (∀ X : List Byte,
    X.foldl (fun (crc : Half) (x : Byte) => (crc >>> 8) ^^^ crc16 [(crc ^^^ x.setWidth 16).extractLsb' 0 8]) 0 = crc16 X) ∧
  crc16 [0] = 0x0000 ∧ crc16 [1] = 0xC0C1 ∧ crc16 [2] = 0xC181 ∧ crc16 [3] = 0x0140 ∧ crc16 [4] = 0xC301 ∧
  crc16 [128] = 0xA001 ∧ crc16 [255] = 0x4040

/-- 42_framers.md R133 and R134: a checksum frame of at most 252 bytes starts with its own total length, then carries the
payload, then the CRC of both, low byte first; and the CRC over the whole frame is 0. That last clause rests on the CRC's
parameters (notes/assumptions/8.md). -/
def Obligations.FrameIsSelfDescribingAndChecks : Prop :=
  ∀ X : List Byte, X.length ≤ 252 →
    ∃ h lo hi : Byte, frame X = [h] ++ X ++ [lo, hi] ∧ h.toNat = (frame X).length ∧ (frame X).length = X.length + 3 ∧
      lo.toNat = (crc16 ([h] ++ X)).toNat % 256 ∧ hi.toNat = (crc16 ([h] ++ X)).toNat / 256 ∧
      crc16 (frame X) = 0

/-- 42_framers.md R135: FCRC frames R into O and empties R; a payload above 252 bytes is rejected with `E_FRAMELEN`, a
full queue with `E_OFULL`. The capacity is 00_scope.md R8's (notes/assumptions/2.md). -/
def Obligations.FcrcFramesTheRecord : Prop :=
  ∀ s : State, s.FAULT = false →
    (s.R.length ≤ 252 → s.O.length + (s.R.length + 3) ≤ 131072 →
      exec .fcrc s = .next { s with O := s.O ++ entries (frame s.R), R := [], ERR := 0 }) ∧
    (252 < s.R.length → exec .fcrc s = .next { s with ERR := 0x04 }) ∧
    (s.R.length ≤ 252 → 131072 < s.O.length + (s.R.length + 3) → exec .fcrc s = .next { s with ERR := 0x07 })

/-- 42_framers.md R139: FLEN length-frames R into D and empties R; content above 254 bytes is rejected with
`E_FRAMELEN`, a full D with `E_BUFFULL`. The capacity is 00_scope.md R8's (notes/assumptions/2.md). -/
def Obligations.FlenFramesTheRecordIntoData : Prop :=
  ∀ s : State, s.FAULT = false →
    (s.R.length ≤ 254 → s.D.length + s.R.length + 1 ≤ 65536 →
      exec .flen s = .next { s with
        D := s.D ++ [BitVec.ofNat 8 (s.R.length + 1)] ++ s.R, R := [], ERR := 0 }) ∧
    (254 < s.R.length → exec .flen s = .next { s with ERR := 0x04 }) ∧
    (s.R.length ≤ 254 → 65536 < s.D.length + s.R.length + 1 → exec .flen s = .next { s with ERR := 0x06 })

/-- 42_framers.md R140: EMIT moves R to O as one unframed packet; an empty R is rejected with `E_EMPTY`, a full queue
with `E_OFULL`. The capacity is 00_scope.md R8's (notes/assumptions/2.md). -/
def Obligations.EmitMovesTheRecordUnframed : Prop :=
  ∀ s : State, s.FAULT = false →
    (s.R ≠ [] → s.O.length + s.R.length ≤ 131072 →
      exec .emit s = .next { s with O := s.O ++ entries s.R, R := [], ERR := 0 }) ∧
    (s.R = [] → exec .emit s = .next { s with ERR := 0x03 }) ∧
    (s.R ≠ [] → 131072 < s.O.length + s.R.length → exec .emit s = .next { s with ERR := 0x07 })

/-! ## The paginator -/

/-- 43_paginator.md R150: for `cs >= 1`, `npk(L, cs)` is the least number of chunks, but never less than one, that L
bytes split into. The last clause, one packet for no data, is the spec's own reading (notes/assumptions/8.md). -/
def Obligations.PacketCountIsTheCeiling : Prop :=
  ∀ L cs : Nat, 1 ≤ cs →
    1 ≤ npk L cs ∧ L ≤ npk L cs * cs ∧ (∀ m : Nat, 1 ≤ m → L ≤ m * cs → npk L cs ≤ m) ∧
    (L = 0 → npk L cs = 1)

/-- The properties of 43_paginator.md R153: the chunks reconstruct the data, the indices are 1, 2, 3, ... with no gaps,
every chunk but the last is full, and the packets have `3*n + len(X)` bytes together. -/
def Obligations.PaginationReconstructsTheData : Prop :=
  ∀ (h0 h1 : Byte) (cs : Nat) (X : List Byte), 1 ≤ cs → npk X.length cs ≤ 255 →
    ((paginate h0 h1 cs X).map (·.drop 3)).flatten = X ∧
    (paginate h0 h1 cs X).length = npk X.length cs ∧
    (∀ (j : Nat) (p : List Byte), (paginate h0 h1 cs X)[j]? = some p →
      ∃ i : Byte, p.take 3 = [h0, h1, i] ∧ i.toNat = j + 1 ∧ p.length ≤ 3 + cs ∧
        (j + 1 < npk X.length cs → p.length = 3 + cs)) ∧
    (paginate h0 h1 cs X).flatten.length = 3 * npk X.length cs + X.length

/-- 43_paginator.md R155: PAGE emits the packets of D in index order, empties D and records their number, or is
rejected with `E_PARAM`, `E_PAGECNT` or `E_OFULL`. The capacity is 00_scope.md R8's (notes/assumptions/2.md). -/
def Obligations.PageEmitsThePackets : Prop :=
  ∀ (h0 h1 : Byte) (cs : Nat) (s : State), s.FAULT = false →
    (cs = 0 → exec (.page h0 h1 cs) s = .next { s with ERR := 0x02 }) ∧
    (1 ≤ cs → 255 < npk s.D.length cs → exec (.page h0 h1 cs) s = .next { s with ERR := 0x05 }) ∧
    (1 ≤ cs → npk s.D.length cs ≤ 255 → 131072 < s.O.length + 3 * npk s.D.length cs + s.D.length →
      exec (.page h0 h1 cs) s = .next { s with ERR := 0x07 }) ∧
    (1 ≤ cs → npk s.D.length cs ≤ 255 → s.O.length + 3 * npk s.D.length cs + s.D.length ≤ 131072 →
      exec (.page h0 h1 cs) s = .next { s with
        O := s.O ++ (paginate h0 h1 cs s.D).flatMap entries, D := [], NPKT := BitVec.ofNat 8 (npk s.D.length cs),
        ERR := 0 })

/-- 43_paginator.md R156: PAGEF emits the packets of D each in its own checksum frame, empties D and records their
number, or is rejected with `E_PARAM`, `E_FRAMELEN`, `E_PAGECNT` or `E_OFULL`, in that order. The capacity is
00_scope.md R8's (notes/assumptions/2.md). -/
def Obligations.PagefEmitsFramedPackets : Prop :=
  ∀ (h0 h1 : Byte) (cs : Nat) (s : State), s.FAULT = false →
    (cs = 0 → exec (.pagef h0 h1 cs) s = .next { s with ERR := 0x02 }) ∧
    (1 ≤ cs → 252 < min cs s.D.length + 3 → exec (.pagef h0 h1 cs) s = .next { s with ERR := 0x04 }) ∧
    (1 ≤ cs → min cs s.D.length + 3 ≤ 252 → 255 < npk s.D.length cs →
      exec (.pagef h0 h1 cs) s = .next { s with ERR := 0x05 }) ∧
    (1 ≤ cs → min cs s.D.length + 3 ≤ 252 → npk s.D.length cs ≤ 255 →
      131072 < s.O.length + 6 * npk s.D.length cs + s.D.length →
      exec (.pagef h0 h1 cs) s = .next { s with ERR := 0x07 }) ∧
    (1 ≤ cs → min cs s.D.length + 3 ≤ 252 → npk s.D.length cs ≤ 255 →
      s.O.length + 6 * npk s.D.length cs + s.D.length ≤ 131072 →
      exec (.pagef h0 h1 cs) s = .next { s with
        O := s.O ++ ((paginate h0 h1 cs s.D).map frame).flatMap entries, D := [],
        NPKT := BitVec.ofNat 8 (npk s.D.length cs), ERR := 0 })

/-- 43_paginator.md R157: PCNT appends the packet count of D to R and records it, D unchanged, or is rejected with
`E_PARAM`, `E_PAGECNT` or `E_BUFFULL`. The capacity is 00_scope.md R8's (notes/assumptions/2.md). -/
def Obligations.PcntAppendsTheCount : Prop :=
  ∀ (cs : Nat) (s : State), s.FAULT = false →
    (cs = 0 → exec (.pcnt cs) s = .next { s with ERR := 0x02 }) ∧
    (1 ≤ cs → 255 < npk s.D.length cs → exec (.pcnt cs) s = .next { s with ERR := 0x05 }) ∧
    (1 ≤ cs → npk s.D.length cs ≤ 255 → 256 < s.R.length + 1 → exec (.pcnt cs) s = .next { s with ERR := 0x06 }) ∧
    (1 ≤ cs → npk s.D.length cs ≤ 255 → s.R.length + 1 ≤ 256 →
      exec (.pcnt cs) s = .next { s with
        R := s.R ++ [BitVec.ofNat 8 (npk s.D.length cs)], NPKT := BitVec.ofNat 8 (npk s.D.length cs), ERR := 0 })

/-- The consistency of 43_paginator.md R158: once PCNT has completed with a count, a later PAGE or PAGEF with the same cs
and the same D emits exactly that many packets or is rejected. -/
def Obligations.PcntAgreesWithLaterPagination : Prop :=
  ∀ (cs : Nat) (s t u v : State) (h0 h1 : Byte) (i : Instr),
    s.FAULT = false → exec (.pcnt cs) s = .next t → t.ERR = 0 → u.D = t.D → (i = .page h0 h1 cs ∨ i = .pagef h0 h1 cs) →
    exec i u = .next v →
    (v.ERR ≠ 0 ∧ v = { u with ERR := v.ERR }) ∨
    (v.ERR = 0 ∧ v.NPKT = t.NPKT ∧ v.opkts = u.opkts + t.NPKT.toNat ∧ t.R = s.R ++ [t.NPKT])

/-! ## The generators -/

/-- 44_generators.md R172: GSYNC emits the unframed Sync packet of `n + 41` bytes, or is rejected with `E_OFULL`. The
capacity of O and the 40 sync-2 bytes are 00_scope.md R8's (notes/assumptions/2.md). -/
def Obligations.GsyncEmitsTheRun : Prop :=
  ∀ (n : Nat) (s : State), s.FAULT = false →
    (s.O.length + (n + 41) ≤ 131072 →
      exec (.gsync n) s = .next { s with
        O := s.O ++ entries ([Config.cfg.kPing] ++ List.replicate n Config.cfg.kSync1 ++
          List.replicate 40 Config.cfg.kSync2), ERR := 0 }) ∧
    (131072 < s.O.length + (n + 41) → exec (.gsync n) s = .next { s with ERR := 0x07 })

/-- 44_generators.md R175: GSTART emits `07 20 00 00 04 BF C3`, or is rejected with `E_OFULL`. The two CRC bytes rest
on the CRC's parameters (notes/assumptions/8.md). The capacity is 00_scope.md R8's (notes/assumptions/2.md). -/
def Obligations.GstartEmitsTheStartPacket : Prop :=
  ∀ s : State, s.FAULT = false →
    (s.O.length + 7 ≤ 131072 →
      exec .gstart s = .next { s with O := s.O ++ entries [0x07, 0x20, 0x00, 0x00, 0x04, 0xBF, 0xC3], ERR := 0 }) ∧
    (131072 < s.O.length + 7 → exec .gstart s = .next { s with ERR := 0x07 })

/-- 44_generators.md R177: GEND emits `04 21 C2 D8`, or is rejected with `E_OFULL`. The two CRC bytes rest on the CRC's
parameters (notes/assumptions/8.md). The capacity is 00_scope.md R8's (notes/assumptions/2.md). -/
def Obligations.GendEmitsTheEndPacket : Prop :=
  ∀ s : State, s.FAULT = false →
    (s.O.length + 4 ≤ 131072 →
      exec .gend s = .next { s with O := s.O ++ entries [0x04, 0x21, 0xC2, 0xD8], ERR := 0 }) ∧
    (131072 < s.O.length + 4 → exec .gend s = .next { s with ERR := 0x07 })

/-- 44_generators.md R180: GTIME's checks in their order, and the packet it emits from P and T. The capacity is
00_scope.md R8's (notes/assumptions/2.md). -/
def Obligations.GtimeEmitsTheTimePacket : Prop :=
  ∀ (alpha : Alphabet) (A : List Byte) (s : State), (alpha, A) ∈ selectedAlphabets → s.FAULT = false →
    ((s.reg 0).toNat ≠ 1 ∧ (s.reg 0).toNat ≠ 2 → exec (.gtime alpha) s = .next
      { s with FAULT := true, CAUSE := 0x80, ERR := 0x80, T := [], R := [], D := [], O := [] }) ∧
    (((s.reg 0).toNat = 1 ∨ (s.reg 0).toNat = 2) →
      ((s.reg 7).toNat < 1 ∨ 7 < (s.reg 7).toNat → exec (.gtime alpha) s = .next { s with ERR := 0x02 }) ∧
      (1 ≤ (s.reg 7).toNat → (s.reg 7).toNat ≤ 7 →
        ((s.reg 9).toNat = 3 ∨ 6 < (s.reg 9).toNat → exec (.gtime alpha) s = .next { s with ERR := 0x02 }) ∧
        ((s.reg 9).toNat ≠ 3 → (s.reg 9).toNat ≤ 6 →
          (131072 < s.O.length + 17 → exec (.gtime alpha) s = .next { s with ERR := 0x07 }) ∧
          (s.O.length + 17 ≤ 131072 → exec (.gtime alpha) s = .next { s with
            O := s.O ++ entries (frame (
              [Config.cfg.kOpTime, s.reg 0, s.reg 1, s.reg 2, s.reg 3, s.reg 4, s.reg 5, s.reg 6] ++
              encodeText A s.T 3 true ++
              [BitVec.ofNat 8 (((s.reg 7).toNat + 6) % 7), if s.reg 8 = 0 then 1 else 2, s.reg 9]))
            T := [], ERR := 0 }))))

/-- 44_generators.md R185: GALARM's checks in their order, and the packet it emits from P and T. The capacity is
00_scope.md R8's (notes/assumptions/2.md). -/
def Obligations.GalarmEmitsTheAlarmPacket : Prop :=
  ∀ (alpha : Alphabet) (A : List Byte) (pad : Bool) (s : State), (alpha, A) ∈ selectedAlphabets → s.FAULT = false →
    let msg := encodeText A s.T 8 pad
    ((s.reg 0).toNat < 1 ∨ 5 < (s.reg 0).toNat → exec (.galarm alpha pad) s = .next
      { s with FAULT := true, CAUSE := 0x81, ERR := 0x81, T := [], R := [], D := [], O := [] }) ∧
    (1 ≤ (s.reg 0).toNat → (s.reg 0).toNat ≤ 5 →
      (131072 < s.O.length + 10 + msg.length → exec (.galarm alpha pad) s = .next { s with ERR := 0x07 }) ∧
      (s.O.length + 10 + msg.length ≤ 131072 → exec (.galarm alpha pad) s = .next { s with
        O := s.O ++ entries (frame ([Config.cfg.kOpAlarm, s.reg 0, s.reg 1, s.reg 2, 0x00, 0x00] ++ msg ++
          [if s.reg 3 ≠ 0 then 1 else 0]))
        T := [], ERR := 0 }))

/-- 44_generators.md R188: GSNDOPT emits the opcode and the two flags, framed, or is rejected with `E_OFULL`. The
capacity is 00_scope.md R8's (notes/assumptions/2.md). -/
def Obligations.GsndoptEmitsTheFlags : Prop :=
  ∀ s : State, s.FAULT = false →
    (s.O.length + 6 ≤ 131072 →
      exec .gsndopt s = .next { s with
        O := s.O ++ entries (frame
          [Config.cfg.kOpSndopt, if s.reg 0 ≠ 0 then 1 else 0, if s.reg 1 ≠ 0 then 1 else 0]), ERR := 0 }) ∧
    (131072 < s.O.length + 6 → exec .gsndopt s = .next { s with ERR := 0x07 })

/-- The six generators. -/
def Sys2Proof.Instr.isGenerator (i : Instr) : Prop :=
  (∃ n, i = .gsync n) ∨ i = .gstart ∨ i = .gend ∨ (∃ alpha, i = .gtime alpha) ∨ (∃ alpha pad, i = .galarm alpha pad) ∨
  i = .gsndopt

/-- 44_generators.md R170: a generator that completes emits exactly one packet, in all but GSYNC the frame of a payload of
at most 15 bytes; it never writes R, D or P; and what it does does not depend on R and D. -/
def Obligations.GeneratorsLeaveRecordDataAndRegisters : Prop :=
  ∀ (i : Instr) (s t : State), i.isGenerator → s.FAULT = false → exec i s = .next t → t.FAULT = false →
    t.R = s.R ∧ t.D = s.D ∧ t.P = s.P ∧ t.NPKT = s.NPKT ∧
    (t.ERR = 0 → t.opkts = s.opkts + 1 ∧
      ∃ p, p ≠ [] ∧ t.O = s.O ++ entries p ∧
        ((∀ n, i ≠ .gsync n) → ∃ payload, payload.length ≤ 15 ∧ p = frame payload)) ∧
    (∀ r d : List Byte, exec i { s with R := r, D := d } = .next { t with R := r, D := d })

/-! ## The host port -/

/-- A read at `off` answers `value` of the state it is served in and has no side effect. -/
def Sys2Proof.Machine.ReadsAs (off : Nat) (value : State → Nat) : Prop :=
  ∀ (s : State) (rest : List Access), s.accesses = .read off 32 :: rest →
    step s = .next { s with accesses := rest, rdata := BitVec.ofNat 32 (value s) }

/-- The registers of 20_memory.md R55 other than ODATA read as 10_state.md R26 to R31 and 20_memory.md R56 say, with no
side effect. (`rdata` is the model's own, notes/assumptions/4.md.) -/
def Obligations.RegistersReadTheState : Prop :=
  ReadsAs 0x04 (fun s =>
    (if s.FAULT then 1 else 0) + (if s.ERR ≠ 0 then 2 else 0) + (if 0 < s.O.length ∧ s.FAULT = false then 4 else 0)) ∧
  ReadsAs 0x08 (fun s => s.ERR.toNat) ∧
  ReadsAs 0x0C (fun s => s.CAUSE.toNat) ∧
  ReadsAs 0x14 (fun s => s.T.length) ∧
  ReadsAs 0x18 (fun s => s.R.length) ∧
  ReadsAs 0x1C (fun s => s.D.length) ∧
  ReadsAs 0x20 (fun s => s.O.length) ∧
  ReadsAs 0x24 (fun s => (s.O.filter (·.eop)).length) ∧
  ReadsAs 0x28 (fun s => s.NPKT.toNat) ∧
  (∀ i : Fin 16, ReadsAs (0x40 + 4 * i.val) (fun s => (s.reg i).toNat))

/-- 20_memory.md R57: a read of ODATA returns the head of O with VALID and EOP and removes it; it returns 0 and changes
nothing if `FAULT = 1` or O is empty; and no other host read has a side effect. -/
def Obligations.OdataReadRemovesTheHead : Prop :=
  ∀ (s : State) (rest : List Access),
    (s.accesses = .read 0x10 32 :: rest → s.FAULT = true ∨ s.O = [] →
      step s = .next { s with accesses := rest, rdata := 0 }) ∧
    (∀ (e : Entry) (q : List Entry), s.accesses = .read 0x10 32 :: rest → s.FAULT = false → s.O = e :: q →
      ∃ t, step s = .next t ∧ t.rdata.toNat = 2 ^ 9 + (if e.eop then 2 ^ 8 else 0) + e.byte.toNat ∧
        t = { s with accesses := rest, O := q, rdata := t.rdata }) ∧
    (∀ off : Nat, s.accesses = .read off 32 :: rest → off % 4 = 0 → off ≠ 0x10 →
      ∃ v, step s = .next { s with accesses := rest, rdata := v })

/-- 20_memory.md R59: reads of offsets above 0x7C, of reserved offsets and of write-only registers return 0 with no side
effect; writes to such offsets and to read-only registers are ignored; an access that is not 32 bits wide or not 4-byte
aligned has no step. -/
def Obligations.UnmappedAndUndefinedAccesses : Prop :=
  (∀ off : Nat, off % 4 = 0 → (0x7C < off ∨ (0x30 ≤ off ∧ off ≤ 0x3C) ∨ off = 0x00 ∨ off = 0x2C) →
    ReadsAs off (fun _ => 0)) ∧
  (∀ (s : State) (off : Nat) (v : Word) (rest : List Access), off % 4 = 0 → off ≠ 0x00 → off ≠ 0x2C →
    s.accesses = .write off 32 v :: rest → step s = .next { s with accesses := rest }) ∧
  (∀ (s : State) (off width : Nat) (rest : List Access), (width ≠ 32 ∨ off % 4 ≠ 0) →
    (s.accesses = .read off width :: rest → step s = .refused (.undefinedAccess off width)) ∧
    (∀ v : Word, s.accesses = .write off width v :: rest → step s = .refused (.undefinedAccess off width)))

/-- 70_reset_and_hazards.md R270 and R272: a hardware reset, and a write of CTRL with bit 0 set, give every piece of state
its reset value, whether or not `FAULT = 1`; a write of CTRL with bit 0 clear changes nothing. -/
def Obligations.ResetsClearEveryPieceOfState : Prop :=
  ∀ (s : State) (rest : List Access) (v : Word),
    (s.accesses = .reset :: rest →
      step s = .next ⟨Vector.replicate 16 0, [], [], [], [], false, 0, 0, 0, rest, s.rdata⟩) ∧
    (s.accesses = .write 0x2C 32 v :: rest → v.getLsbD 0 = true →
      step s = .next ⟨Vector.replicate 16 0, [], [], [], [], false, 0, 0, 0, rest, s.rdata⟩) ∧
    (s.accesses = .write 0x2C 32 v :: rest → v.getLsbD 0 = false → step s = .next { s with accesses := rest })

/-- 10_state.md R42: the value of every piece of state after reset, and of the derived registers; a hardware reset and a
soft reset both lead to it from every state (`accesses` and `rdata` are the model's own, notes/assumptions/3.md,
notes/assumptions/4.md). -/
def Obligations.StateAfterReset : Prop :=
  (∀ i : Fin 16, State.reset.reg i = 0) ∧ State.reset.T = [] ∧ State.reset.R = [] ∧ State.reset.D = [] ∧
  State.reset.O = [] ∧ State.reset.FAULT = false ∧ State.reset.CAUSE = 0 ∧ State.reset.ERR = 0 ∧ State.reset.NPKT = 0 ∧
  State.reset.status = 0 ∧ State.reset.opkts = 0 ∧
  (∀ (s : State) (rest : List Access) (v : Word),
    (s.accesses = .reset :: rest ∨ (s.accesses = .write 0x2C 32 v :: rest ∧ v.getLsbD 0 = true)) →
    step s = .next { State.reset with accesses := rest, rdata := s.rdata })

/-- What 60_exceptions.md R251 derives: in the fault state of a state that meets the invariant, STATUS reads 3, the
lengths and OPKTS and ODATA read 0, and CAUSE still shows the cause. -/
def Obligations.FaultStateReadsAsEmpty : Prop :=
  ∀ (s : State) (rest : List Access) (off : Nat), s.Inv Config.cfg → s.FAULT = true →
    s.accesses = .read off 32 :: rest →
    (off = 0x04 → step s = .next { s with accesses := rest, rdata := 3 }) ∧
    (off ∈ ([0x10, 0x14, 0x18, 0x1C, 0x20, 0x24] : List Nat) →
      step s = .next { s with accesses := rest, rdata := 0 }) ∧
    (off = 0x0C → ∃ t, step s = .next t ∧ t.rdata ≠ 0 ∧ t = { s with accesses := rest, rdata := t.rdata })

/-- `POPPKT` (30_encoding.md R87, 20_memory.md R57) on a packet `p ++ [b]` at the head of O: it is one read for each byte;
the reads of p return VALID and the byte with EOP clear (00_scope.md R12), each removing one entry; the last returns VALID,
EOP and b, and exactly the packet is gone. -/
def Obligations.PopPktTakesOneWholePacket : Prop :=
  ∀ (s : State) (p : List Byte) (q : List Entry) (rest : List Access) (b : Byte),
    s.FAULT = false → s.O = entries (p ++ [b]) ++ q → s.accesses = popPkt s ++ rest →
    (popPkt s).length = p.length + 1 ∧
    (∀ (j : Nat) (x : Byte), p[j]? = some x →
      ∃ t, Host.Core.run Sys2Proof.core (j + 1) s = .next t ∧ t.rdata.toNat = 2 ^ 9 + x.toNat ∧
        t = { s with O := s.O.drop (j + 1), accesses := s.accesses.drop (j + 1), rdata := t.rdata }) ∧
    ∃ t, Host.Core.run Sys2Proof.core (p.length + 1) s = .next t ∧ t.rdata.toNat = 2 ^ 9 + 2 ^ 8 + b.toNat ∧
      t = { s with O := q, accesses := rest, rdata := t.rdata }

/-! ## Invariants -/

/-- The state after reset meets the invariant of 10_state.md R41. That no access waits in it is the model's choice
(notes/assumptions/3.md); so every waiting access is one the spec defines. -/
def Obligations.ResetMeetsInvariant : Prop :=
  State.reset.Inv Config.cfg ∧ State.reset.accesses = [] ∧ State.reset.onlyDefinedAccesses

/-- Every step keeps the invariant of 10_state.md R41 (and the code rules of 60_exceptions.md R241), from every state that
meets it and whatever the host does. -/
def Obligations.StepKeepsInvariant : Prop :=
  ∀ s t : State, s.Inv Config.cfg → step s = .next t → t.Inv Config.cfg

/-- A host that makes only the accesses the spec defines never stops the machine and never leaves the invariant, for any
number of steps (60_exceptions.md R262: the step "never fails"). -/
def Obligations.DefinedAccessesRunSafelyForever : Prop :=
  ∀ (s : State) (k : Nat), s.Inv Config.cfg → s.onlyDefinedAccesses → SafeFor k s

/-! ## The host sequences -/

/-- 45_host_sequences.md R211: from a state with R and T empty, the sequence of each record type leaves R and T empty and
D longer by exactly the record, whatever the length of the texts (70_reset_and_hazards.md R282); and the records are those
of R207 to R210, a list item with a priority outside 1 to 5 being one that cannot be built (R209). The capacity of D is
00_scope.md R8's (notes/assumptions/2.md); lines and records are the model's forms of the host's work
(notes/assumptions/11.md, notes/assumptions/12.md). -/
def Obligations.RecordSequencesAppendTheRecord : Prop :=
  ∀ (s : State) (rest : List Access), s.FAULT = false → s.R = [] → s.T = [] →
    (∀ x : Appointment,
      (∃ qh : Byte, x.record Config.cfg = frameLen ([x.month, x.day, qh] ++ pack6Bytes Config.cfg x.message) ∧
        (x.hour ≤ 23 → x.minute ≤ 59 → qh.toNat = x.hour * 4 + x.minute / 15)) ∧
      (s.accesses = accessesOf x.lines ++ rest → s.D.length + (x.record Config.cfg).length ≤ 65536 →
        Host.Core.run Sys2Proof.core (accessesOf x.lines).length s =
          .next { s with D := s.D ++ x.record Config.cfg, ERR := 0, accesses := rest })) ∧
    (∀ x : Anniversary,
      x.record Config.cfg = frameLen ([x.month, x.day] ++ pack6Bytes Config.cfg x.label) ∧
      (s.accesses = accessesOf x.lines ++ rest → s.D.length + (x.record Config.cfg).length ≤ 65536 →
        Host.Core.run Sys2Proof.core (accessesOf x.lines).length s =
          .next { s with D := s.D ++ x.record Config.cfg, ERR := 0, accesses := rest })) ∧
    (∀ x : ListItem,
      (∃ prio : Byte, x.record Config.cfg = frameLen ([prio] ++ pack6Bytes Config.cfg x.entry) ∧
        prio.toNat = x.priority.getD 0) ∧
      (s.accesses = accessesOf x.lines ++ rest → s.D.length + (x.record Config.cfg).length ≤ 65536 →
        Host.Core.run Sys2Proof.core (accessesOf x.lines).length s =
          .next { s with D := s.D ++ x.record Config.cfg, ERR := 0, accesses := rest })) ∧
    (∀ x : PhoneNumber,
      x.record Config.cfg =
        frameLen (pack4Bytes Config.cfg (x.number ++ [0x20, x.typeTag]) ++ pack6Bytes Config.cfg x.name) ∧
      (s.accesses = accessesOf x.lines ++ rest → s.D.length + (x.record Config.cfg).length ≤ 65536 →
        Host.Core.run Sys2Proof.core (accessesOf x.lines).length s =
          .next { s with D := s.D ++ x.record Config.cfg, ERR := 0, accesses := rest })) ∧
    (∀ (entry : List Byte) (priority : Option Nat),
      ((∃ p, priority = some p ∧ (p < 1 ∨ 5 < p)) → ListItem.construct entry priority = none) ∧
      ((∀ p, priority = some p → 1 ≤ p ∧ p ≤ 5) →
        ∃ x, ListItem.construct entry priority = some x ∧ x.entry = entry ∧ x.priority = priority))

/-- 45_host_sequences.md R203 and R205: from a state with R and D empty, the SoundTheme and the WristApp sequence emit
exactly the packets of R201 and R204, in order, and leave R and D empty; a theme of 0 or more than 256 bytes is refused
(R202). The capacity of O is 00_scope.md R8's (notes/assumptions/2.md); lines and packets are the model's forms of the
host's work (notes/assumptions/11.md, notes/assumptions/12.md). -/
def Obligations.MultiPacketGroupSequencesEmitTheGroup : Prop :=
  ∀ (h : HostConstants) (X : List Byte) (s : State) (rest : List Access), s.FAULT = false → s.R = [] → s.D = [] →
    (X.length < 1 ∨ 256 < X.length → soundThemePackets h X = none ∧ soundThemeLines h X = none) ∧
    (1 ≤ X.length → X.length ≤ 256 →
      1 ≤ h.stChunk.toNat → min h.stChunk.toNat X.length ≤ 249 → npk X.length h.stChunk.toNat ≤ 255 →
      h.stHdr.length ≤ 250 → h.stEnd.length ≤ 252 →
      ∃ (ps : List (List Byte)) (lines : List AsmLine) (n offset : Byte),
        soundThemePackets h X = some ps ∧ soundThemeLines h X = some lines ∧
        n.toNat = npk X.length h.stChunk.toNat ∧ offset.toNat = 256 - X.length ∧
        ps = [frame (h.stHdr ++ [n, offset])] ++ (paginate h.stData.1 h.stData.2 h.stChunk.toNat X).map frame ++
          [frame h.stEnd] ∧
        (s.accesses = accessesOf lines ++ rest → s.O.length + ps.flatten.length ≤ 131072 →
          Host.Core.run Sys2Proof.core (accessesOf lines).length s =
            .next { s with O := s.O ++ ps.flatMap entries, NPKT := n, ERR := 0, accesses := rest })) ∧
    (1 ≤ h.waChunk.toNat → min h.waChunk.toNat X.length ≤ 249 → npk X.length h.waChunk.toNat ≤ 255 →
      h.waClear.length ≤ 252 → h.waHdr.length ≤ 250 → h.waEnd.length ≤ 252 →
      ∃ (ps : List (List Byte)) (n : Byte),
        wristAppPackets h X = some ps ∧ n.toNat = npk X.length h.waChunk.toNat ∧
        ps = [frame h.waClear, frame (h.waHdr ++ [n, h.waMarker])] ++
          (paginate h.waData.1 h.waData.2 h.waChunk.toNat X).map frame ++ [frame h.waEnd] ∧
        (s.accesses = accessesOf (wristAppLines h X) ++ rest → s.O.length + ps.flatten.length ≤ 131072 →
          Host.Core.run Sys2Proof.core (accessesOf (wristAppLines h X)).length s =
            .next { s with O := s.O ++ ps.flatMap entries, NPKT := n, ERR := 0, accesses := rest }))

/-- 45_host_sequences.md R220: from a state with T, R and D empty, the aggregator's sequence emits exactly the packets of
R217 and leaves T, R and D empty; its last reading of DLEN is the length of the first three sections. The header packet is
written out: the section addresses from 0x0236 on (R214), the counts (R215), the earliest year (R216), the notification
code (R212); what the host must refuse, it refuses. In the sequence the addresses stand as the numbers that the readings of
DLEN give (notes/assumptions/12.md); the capacities are 00_scope.md R8's (notes/assumptions/2.md). -/
def Obligations.EepromSequenceEmitsTheGroup : Prop :=
  ∀ (h : HostConstants) (e : EepromData),
    let S0 := e.appointments.flatMap (Appointment.record Config.cfg)
    let S1 := e.lists.flatMap (ListItem.record Config.cfg)
    let S2 := e.phones.flatMap (PhoneNumber.record Config.cfg)
    let S3 := e.anniversaries.flatMap (Anniversary.record Config.cfg)
    let X := S0 ++ S1 ++ S2 ++ S3
    let A1 := 0x0236 + S0.length
    let A2 := A1 + S1.length
    let A3 := A2 + S2.length
    (255 < e.appointments.length ∨ 255 < e.lists.length ∨ 255 < e.phones.length ∨ 255 < e.anniversaries.length ∨
        0xFFFF < A3 + S3.length ∨ 8160 < X.length ∨
        (∃ m, e.leadTime = some m ∧ m ∉ ([0, 5, 10, 15, 20, 25, 30] : List Nat)) →
      eepromPackets h Config.cfg e = none ∧ eepromLines h Config.cfg e = none) ∧
    ∀ (year notif : Byte),
      (e.appointments = [] ∧ year = 0 ∨
        (∃ x ∈ e.appointments, year = x.year) ∧ ∀ x ∈ e.appointments, year.toNat ≤ x.year.toNat) →
      (e.leadTime, notif) ∈ ([(none, 0xFF), (some 0, 0), (some 5, 1), (some 10, 2), (some 15, 3), (some 20, 4),
        (some 25, 5), (some 30, 6)] : List (Option Nat × Byte)) →
      e.appointments.length ≤ 255 → e.lists.length ≤ 255 → e.phones.length ≤ 255 → e.anniversaries.length ≤ 255 →
      X.length ≤ 8160 → h.eeClear.length ≤ 252 → h.eeHdr.length ≤ 237 → h.eeEnd.length ≤ 252 →
      ∃ (ps : List (List Byte)) (lines : List AsmLine),
        eepromPackets h Config.cfg e = some ps ∧ eepromLines h Config.cfg e = some lines ∧
        ps = [frame h.eeClear,
            frame (h.eeHdr ++ [BitVec.ofNat 8 (npk X.length 32)] ++
              [0x02, 0x36, BitVec.ofNat 8 (A1 / 256), BitVec.ofNat 8 (A1 % 256), BitVec.ofNat 8 (A2 / 256),
                BitVec.ofNat 8 (A2 % 256), BitVec.ofNat 8 (A3 / 256), BitVec.ofNat 8 (A3 % 256)] ++
              [BitVec.ofNat 8 e.appointments.length, BitVec.ofNat 8 e.lists.length, BitVec.ofNat 8 e.phones.length,
                BitVec.ofNat 8 e.anniversaries.length] ++ [year] ++ [notif])] ++
          (paginate h.eeData.1 h.eeData.2 32 X).map frame ++ [frame h.eeEnd] ∧
        ∀ (s : State) (rest : List Access), s.FAULT = false → s.T = [] → s.R = [] → s.D = [] →
          s.accesses = accessesOf lines ++ rest → s.O.length + ps.flatten.length ≤ 131072 →
          Host.Core.run Sys2Proof.core (accessesOf lines).length s =
            .next { s with
              O := s.O ++ ps.flatMap entries, NPKT := BitVec.ofNat 8 (npk X.length 32)
              rdata := BitVec.ofNat 32 (S0.length + S1.length + S2.length), ERR := 0, accesses := rest }

/-- 45_host_sequences.md R219: with no records the group still has four packets, the counts are 0, the addresses all
0x0236, and the header announces one data packet. That no data makes one packet is the spec's own reading
(notes/assumptions/8.md). -/
def Obligations.EepromWithoutRecordsHasFourPackets : Prop :=
  ∀ h : HostConstants, h.eeClear.length ≤ 252 → h.eeHdr.length ≤ 237 → h.eeEnd.length ≤ 252 →
    eepromPackets h Config.cfg ⟨[], [], [], [], none⟩ = some
      [frame h.eeClear,
       frame (h.eeHdr ++ [1, 0x02, 0x36, 0x02, 0x36, 0x02, 0x36, 0x02, 0x36, 0, 0, 0, 0, 0, 0xFF]),
       frame [h.eeData.1, h.eeData.2, 1], frame h.eeEnd]
end

