-- ==== Sys2Proof/Laws/State.lean ====
section
/-! SUPPORT. One lemma per field per update of the state, so that no later proof unfolds an update. -/

namespace Sys2Proof.Machine

/-! ## reject -/

@[simp] theorem reject_P (e : Code) (s : State) : (reject e s).P = s.P := rfl
@[simp] theorem reject_T (e : Code) (s : State) : (reject e s).T = s.T := rfl
@[simp] theorem reject_R (e : Code) (s : State) : (reject e s).R = s.R := rfl
@[simp] theorem reject_D (e : Code) (s : State) : (reject e s).D = s.D := rfl
@[simp] theorem reject_O (e : Code) (s : State) : (reject e s).O = s.O := rfl
@[simp] theorem reject_FAULT (e : Code) (s : State) : (reject e s).FAULT = s.FAULT := rfl
@[simp] theorem reject_CAUSE (e : Code) (s : State) : (reject e s).CAUSE = s.CAUSE := rfl
@[simp] theorem reject_ERR (e : Code) (s : State) : (reject e s).ERR = e.byte := rfl
@[simp] theorem reject_NPKT (e : Code) (s : State) : (reject e s).NPKT = s.NPKT := rfl
@[simp] theorem reject_accesses (e : Code) (s : State) : (reject e s).accesses = s.accesses := rfl
@[simp] theorem reject_rdata (e : Code) (s : State) : (reject e s).rdata = s.rdata := rfl

/-! ## done -/

@[simp] theorem done_P (s : State) : (done s).P = s.P := rfl
@[simp] theorem done_T (s : State) : (done s).T = s.T := rfl
@[simp] theorem done_R (s : State) : (done s).R = s.R := rfl
@[simp] theorem done_D (s : State) : (done s).D = s.D := rfl
@[simp] theorem done_O (s : State) : (done s).O = s.O := rfl
@[simp] theorem done_FAULT (s : State) : (done s).FAULT = s.FAULT := rfl
@[simp] theorem done_CAUSE (s : State) : (done s).CAUSE = s.CAUSE := rfl
@[simp] theorem done_ERR (s : State) : (done s).ERR = 0 := rfl
@[simp] theorem done_NPKT (s : State) : (done s).NPKT = s.NPKT := rfl
@[simp] theorem done_accesses (s : State) : (done s).accesses = s.accesses := rfl
@[simp] theorem done_rdata (s : State) : (done s).rdata = s.rdata := rfl

/-! ## raiseFault -/

@[simp] theorem raiseFault_P (f : Cause) (s : State) : (raiseFault f s).P = s.P := rfl
@[simp] theorem raiseFault_T (f : Cause) (s : State) : (raiseFault f s).T = [] := rfl
@[simp] theorem raiseFault_R (f : Cause) (s : State) : (raiseFault f s).R = [] := rfl
@[simp] theorem raiseFault_D (f : Cause) (s : State) : (raiseFault f s).D = [] := rfl
@[simp] theorem raiseFault_O (f : Cause) (s : State) : (raiseFault f s).O = [] := rfl
@[simp] theorem raiseFault_FAULT (f : Cause) (s : State) : (raiseFault f s).FAULT = true := rfl
@[simp] theorem raiseFault_CAUSE (f : Cause) (s : State) : (raiseFault f s).CAUSE = f.byte := rfl
@[simp] theorem raiseFault_ERR (f : Cause) (s : State) : (raiseFault f s).ERR = f.byte := rfl
@[simp] theorem raiseFault_NPKT (f : Cause) (s : State) : (raiseFault f s).NPKT = s.NPKT := rfl
@[simp] theorem raiseFault_accesses (f : Cause) (s : State) : (raiseFault f s).accesses = s.accesses := rfl
@[simp] theorem raiseFault_rdata (f : Cause) (s : State) : (raiseFault f s).rdata = s.rdata := rfl

/-! ## resetBlock -/

@[simp] theorem resetBlock_P (s : State) : (resetBlock s).P = Vector.replicate 16 0 := rfl
@[simp] theorem resetBlock_T (s : State) : (resetBlock s).T = [] := rfl
@[simp] theorem resetBlock_R (s : State) : (resetBlock s).R = [] := rfl
@[simp] theorem resetBlock_D (s : State) : (resetBlock s).D = [] := rfl
@[simp] theorem resetBlock_O (s : State) : (resetBlock s).O = [] := rfl
@[simp] theorem resetBlock_FAULT (s : State) : (resetBlock s).FAULT = false := rfl
@[simp] theorem resetBlock_CAUSE (s : State) : (resetBlock s).CAUSE = 0 := rfl
@[simp] theorem resetBlock_ERR (s : State) : (resetBlock s).ERR = 0 := rfl
@[simp] theorem resetBlock_NPKT (s : State) : (resetBlock s).NPKT = 0 := rfl
@[simp] theorem resetBlock_accesses (s : State) : (resetBlock s).accesses = s.accesses := rfl
@[simp] theorem resetBlock_rdata (s : State) : (resetBlock s).rdata = s.rdata := rfl

/-! ## setReg -/

@[simp] theorem setReg_P (s : State) (i : Fin 16) (v : Byte) : (s.setReg i v).P = s.P.set i v := rfl
@[simp] theorem setReg_T (s : State) (i : Fin 16) (v : Byte) : (s.setReg i v).T = s.T := rfl
@[simp] theorem setReg_R (s : State) (i : Fin 16) (v : Byte) : (s.setReg i v).R = s.R := rfl
@[simp] theorem setReg_D (s : State) (i : Fin 16) (v : Byte) : (s.setReg i v).D = s.D := rfl
@[simp] theorem setReg_O (s : State) (i : Fin 16) (v : Byte) : (s.setReg i v).O = s.O := rfl
@[simp] theorem setReg_FAULT (s : State) (i : Fin 16) (v : Byte) : (s.setReg i v).FAULT = s.FAULT := rfl
@[simp] theorem setReg_CAUSE (s : State) (i : Fin 16) (v : Byte) : (s.setReg i v).CAUSE = s.CAUSE := rfl
@[simp] theorem setReg_ERR (s : State) (i : Fin 16) (v : Byte) : (s.setReg i v).ERR = s.ERR := rfl
@[simp] theorem setReg_NPKT (s : State) (i : Fin 16) (v : Byte) : (s.setReg i v).NPKT = s.NPKT := rfl
@[simp] theorem setReg_accesses (s : State) (i : Fin 16) (v : Byte) : (s.setReg i v).accesses = s.accesses := rfl
@[simp] theorem setReg_rdata (s : State) (i : Fin 16) (v : Byte) : (s.setReg i v).rdata = s.rdata := rfl

/-! ## pageDone -/

@[simp] theorem pageDone_P (n : Nat) (s : State) : (pageDone n s).P = s.P := rfl
@[simp] theorem pageDone_T (n : Nat) (s : State) : (pageDone n s).T = s.T := rfl
@[simp] theorem pageDone_R (n : Nat) (s : State) : (pageDone n s).R = s.R := rfl
@[simp] theorem pageDone_D (n : Nat) (s : State) : (pageDone n s).D = [] := rfl
@[simp] theorem pageDone_O (n : Nat) (s : State) : (pageDone n s).O = s.O := rfl
@[simp] theorem pageDone_FAULT (n : Nat) (s : State) : (pageDone n s).FAULT = s.FAULT := rfl
@[simp] theorem pageDone_CAUSE (n : Nat) (s : State) : (pageDone n s).CAUSE = s.CAUSE := rfl
@[simp] theorem pageDone_ERR (n : Nat) (s : State) : (pageDone n s).ERR = 0 := rfl
@[simp] theorem pageDone_NPKT (n : Nat) (s : State) : (pageDone n s).NPKT = BitVec.ofNat 8 n := rfl
@[simp] theorem pageDone_accesses (n : Nat) (s : State) : (pageDone n s).accesses = s.accesses := rfl
@[simp] theorem pageDone_rdata (n : Nat) (s : State) : (pageDone n s).rdata = s.rdata := rfl

/-! ## deliver -/

@[simp] theorem deliver_P (r : Word × State) : (deliver r).P = r.2.P := rfl
@[simp] theorem deliver_T (r : Word × State) : (deliver r).T = r.2.T := rfl
@[simp] theorem deliver_R (r : Word × State) : (deliver r).R = r.2.R := rfl
@[simp] theorem deliver_D (r : Word × State) : (deliver r).D = r.2.D := rfl
@[simp] theorem deliver_O (r : Word × State) : (deliver r).O = r.2.O := rfl
@[simp] theorem deliver_FAULT (r : Word × State) : (deliver r).FAULT = r.2.FAULT := rfl
@[simp] theorem deliver_CAUSE (r : Word × State) : (deliver r).CAUSE = r.2.CAUSE := rfl
@[simp] theorem deliver_ERR (r : Word × State) : (deliver r).ERR = r.2.ERR := rfl
@[simp] theorem deliver_NPKT (r : Word × State) : (deliver r).NPKT = r.2.NPKT := rfl
@[simp] theorem deliver_accesses (r : Word × State) : (deliver r).accesses = r.2.accesses := rfl
@[simp] theorem deliver_rdata (r : Word × State) : (deliver r).rdata = r.1 := rfl

/-! ## Buffers and registers by selector -/

@[simp] theorem buf_T (s : State) : s.buf .T = s.T := rfl
@[simp] theorem buf_R (s : State) : s.buf .R = s.R := rfl
@[simp] theorem buf_D (s : State) : s.buf .D = s.D := rfl
@[simp] theorem setBuf_T (s : State) (x : List Byte) : s.setBuf .T x = { s with T := x } := rfl
@[simp] theorem setBuf_R (s : State) (x : List Byte) : s.setBuf .R x = { s with R := x } := rfl
@[simp] theorem setBuf_D (s : State) (x : List Byte) : s.setBuf .D x = { s with D := x } := rfl
@[simp] theorem setBuf_field_P (s : State) (b : Buf) (x : List Byte) : (s.setBuf b x).P = s.P := by
  cases b <;> rfl
@[simp] theorem setBuf_field_O (s : State) (b : Buf) (x : List Byte) : (s.setBuf b x).O = s.O := by
  cases b <;> rfl
@[simp] theorem setBuf_field_FAULT (s : State) (b : Buf) (x : List Byte) : (s.setBuf b x).FAULT = s.FAULT := by
  cases b <;> rfl
@[simp] theorem setBuf_field_CAUSE (s : State) (b : Buf) (x : List Byte) : (s.setBuf b x).CAUSE = s.CAUSE := by
  cases b <;> rfl
@[simp] theorem setBuf_field_ERR (s : State) (b : Buf) (x : List Byte) : (s.setBuf b x).ERR = s.ERR := by
  cases b <;> rfl
@[simp] theorem setBuf_field_NPKT (s : State) (b : Buf) (x : List Byte) : (s.setBuf b x).NPKT = s.NPKT := by
  cases b <;> rfl
@[simp] theorem setBuf_field_accesses (s : State) (b : Buf) (x : List Byte) : (s.setBuf b x).accesses = s.accesses := by
  cases b <;> rfl
@[simp] theorem setBuf_field_rdata (s : State) (b : Buf) (x : List Byte) : (s.setBuf b x).rdata = s.rdata := by
  cases b <;> rfl

@[simp] theorem buf_setBuf (s : State) (b : Buf) (x : List Byte) : (s.setBuf b x).buf b = x := by cases b <;> rfl

theorem buf_setBuf_ne (s : State) {b b' : Buf} (x : List Byte) (h : b' ≠ b) : (s.setBuf b x).buf b' = s.buf b' := by
  cases b <;> cases b' <;> first | rfl | exact absurd rfl h

@[simp] theorem bufSize_T (c : Cfg) : bufSize c .T = c.tSize := rfl
@[simp] theorem bufSize_R (c : Cfg) : bufSize c .R = c.rSize := rfl
@[simp] theorem bufSize_D (c : Cfg) : bufSize c .D = c.dSize := rfl

@[simp] theorem reg_setReg (s : State) (i : Fin 16) (v : Byte) : (s.setReg i v).reg i = v := by
  simp [State.reg, State.setReg, Vector.get_eq_getElem]

theorem reg_setReg_ne (s : State) {i j : Fin 16} (v : Byte) (h : i ≠ j) : (s.setReg i v).reg j = s.reg j := by
  have hv : i.val ≠ j.val := fun e => h (Fin.ext e)
  simp [State.reg, State.setReg, Vector.get_eq_getElem, hv]

/-! ## The machine's configuration: the values 00_scope.md R8 gives -/

@[simp] theorem cfg_tSize : Config.cfg.tSize = 256 := rfl
@[simp] theorem cfg_rSize : Config.cfg.rSize = 256 := rfl
@[simp] theorem cfg_dSize : Config.cfg.dSize = 65536 := rfl
@[simp] theorem cfg_oSize : Config.cfg.oSize = 131072 := rfl
@[simp] theorem cfg_kStart : Config.cfg.kStart = [0x20, 0x00, 0x00, 0x04] := rfl
@[simp] theorem cfg_kEnd : Config.cfg.kEnd = [0x21] := rfl
@[simp] theorem cfg_kSync2Len : Config.cfg.kSync2Len = 40 := rfl

end Sys2Proof.Machine
end

