-- ==== Sys2Proof/Laws/Ops.lean ====
section
/-! SUPPORT. One lemma per shared operation that says everything it can do; the command rules' proofs cite these and do
not unfold the operations. -/

namespace Sys2Proof.Machine

/-! ## The envelope (40_buffer_ops.md R100) -/

theorem command_faulted {s : State} (h : s.FAULT = true) (rule : State → State) :
    command rule s = .next (reject .faulted s) := by simp [command, h]

theorem command_running {s : State} (h : s.FAULT = false) (rule : State → State) :
    command rule s = .next (rule s) := by simp [command, h]

/-- A command answers a next state: `E_FAULTED` in the fault state, the rule's state otherwise. -/
theorem command_cases {rule : State → State} {s t : State} (h : command rule s = .next t) :
    (s.FAULT = true ∧ t = reject .faulted s) ∨ (s.FAULT = false ∧ t = rule s) := by
  cases hf : s.FAULT with
  | true => rw [command_faulted hf] at h; injection h with h; exact .inl ⟨rfl, h.symm⟩
  | false => rw [command_running hf] at h; injection h with h; exact .inr ⟨rfl, h.symm⟩

/-- `exec` is the envelope around some rule of the command's own. -/
theorem exec_is_command (i : Instr) : ∃ rule, ∀ s, exec i s = command rule s := by
  cases i <;> exact ⟨_, fun _ => rfl⟩

/-! ## Appending (20_memory.md R51) -/

theorem withAppend_fits {c : Cfg} {b : Buf} {x : List Byte} {s : State}
    (h : (s.buf b).length + x.length ≤ bufSize c b) (next : State → State) :
    withAppend c b x s next = next (s.setBuf b (s.buf b ++ x)) := by
  simp [withAppend, Nat.not_lt.mpr h]

theorem withAppend_full {c : Cfg} {b : Buf} {x : List Byte} {s : State}
    (h : bufSize c b < (s.buf b).length + x.length) (next : State → State) :
    withAppend c b x s next = reject .bufFull s := by
  simp [withAppend, h]

/-- Everything an append can do. -/
theorem withAppend_cases (c : Cfg) (b : Buf) (x : List Byte) (s : State) (next : State → State) :
    (bufSize c b < (s.buf b).length + x.length ∧ withAppend c b x s next = reject .bufFull s) ∨
    ((s.buf b).length + x.length ≤ bufSize c b ∧
      withAppend c b x s next = next (s.setBuf b (s.buf b ++ x))) := by
  rcases Nat.lt_or_ge (bufSize c b) ((s.buf b).length + x.length) with h | h
  · exact .inl ⟨h, withAppend_full h next⟩
  · exact .inr ⟨h, withAppend_fits h next⟩

/-! ## Emitting (20_memory.md R53, 00_scope.md R12) -/

theorem withEmit_fits {c : Cfg} {size : Nat} {ps : List (List Byte)} {s : State}
    (h : s.O.length + size ≤ c.oSize) (next : State → State) :
    withEmit c size ps s next = next { s with O := s.O ++ ps.flatMap entries } := by
  simp [withEmit, Nat.not_lt.mpr h]

theorem withEmit_full {c : Cfg} {size : Nat} {ps : List (List Byte)} {s : State}
    (h : c.oSize < s.O.length + size) (next : State → State) :
    withEmit c size ps s next = reject .oFull s := by
  simp [withEmit, h]

/-- Everything an emission can do. -/
theorem withEmit_cases (c : Cfg) (size : Nat) (ps : List (List Byte)) (s : State) (next : State → State) :
    (c.oSize < s.O.length + size ∧ withEmit c size ps s next = reject .oFull s) ∨
    (s.O.length + size ≤ c.oSize ∧
      withEmit c size ps s next = next { s with O := s.O ++ ps.flatMap entries }) := by
  rcases Nat.lt_or_ge c.oSize (s.O.length + size) with h | h
  · exact .inl ⟨h, withEmit_full h next⟩
  · exact .inr ⟨h, withEmit_fits h next⟩

@[simp] theorem entries_nil : entries [] = [] := rfl
@[simp] theorem entries_singleton (b : Byte) : entries [b] = [⟨b, true⟩] := rfl
@[simp] theorem entries_cons_cons (b b' : Byte) (p : List Byte) :
    entries (b :: b' :: p) = ⟨b, false⟩ :: entries (b' :: p) := rfl

/-- A packet has one entry per byte. -/
@[simp] theorem entries_length (p : List Byte) : (entries p).length = p.length := by
  induction p using entries.induct <;> simp_all

/-- The entries carry the packet's bytes, in order. -/
@[simp] theorem entries_bytes (p : List Byte) : (entries p).map (·.byte) = p := by
  induction p using entries.induct <;> simp_all

theorem entries_eq_nil {p : List Byte} : entries p = [] ↔ p = [] := by
  rw [← List.length_eq_zero_iff, entries_length, List.length_eq_zero_iff]

/-- The last entry of a packet has `eop = 1`. -/
theorem entries_endsPacket (p : List Byte) : endsPacket (entries p) := by
  induction p using entries.induct with
  | case1 => simp [endsPacket]
  | case2 b => simp [endsPacket]
  | case3 b b' p ih =>
    intro e he
    apply ih e
    rw [entries_cons_cons] at he
    have hne : entries (b' :: p) ≠ [] := by simp [entries_eq_nil]
    rwa [List.getLast?_cons_of_ne_nil hne] at he

/-- A packet has exactly one end-of-packet mark. -/
theorem entries_eops {p : List Byte} (h : p ≠ []) : (entries p).countP (·.eop) = 1 := by
  induction p using entries.induct with
  | case1 => exact absurd rfl h
  | case2 b => rfl
  | case3 b b' p ih => simpa using ih (by simp)

theorem endsPacket_append {q r : List Entry} (hq : endsPacket q) (hr : endsPacket r) : endsPacket (q ++ r) := by
  intro e he
  rw [List.getLast?_append] at he
  cases hrl : r.getLast? with
  | none => rw [hrl] at he; exact hq e (by simpa using he)
  | some e' => rw [hrl] at he; exact hr e (by simpa [hrl] using he)

theorem endsPacket_flatMap (ps : List (List Byte)) : endsPacket (ps.flatMap entries) := by
  induction ps with
  | nil => simp [endsPacket]
  | cons p ps ih => simpa using endsPacket_append (entries_endsPacket p) ih

/-- Several packets have as many entries as bytes. -/
theorem flatMap_entries_length (ps : List (List Byte)) : (ps.flatMap entries).length = ps.flatten.length := by
  induction ps with
  | nil => rfl
  | cons p ps ih => simp [ih]

/-- Several packets have as many end-of-packet marks as there are packets. -/
theorem flatMap_entries_eops {ps : List (List Byte)} (h : ∀ p ∈ ps, p ≠ []) :
    (ps.flatMap entries).countP (·.eop) = ps.length := by
  induction ps with
  | nil => rfl
  | cons p ps ih =>
    rw [List.flatMap_cons, List.countP_append, entries_eops (h p (by simp)), ih fun q hq => h q (by simp [hq])]
    simp [Nat.add_comm]

/-! ## The queue's head (20_memory.md R57) -/

/-- Everything a read of ODATA can do. -/
theorem popO_cases (s : State) :
    ((s.FAULT = true ∨ s.O = []) ∧ popO s = (0, s)) ∨
    (∃ e rest, s.FAULT = false ∧ s.O = e :: rest ∧ popO s = (e.word, { s with O := rest })) := by
  cases hf : s.FAULT with
  | true => exact .inl ⟨.inl rfl, by simp [popO, hf]⟩
  | false =>
    cases ho : s.O with
    | nil => exact .inl ⟨.inr rfl, by simp [popO, hf, ho]⟩
    | cons e rest => exact .inr ⟨e, rest, rfl, rfl, by simp [popO, hf, ho]⟩

/-! ## Serving accesses -/

@[simp] theorem step_idle {s : State} (h : s.accesses = []) : step s = .next s := by simp [step, serveNext, h]

theorem step_serves {s : State} {a : Access} {rest : List Access} (h : s.accesses = a :: rest) :
    step s = serve a { s with accesses := rest } := by simp [step, serveNext, h]

/-- Everything a read can do to the state: nothing, or one entry of O is gone. -/
theorem readAt_state (off : Nat) (s : State) : (readAt off s).2 = s ∨ (readAt off s).2 = (popO s).2 := by
  unfold readAt
  split
  · rename_i r _; cases r <;> first | exact .inl rfl | exact .inr rfl
  · exact .inl rfl

/-- Which offsets name a register (20_memory.md R55). -/
theorem regAt_some {off : Nat} {r : Reg} (h : regAt off = some r) : r.offset ≤ off ∧ off < r.offset + 4 := by
  unfold regAt at h
  iterate 12 (rcases (inferInstance : Decidable (off = _)) with e | e <;>
    [rw [if_neg e] at h; (rw [if_pos e] at h; injection h with h; subst h; subst e; decide)])
  split at h
  · rename_i hp
    injection h with h
    subst h
    clear * - hp
    simp only [Reg.offset]
    omega
  · cases h

/-- Every register is found at its own offset. -/
theorem regAt_offset (r : Reg) : regAt r.offset = some r := by
  cases r with
  | pview i => revert i; decide
  | _ => rfl

/-- On aligned offsets the map is exact. -/
theorem regAt_iff {off : Nat} (ha : off % 4 = 0) (r : Reg) : regAt off = some r ↔ off = r.offset := by
  refine ⟨fun h => ?_, fun h => h ▸ regAt_offset r⟩
  have hb := regAt_some h
  have hr : r.offset % 4 = 0 := by cases r <;> simp [Reg.offset]
  omega

/-- Everything an aligned write can do: a CMD write, a CTRL write, nothing (20_memory.md R55, R59). -/
theorem writeAt_cases {off : Nat} (ha : off % 4 = 0) (v : Word) (s : State) :
    (off = 0x00 ∧ writeAt off v s = writeCmd v s) ∨ (off = 0x2C ∧ writeAt off v s = .next (writeCtrl v s)) ∨
    (off ≠ 0x00 ∧ off ≠ 0x2C ∧ writeAt off v s = .next s) := by
  unfold writeAt
  split
  · rename_i h; exact .inl ⟨(regAt_iff ha _).mp h, rfl⟩
  · rename_i h; exact .inr (.inl ⟨(regAt_iff ha _).mp h, rfl⟩)
  · rename_i h1 h2
    exact .inr (.inr ⟨fun e => h1 ((regAt_iff ha .cmd).mpr e), fun e => h2 ((regAt_iff ha .ctrl).mpr e), rfl⟩)

end Sys2Proof.Machine
end

