-- ==== Sys2Proof/Laws/CharEncoder.lean ====
section
/-! SUPPORT. The encoder and the pack engine: lengths, ranges of codes, and how the accumulator and its bytes determine
each other. -/

namespace Sys2Proof.Machine

/-! ## Lookup (41_char_encoder.md R111, R112) -/

/-- A second lower-casing changes nothing. -/
theorem lower_lower : ∀ b : Byte, lower (lower b) = lower b := by decide

theorem codeIndex_lt {A : List Byte} (h : (0x20 : Byte) ∈ A) (b : Byte) : codeIndex A b < A.length := by
  unfold codeIndex spaceIndex
  split
  · rename_i hb; exact List.idxOf_lt_length_of_mem hb
  · exact List.idxOf_lt_length_of_mem h

/-- A code fits a byte, so the emitted byte is the position. -/
theorem code_toNat {A : List Byte} (h : ValidAlphabet A) (b : Byte) : (code A b).toNat = codeIndex A b := by
  have hl := codeIndex_lt h.2.2.2 b
  have hm := h.2.1
  simp only [code, BitVec.toNat_ofNat]
  omega

theorem code_lt {A : List Byte} (h : ValidAlphabet A) (b : Byte) : (code A b).toNat < A.length :=
  code_toNat h b ▸ codeIndex_lt h.2.2.2 b

theorem spaceCode_eq_code (A : List Byte) : spaceCode A = code A 0x20 := by
  simp [spaceCode, code, codeIndex, spaceIndex]

/-- The symbol a code stands for: the character itself, or a space. -/
theorem getElem_codeIndex {A : List Byte} (h : (0x20 : Byte) ∈ A) (b : Byte) :
    A[codeIndex A b]? = some (if b ∈ A then b else 0x20) := by
  rw [List.getElem?_eq_getElem (codeIndex_lt h b)]
  unfold codeIndex spaceIndex
  split <;> simp

/-- Two characters have the same code exactly when they stand for the same symbol. -/
theorem code_eq_iff {A : List Byte} (h : ValidAlphabet A) (b b' : Byte) :
    code A b = code A b' ↔ (if b ∈ A then b else 0x20) = (if b' ∈ A then b' else 0x20) := by
  rw [← BitVec.toNat_inj, code_toNat h, code_toNat h]
  constructor
  · intro e
    have h1 := getElem_codeIndex h.2.2.2 b
    rw [e, getElem_codeIndex h.2.2.2 b'] at h1
    exact (Option.some.inj h1).symm
  · intro e
    have h1 : ∀ c : Byte, codeIndex A c = A.idxOf (if c ∈ A then c else 0x20) := by
      intro c; unfold codeIndex spaceIndex; split <;> rfl
    rw [h1, h1, e]

/-! ## The fixed-width encoder (41_char_encoder.md R113) -/

@[simp] theorem encodeText_length (A X : List Byte) (n : Nat) (pad : Bool) :
    (encodeText A X n pad).length = if pad then n else min X.length n := by
  cases pad
  · simp [encodeText, Nat.min_comm]
  · simp only [encodeText, if_true, List.length_append, List.length_map, List.length_take, List.length_replicate]
    omega

/-- Only the first n characters of the text matter (70_reset_and_hazards.md R282). -/
theorem encodeText_take (A X : List Byte) (n m : Nat) (pad : Bool) (h : n ≤ m) :
    encodeText A (X.take m) n pad = encodeText A X n pad := by
  simp [encodeText, ← List.map_take, List.take_take, Nat.min_eq_left h]

/-- Every emitted code is one of the alphabet's. -/
theorem encodeText_lt {A : List Byte} (h : ValidAlphabet A) (X : List Byte) (n : Nat) (pad : Bool) :
    ∀ c ∈ encodeText A X n pad, c.toNat < A.length := by
  have hc : ∀ c ∈ ((X.map lower).take n).map (code A), c.toNat < A.length := by
    intro c hc
    obtain ⟨b, _, rfl⟩ := List.mem_map.mp hc
    exact code_lt h b
  intro c hm
  cases pad
  · exact hc c (by simpa [encodeText] using hm)
  · simp only [encodeText, if_true, List.mem_append] at hm
    rcases hm with hm | hm
    · exact hc c hm
    · rw [(List.mem_replicate.mp hm).2, spaceCode_eq_code]; exact code_lt h _

/-! ## The accumulator (41_char_encoder.md R117) -/

@[simp] theorem packValue_nil (w : Nat) : packValue w [] = 0 := rfl
theorem packValue_cons (w : Nat) (c : Byte) (C : List Byte) :
    packValue w (c :: C) = c.toNat + 2 ^ w * packValue w C := rfl

/-- Later codes land above the earlier ones. -/
theorem packValue_append (w : Nat) (C C' : List Byte) :
    packValue w (C ++ C') = packValue w C + 2 ^ (w * C.length) * packValue w C' := by
  induction C with
  | nil => simp
  | cons c C ih =>
    rw [List.cons_append, packValue_cons, packValue_cons, ih, List.length_cons]
    ring

/-- Codes that fit their lanes fill no more than their lanes. -/
theorem packValue_lt {w : Nat} {C : List Byte} (h : ∀ c ∈ C, c.toNat < 2 ^ w) : packValue w C < 2 ^ (w * C.length) := by
  induction C with
  | nil => simp
  | cons c C ih =>
    have h1 := ih fun c' hc' => h c' (by simp [hc'])
    have h2 := h c (by simp)
    rw [packValue_cons, List.length_cons, Nat.mul_add, Nat.mul_one, Nat.pow_add]
    calc c.toNat + 2 ^ w * packValue w C < 2 ^ w + 2 ^ w * packValue w C := by omega
      _ = 2 ^ w * (packValue w C + 1) := by ring
      _ ≤ 2 ^ w * 2 ^ (w * C.length) := Nat.mul_le_mul_left _ h1
      _ = 2 ^ (w * C.length) * 2 ^ w := Nat.mul_comm _ _

/-- `byteCount V` bytes hold V, and no fewer do (41_char_encoder.md R117: "the least natural with `V < 2^(8m)`"). -/
theorem byteCount_le_iff {V : Nat} (h : V ≠ 0) (m : Nat) : byteCount V ≤ m ↔ V < 2 ^ (8 * m) := by
  rw [← Nat.log2_lt h]
  unfold byteCount
  omega

theorem pack_zero {z w : Nat} {C : List Byte} (h : packValue w C = 0) : pack z w C = List.replicate z 0 := by
  simp [pack, h]

theorem pack_nonzero {z w : Nat} {C : List Byte} (h : packValue w C ≠ 0) :
    pack z w C = (List.range (byteCount (packValue w C))).map fun j => BitVec.ofNat 8 (packValue w C >>> (8 * j)) := by
  simp [pack, h]

theorem pack_length {z w : Nat} {C : List Byte} (h : packValue w C ≠ 0) :
    (pack z w C).length = byteCount (packValue w C) := by simp [pack_nonzero h]

/-- The first m bytes of V, put together again. -/
theorem packValue_bytes (V m : Nat) :
    packValue 8 ((List.range m).map fun j => BitVec.ofNat 8 (V >>> (8 * j))) = V % 2 ^ (8 * m) := by
  induction m with
  | zero => simp [Nat.mod_one]
  | succ m ih =>
    rw [List.range_succ, List.map_append, packValue_append, ih]
    simp only [List.map_cons, List.map_nil, packValue_cons, packValue_nil, List.length_map, List.length_range,
      BitVec.toNat_ofNat, Nat.mul_zero, Nat.add_zero, Nat.shiftRight_eq_div_pow]
    rw [Nat.mul_add, Nat.mul_one, Nat.pow_add, Nat.mod_mul]

theorem packValue_zeros (w z : Nat) : packValue w (List.replicate z 0) = 0 := by
  induction z with
  | zero => rfl
  | succ z ih => rw [List.replicate_succ, packValue_cons, ih]; rfl

/-- "the bytes determine V" (41_char_encoder.md R121). -/
theorem packValue_pack (z w : Nat) (C : List Byte) : packValue 8 (pack z w C) = packValue w C := by
  by_cases h : packValue w C = 0
  · rw [pack_zero h, packValue_zeros, h]
  · rw [pack_nonzero h, packValue_bytes]
    exact Nat.mod_eq_of_lt ((byteCount_le_iff h _).mp (Nat.le_refl _))

/-! ## What the configuration guarantees (00_scope.md R9) -/

theorem alphabet_valid {c : Cfg} (h : c.Valid) (k : Alphabet) : ValidAlphabet (alphabet c k) := by
  obtain ⟨⟨h0, h1, h2, h3, _⟩, _⟩ := h
  cases k <;> assumption

theorem kTerm_ne_zero {c : Cfg} (h : c.Valid) : c.kTerm.toNat ≠ 0 := by
  have := h.1.2.2.2.2.2.1; omega

/-- PACK6's codes: the alphabet's, all below the terminator, which fits six bits. -/
theorem pack6_code_lt {c : Cfg} (h : c.Valid) (X : List Byte) :
    ∀ d ∈ encodeText c.alphaEep X 31 false, d.toNat < c.kTerm.toNat := fun d hd =>
  Nat.lt_of_lt_of_le (encodeText_lt (alphabet_valid h .eep) X 31 false d hd) h.1.2.2.2.2.2.2.2.1

theorem pack6_codes_fit {c : Cfg} (h : c.Valid) (X : List Byte) :
    ∀ d ∈ encodeText c.alphaEep X 31 false ++ [c.kTerm], d.toNat < 2 ^ 6 := by
  have hk : c.kTerm.toNat ≤ 63 := h.1.2.2.2.2.2.2.1
  intro d hd
  rcases List.mem_append.mp hd with hd | hd
  · have := pack6_code_lt h X d hd; omega
  · rw [List.mem_singleton.mp hd]; omega

/-- PACK4's codes fit four bits. -/
theorem pack4_codes_fit {c : Cfg} (h : c.Valid) (X : List Byte) :
    ∀ d ∈ encodeText c.alphaPhn X 12 false, d.toNat < 2 ^ 4 := by
  intro d hd
  have := encodeText_lt (alphabet_valid h .phn) X 12 false d hd
  have hl : c.alphaPhn.length = 16 := h.1.2.2.2.2.2.2.2.2.1
  simp only [alphabet] at this
  omega

/-- The terminator keeps the accumulator of PACK6 from being 0 (41_char_encoder.md R119). -/
theorem pack6_value_ne_zero {c : Cfg} (h : c.Valid) (X : List Byte) :
    packValue 6 (encodeText c.alphaEep X 31 false ++ [c.kTerm]) ≠ 0 := by
  rw [packValue_append]
  have hk := kTerm_ne_zero h
  have hp : 0 < 2 ^ (6 * (encodeText c.alphaEep X 31 false).length) := Nat.two_pow_pos _
  have : 0 < 2 ^ (6 * (encodeText c.alphaEep X 31 false).length) * packValue 6 [c.kTerm] :=
    Nat.mul_pos hp (by simp [packValue_cons]; omega)
  omega

/-- A PACK6 result has at most 24 bytes (41_char_encoder.md R120). -/
theorem pack6Bytes_length_le {c : Cfg} (h : c.Valid) (X : List Byte) : (pack6Bytes c X).length ≤ 24 := by
  have hne := pack6_value_ne_zero h X
  rw [pack6Bytes, alphabet, pack_length hne, byteCount_le_iff hne]
  refine Nat.lt_of_lt_of_le (packValue_lt (pack6_codes_fit h X)) (Nat.pow_le_pow_right (by decide) ?_)
  simp only [List.length_append, encodeText_length, List.length_singleton, Bool.false_eq_true, if_false]
  omega

/-- A PACK4 result has at most 6 bytes (41_char_encoder.md R122). -/
theorem pack4Bytes_length_le {c : Cfg} (h : c.Valid) (X : List Byte) : (pack4Bytes c X).length ≤ 6 := by
  unfold pack4Bytes
  by_cases hz : packValue 4 (encodeText (alphabet c .phn) X 12 false) = 0
  · have : c.packZeroLen ≤ 1 := h.1.2.2.2.2.2.2.2.2.2
    rw [pack_zero hz, List.length_replicate]; omega
  · rw [pack_length hz, byteCount_le_iff hz]
    refine Nat.lt_of_lt_of_le (packValue_lt (pack4_codes_fit h X)) (Nat.pow_le_pow_right (by decide) ?_)
    simp only [encodeText_length, Bool.false_eq_true, if_false]
    omega

/-- Text beyond the characters PACK6 uses does not matter (70_reset_and_hazards.md R282). -/
theorem pack6Bytes_take (c : Cfg) (X : List Byte) {m : Nat} (h : 31 ≤ m) : pack6Bytes c (X.take m) = pack6Bytes c X := by
  simp [pack6Bytes, encodeText_take _ _ _ _ _ h]

/-- Text beyond the characters PACK4 uses does not matter (70_reset_and_hazards.md R282). -/
theorem pack4Bytes_take (c : Cfg) (X : List Byte) {m : Nat} (h : 12 ≤ m) : pack4Bytes c (X.take m) = pack4Bytes c X := by
  simp [pack4Bytes, encodeText_take _ _ _ _ _ h]

end Sys2Proof.Machine
end

