-- ==== Sys2Proof/Laws/Decode.lean ====
section
/-! SUPPORT. The command word's fields and the selectors: what decoding an encoded field gives. -/

namespace Sys2Proof

/-- Concatenation of bit vectors as arithmetic. -/
theorem toNat_append_add {n m : Nat} (x : BitVec n) (y : BitVec m) :
    (x ++ y).toNat = x.toNat * 2 ^ m + y.toNat := by
  rw [BitVec.toNat_append, Nat.shiftLeft_eq, Nat.mul_comm, Nat.two_pow_add_eq_or_of_lt y.isLt]

/-! ## Fields (30_encoding.md R70) -/

theorem fieldOp_toNat (w : Word) : (fieldOp w).toNat = w.toNat / 2 ^ 24 % 2 ^ 8 := by
  simp [fieldOp, Nat.shiftRight_eq_div_pow]

theorem fieldA_toNat (w : Word) : (fieldA w).toNat = w.toNat / 2 ^ 16 % 2 ^ 8 := by
  simp [fieldA, Nat.shiftRight_eq_div_pow]

theorem fieldB_toNat (w : Word) : (fieldB w).toNat = w.toNat / 2 ^ 8 % 2 ^ 8 := by
  simp [fieldB, Nat.shiftRight_eq_div_pow]

theorem fieldC_toNat (w : Word) : (fieldC w).toNat = w.toNat % 2 ^ 8 := by
  simp [fieldC]

theorem ofFields_toNat (op a b c : Byte) :
    (ofFields op a b c).toNat = op.toNat * 2 ^ 24 + a.toNat * 2 ^ 16 + b.toNat * 2 ^ 8 + c.toNat := by
  unfold ofFields
  rw [toNat_append_add, toNat_append_add, toNat_append_add]
  omega

@[simp] theorem fieldOp_ofFields (op a b c : Byte) : fieldOp (ofFields op a b c) = op := by
  apply BitVec.eq_of_toNat_eq
  rw [fieldOp_toNat, ofFields_toNat]
  omega

@[simp] theorem fieldA_ofFields (op a b c : Byte) : fieldA (ofFields op a b c) = a := by
  apply BitVec.eq_of_toNat_eq
  rw [fieldA_toNat, ofFields_toNat]
  omega

@[simp] theorem fieldB_ofFields (op a b c : Byte) : fieldB (ofFields op a b c) = b := by
  apply BitVec.eq_of_toNat_eq
  rw [fieldB_toNat, ofFields_toNat]
  omega

@[simp] theorem fieldC_ofFields (op a b c : Byte) : fieldC (ofFields op a b c) = c := by
  apply BitVec.eq_of_toNat_eq
  rw [fieldC_toNat, ofFields_toNat]
  omega

/-- A word is its four fields. -/
theorem ofFields_fields (w : Word) : ofFields (fieldOp w) (fieldA w) (fieldB w) (fieldC w) = w := by
  apply BitVec.eq_of_toNat_eq
  rw [ofFields_toNat, fieldOp_toNat, fieldA_toNat, fieldB_toNat, fieldC_toNat]
  omega

/-- Decoding a word made of four fields looks at the four fields. -/
theorem decode_ofFields (op a b c : Byte) : decode (ofFields op a b c) = decodeFields op a b c := by
  simp [decode]

theorem fieldOp_and (w m : Word) : fieldOp (w &&& m) = fieldOp w &&& fieldOp m := by ext i hi; simp [fieldOp]
theorem fieldA_and (w m : Word) : fieldA (w &&& m) = fieldA w &&& fieldA m := by ext i hi; simp [fieldA]
theorem fieldB_and (w m : Word) : fieldB (w &&& m) = fieldB w &&& fieldB m := by ext i hi; simp [fieldB]
theorem fieldC_and (w m : Word) : fieldC (w &&& m) = fieldC w &&& fieldC m := by ext i hi; simp [fieldC]

/-- Masking a word masks its fields. -/
theorem ofFields_and (op a b c mo ma mb mc : Byte) :
    ofFields op a b c &&& ofFields mo ma mb mc = ofFields (op &&& mo) (a &&& ma) (b &&& mb) (c &&& mc) := by
  rw [← ofFields_fields (ofFields op a b c &&& ofFields mo ma mb mc)]
  simp [fieldOp_and, fieldA_and, fieldB_and, fieldC_and]

/-- Words agree exactly when their fields do. -/
theorem ofFields_inj {op a b c op' a' b' c' : Byte} :
    ofFields op a b c = ofFields op' a' b' c' ↔ op = op' ∧ a = a' ∧ b = b' ∧ c = c' := by
  refine ⟨fun h => ⟨?_, ?_, ?_, ?_⟩, fun ⟨h1, h2, h3, h4⟩ => by rw [h1, h2, h3, h4]⟩
  · simpa using congrArg fieldOp h
  · simpa using congrArg fieldA h
  · simpa using congrArg fieldB h
  · simpa using congrArg fieldC h

/-- The buffer selector's bits of a word are the low bits of its `a` field (30_encoding.md R71). -/
theorem selectorBits_ofFields (op a b c : Byte) : (ofFields op a b c).extractLsb' 16 2 = a.extractLsb' 0 2 := by
  apply BitVec.eq_of_toNat_eq
  simp only [BitVec.extractLsb'_toNat, Nat.shiftRight_eq_div_pow, ofFields_toNat]
  omega

/-! ## Well-formedness (30_encoding.md R73 to R75): what the check asks of the natural operands -/

theorem wf_enc (alpha : Alphabet) (n : Nat) (pad : Bool) : (Instr.enc alpha n pad).WellFormed ↔ n < 256 := by
  simp [Instr.WellFormed, Instr.wf]

theorem wf_page (h0 h1 : Byte) (cs : Nat) : (Instr.page h0 h1 cs).WellFormed ↔ cs < 256 := by
  simp [Instr.WellFormed, Instr.wf]

theorem wf_pagef (h0 h1 : Byte) (cs : Nat) : (Instr.pagef h0 h1 cs).WellFormed ↔ cs < 256 := by
  simp [Instr.WellFormed, Instr.wf]

theorem wf_pcnt (cs : Nat) : (Instr.pcnt cs).WellFormed ↔ cs < 256 := by simp [Instr.WellFormed, Instr.wf]

theorem wf_gsync (n : Nat) : (Instr.gsync n).WellFormed ↔ n < 65536 := by simp [Instr.WellFormed, Instr.wf]

/-! ## Selectors (30_encoding.md R76, R77) -/

@[simp] theorem bufOfSel_sel (b : Buf) : bufOfSel b.sel = some b := by cases b <;> rfl

theorem sel_of_bufOfSel : ∀ {s : BitVec 2} {b : Buf}, bufOfSel s = some b → b.sel = s := by decide +revert

theorem bufOfSel_none : ∀ s : BitVec 2, bufOfSel s = none ↔ s = 3 := by decide

@[simp] theorem alphabetOfSel_sel (a : Alphabet) : alphabetOfSel a.sel = a := by cases a <;> rfl

@[simp] theorem sel_alphabetOfSel : ∀ s : BitVec 2, (alphabetOfSel s).sel = s := by decide

/-! ## The `a` field of formats E and A -/

@[simp] theorem padAlpha_high (alpha : Alphabet) (pad : Bool) :
    (encodePadAlpha alpha pad).extractLsb' 3 5 = 0 := by cases alpha <;> cases pad <;> decide

@[simp] theorem padAlpha_alpha (alpha : Alphabet) (pad : Bool) :
    (encodePadAlpha alpha pad).extractLsb' 0 2 = alpha.sel := by cases alpha <;> cases pad <;> decide

@[simp] theorem padAlpha_pad (alpha : Alphabet) (pad : Bool) :
    (encodePadAlpha alpha pad)[2] = pad := by cases alpha <;> cases pad <;> decide

/-- An `a` field with its high bits 0 is what the encoder makes of its parts. -/
theorem padAlpha_eta : ∀ {a : Byte}, a.extractLsb' 3 5 = 0 →
    encodePadAlpha (alphabetOfSel (a.extractLsb' 0 2)) (a.getLsbD 2) = a := by decide +revert

end Sys2Proof
end

