-- ==== Sys2Proof/Laws/Framers.lean ====
section
/-! SUPPORT. The framers: lengths of frames, and the linearity of the CRC shift register. -/

namespace Sys2Proof.Machine

/-! ## Lengths (42_framers.md R134, R138) -/

@[simp] theorem frame_length (X : List Byte) : (frame X).length = X.length + 3 := by simp [frame]

theorem frame_ne_nil (X : List Byte) : frame X ≠ [] := by simp [frame]

@[simp] theorem frameLen_length (X : List Byte) : (frameLen X).length = X.length + 1 := by simp [frameLen]

/-! ## The shift register (42_framers.md R131) -/

@[simp] theorem crc16_nil : crc16 [] = 0 := rfl

/-- The register after more bytes. -/
theorem crc16_append (X Y : List Byte) : crc16 (X ++ Y) = Y.foldl crcByte (crc16 X) := by
  simp [crc16, List.foldl_append]

/-- A shift is linear over exclusive or. -/
theorem crcShift_xor (a b : Half) : crcShift (a ^^^ b) = crcShift a ^^^ crcShift b := by
  unfold crcShift
  rw [BitVec.getLsbD_xor, BitVec.ushiftRight_xor_distrib]
  cases a.getLsbD 0 <;> cases b.getLsbD 0 <;>
    simp only [Bool.xor_false, Bool.xor_true, Bool.not_true, Bool.not_false, Bool.false_eq_true, if_true, if_false]
  · rw [BitVec.xor_assoc]
  · rw [BitVec.xor_assoc, BitVec.xor_assoc, BitVec.xor_comm 0xA001]
  · rw [BitVec.xor_assoc, BitVec.xor_comm _ (b >>> 1 ^^^ 0xA001), BitVec.xor_assoc (b >>> 1), BitVec.xor_self,
      BitVec.xor_zero]

theorem crcShifts_xor (k : Nat) (a b : Half) : crcShifts k (a ^^^ b) = crcShifts k a ^^^ crcShifts k b := by
  induction k generalizing a b with
  | zero => rfl
  | succ k ih => rw [crcShifts, crcShift_xor, ih]; rfl

/-- Bits that have not reached the low end are only shifted. -/
theorem crcShifts_high (k : Nat) (a : Half) (h : ∀ i < k, a.getLsbD i = false) : crcShifts k a = a >>> k := by
  induction k generalizing a with
  | zero => simp [crcShifts]
  | succ k ih =>
    have h0 : crcShift a = a >>> 1 := by rw [crcShift, h 0 (by omega)]; simp
    rw [crcShifts, h0, ih _ fun i hi => by rw [BitVec.getLsbD_ushiftRight]; exact h _ (by omega),
      ← BitVec.shiftRight_add, Nat.add_comm]

end Sys2Proof.Machine
end

