-- ==== Sys2Proof/Laws/Paginator.lean ====
section
/-! SUPPORT. The paginator: the packet count as a bound, and the packets one by one. -/

namespace Sys2Proof.Machine

/-! ## The packet count (43_paginator.md R150) -/

theorem one_le_npk (L cs : Nat) : 1 ≤ npk L cs := by unfold npk; omega

/-- `m` chunks are enough exactly when they hold the data. -/
theorem npk_le_iff {L cs m : Nat} (h : 1 ≤ cs) (hm : 1 ≤ m) : npk L cs ≤ m ↔ L ≤ m * cs := by
  unfold npk
  rw [Nat.max_le, and_iff_right hm, ← Nat.lt_succ_iff, Nat.div_lt_iff_lt_mul h, Nat.succ_mul]
  omega

theorem le_npk_mul {L cs : Nat} (h : 1 ≤ cs) : L ≤ npk L cs * cs := (npk_le_iff h (one_le_npk L cs)).mp (Nat.le_refl _)

/-! ## The packets (43_paginator.md R151) -/

/-- The packets, counted from 0. -/
theorem paginate_eq (h0 h1 : Byte) (cs : Nat) (X : List Byte) :
    paginate h0 h1 cs X =
      (List.range (npk X.length cs)).map fun j => h0 :: h1 :: BitVec.ofNat 8 (j + 1) :: chunk cs X (j + 1) := by
  unfold paginate
  rw [List.range'_eq_map_range, List.map_map]
  exact List.map_congr_left fun j _ => by simp [Nat.add_comm]

@[simp] theorem paginate_length (h0 h1 : Byte) (cs : Nat) (X : List Byte) :
    (paginate h0 h1 cs X).length = npk X.length cs := by simp [paginate]

/-- Everything a packet can be. -/
theorem mem_paginate {h0 h1 : Byte} {cs : Nat} {X p : List Byte} (hp : p ∈ paginate h0 h1 cs X) :
    ∃ j < npk X.length cs, p = h0 :: h1 :: BitVec.ofNat 8 (j + 1) :: chunk cs X (j + 1) := by
  rw [paginate_eq, List.mem_map] at hp
  obtain ⟨j, hj, rfl⟩ := hp
  exact ⟨j, List.mem_range.mp hj, rfl⟩

theorem paginate_ne_nil {h0 h1 : Byte} {cs : Nat} {X : List Byte} : ∀ p ∈ paginate h0 h1 cs X, p ≠ [] := by
  intro p hp
  obtain ⟨_, _, rfl⟩ := mem_paginate hp
  simp

theorem chunk_length_le (cs : Nat) (X : List Byte) (i : Nat) : (chunk cs X i).length ≤ min cs X.length := by
  simp [chunk]

/-- The first n chunks hold the first `n * cs` bytes. -/
theorem chunks_flatten (cs : Nat) (X : List Byte) (n : Nat) :
    ((List.range n).map fun j => chunk cs X (j + 1)).flatten = X.take (n * cs) := by
  induction n with
  | zero => simp
  | succ n ih =>
    rw [List.range_succ, List.map_append, List.flatten_append, ih]
    simp only [List.map_cons, List.map_nil, List.flatten_cons, List.flatten_nil, List.append_nil, chunk,
      Nat.add_sub_cancel]
    rw [Nat.succ_mul, List.take_add]

/-- Lists that are given a head of k elements each. -/
theorem length_flatten_map_append {α : Type} (f g : α → List Byte) (k : Nat) (h : ∀ a, (f a).length = k + (g a).length)
    (l : List α) : (l.map f).flatten.length = k * l.length + (l.map g).flatten.length := by
  induction l with
  | nil => simp
  | cons a l ih =>
    simp only [List.map_cons, List.flatten_cons, List.length_append, h, ih, List.length_cons, Nat.mul_succ]
    omega

/-- Framing adds three bytes to every packet (43_paginator.md R156). -/
theorem framed_flatten_length (ps : List (List Byte)) :
    (ps.map frame).flatten.length = 3 * ps.length + ps.flatten.length := by
  have := length_flatten_map_append frame id 3 (fun X => by simp [Nat.add_comm]) ps
  simpa using this

end Sys2Proof.Machine
end

