-- ==== Sys2Proof/Laws/HostSequences.lean ====
section
/-! SUPPORT. The host's work above the block: when a group has packets and which, when a list item can be built, when the
aggregator's data is acceptable. -/

namespace Sys2Proof.Machine

/-! ## Groups (45_host_sequences.md R200) -/

/-- No packet of the paginator is longer than its header, its index and one chunk (43_paginator.md R153 (d)). -/
theorem length_le_of_mem_paginate {h0 h1 : Byte} {cs : Nat} {X p : List Byte} (hp : p ∈ paginate h0 h1 cs X) :
    p.length ≤ 3 + min cs X.length := by
  obtain ⟨j, _, rfl⟩ := mem_paginate hp
  have := chunk_length_le cs X (j + 1)
  simp only [List.length_cons]
  omega

/-- A group inside the domain of `paginate` and `frame` has its packets, each framed, in order. -/
theorem groupPackets_eq {leading : List (List Byte)} {hdr : Byte × Byte} {cs : Nat} {X last : List Byte} (h1 : 1 ≤ cs)
    (h2 : cs ≤ 255) (hn : npk X.length cs ≤ 255) (hm : min cs X.length ≤ 249) (hl : ∀ p ∈ leading, p.length ≤ 252)
    (he : last.length ≤ 252) :
    groupPackets leading hdr cs X last =
      some (leading.map frame ++ (paginate hdr.1 hdr.2 cs X).map frame ++ [frame last]) := by
  have hall : (leading ++ paginate hdr.1 hdr.2 cs X ++ [last]).all (·.length ≤ 252) = true := by
    simp only [List.all_append, List.all_cons, List.all_nil, Bool.and_true, Bool.and_eq_true, List.all_eq_true,
      decide_eq_true_eq]
    refine ⟨⟨hl, fun p hp => ?_⟩, he⟩
    have := length_le_of_mem_paginate hp
    omega
  rw [groupPackets, dataPayloads, if_pos ⟨h1, h2, hn⟩, Option.bind_some, framedGroup, if_pos hall]
  simp

/-! ## List items (45_host_sequences.md R209) -/

/-- An item whose priority is absent or 1 to 5 is built as given. -/
theorem ListItem.construct_valid (entry : List Byte) {priority : Option Nat} (h : ∀ p ∈ priority, 1 ≤ p ∧ p ≤ 5) :
    ListItem.construct entry priority = some ⟨entry, priority, h⟩ := by
  cases priority with
  | none => rfl
  | some p => exact dif_pos (h p rfl)

/-- Any other is not built. -/
theorem ListItem.construct_invalid (entry : List Byte) {p : Nat} (h : ¬(1 ≤ p ∧ p ≤ 5)) :
    ListItem.construct entry (some p) = none := dif_neg h

/-- The priority byte is the priority, 0 if there is none. -/
theorem ListItem.priorityByte_toNat (x : ListItem) : x.priorityByte.toNat = x.priority.getD 0 := by
  obtain ⟨entry, priority, hv⟩ := x
  cases priority with
  | none => rfl
  | some p =>
    have := hv p rfl
    simp only [ListItem.priorityByte, Option.getD_some, BitVec.toNat_ofNat]
    omega

/-! ## The aggregator (45_host_sequences.md R212 to R220) -/

@[simp] theorem EepromData.payload_length (c : Cfg) (e : EepromData) :
    (e.payload c).length = (e.appointments.flatMap (Appointment.record c)).length +
      (e.lists.flatMap (ListItem.record c)).length + (e.phones.flatMap (PhoneNumber.record c)).length +
      (e.anniversaries.flatMap (Anniversary.record c)).length := by
  simp only [EepromData.payload, EepromData.sections, List.flatten_cons, List.flatten_nil, List.append_nil,
    List.length_append]
  omega

/-- What makes data acceptable: the counts and the number of packets. The addresses then fit, since 255 packets hold 8160
bytes. -/
theorem EepromData.acceptable_iff (c : Cfg) (e : EepromData) (hd : 8160 ≤ c.dSize) :
    e.acceptable c = true ↔ (∀ n ∈ e.counts, n ≤ 255) ∧ (e.payload c).length ≤ 8160 := by
  have hn : npk (e.payload c).length 32 ≤ 255 ↔ (e.payload c).length ≤ 8160 := npk_le_iff (by omega) (by omega)
  simp only [EepromData.acceptable, Bool.and_eq_true, List.all_eq_true, decide_eq_true_eq, hn]
  constructor
  · exact fun h => ⟨h.1.1.1, h.2⟩
  · intro h
    refine ⟨⟨⟨h.1, fun A hA => ?_⟩, by omega⟩, h.2⟩
    have hl := h.2
    rw [EepromData.payload_length] at hl
    simp only [EepromData.sections, runningAddresses, List.mem_cons, List.not_mem_nil, or_false] at hA
    omega

/-- The notification code is the position in the list of lead-times (45_host_sequences.md R212). -/
theorem notificationCode_eq_none {m : Nat} (h : m ∉ ([0, 5, 10, 15, 20, 25, 30] : List Nat)) :
    notificationCode (some m) = none := by
  simp only [notificationCode, List.idxOf?, Option.map_eq_none_iff, List.findIdx?_eq_none_iff]
  exact fun x hx => beq_false_of_ne fun e => h (e ▸ hx)

/-- The year in the header is the least of the appointments' years (45_host_sequences.md R216). -/
theorem EepromData.earliestYear_eq {e : EepromData} {year : Byte}
    (h : e.appointments = [] ∧ year = 0 ∨
      (∃ x ∈ e.appointments, year = x.year) ∧ ∀ x ∈ e.appointments, year.toNat ≤ x.year.toNat) :
    e.earliestYear = year := by
  rcases h with ⟨h, rfl⟩ | ⟨⟨x, hx, rfl⟩, hle⟩
  · rw [EepromData.earliestYear, h]; rfl
  · have : (e.appointments.map (·.year.toNat)).min? = some x.year.toNat := by
      rw [List.min?_eq_some_iff]
      exact ⟨List.mem_map.mpr ⟨x, hx, rfl⟩, fun b hb => by obtain ⟨y, hy, rfl⟩ := List.mem_map.mp hb; exact hle y hy⟩
    rw [EepromData.earliestYear, this, Option.getD_some, BitVec.ofNat_toNat, BitVec.setWidth_eq]

end Sys2Proof.Machine
end

