-- ==== Sys2Proof/Laws/Invariant.lean ====
section
/-! SUPPORT. The invariant of 10_state.md R41 through the shared operations: what each of them needs in order to keep
it. -/

namespace Sys2Proof.Machine

/-- Outside the fault state the invariant is: everything fits, O ends with a whole packet, CAUSE is 0 and ERR is no
cause. -/
theorem inv_running_iff {c : Cfg} {s : State} (h : s.FAULT = false) :
    s.Inv c ↔ s.T.length ≤ c.tSize ∧ s.R.length ≤ c.rSize ∧ s.D.length ≤ c.dSize ∧ s.O.length ≤ c.oSize ∧
      endsPacket s.O ∧ s.CAUSE = 0 ∧ s.ERR.toNat ≤ 8 := by
  constructor
  · intro i
    refine ⟨i.tFits, i.rFits, i.dFits, i.oFits, i.oEnds, i.causeIff.mpr h, ?_⟩
    rcases i.errCode with e | ⟨e, _⟩
    · exact e
    · rw [h] at e; cases e
  · rintro ⟨h1, h2, h3, h4, h5, h6, h7⟩
    exact ⟨h1, h2, h3, h4, h5, by simp [h, h6], by simp [h], .inl h6, .inl h7, by simp [h]⟩

theorem Code.byte_le (e : Code) : e.byte.toNat ≤ 8 := by cases e <;> decide

/-- A rejection keeps the invariant outside the fault state. -/
theorem inv_reject {c : Cfg} {s : State} (hf : s.FAULT = false) (h : s.Inv c) (e : Code) : (reject e s).Inv c := by
  rw [inv_running_iff hf] at h
  rw [inv_running_iff (by exact hf)]
  obtain ⟨h1, h2, h3, h4, h5, h6, _⟩ := h
  exact ⟨h1, h2, h3, h4, h5, h6, Code.byte_le e⟩

/-- The rejection of the fault state keeps the invariant there. -/
theorem inv_reject_faulted {c : Cfg} {s : State} (h : s.Inv c) : (reject .faulted s).Inv c :=
  ⟨h.tFits, h.rFits, h.dFits, h.oFits, h.oEnds, h.causeIff, h.faultEmpty, h.causeCode,
    .inl (by simp [Code.byte]), fun _ => .inr rfl⟩

/-- Ending a command keeps the invariant outside the fault state. -/
theorem inv_done {c : Cfg} {s : State} (hf : s.FAULT = false) (h : s.Inv c) : (done s).Inv c := by
  rw [inv_running_iff hf] at h
  rw [inv_running_iff (by exact hf)]
  obtain ⟨h1, h2, h3, h4, h5, h6, _⟩ := h
  exact ⟨h1, h2, h3, h4, h5, h6, by simp⟩

/-- Fatal fault entry reaches the invariant from any state, for the two causes the block raises. -/
theorem inv_raiseFault (c : Cfg) (s : State) {f : Cause} (hf : f ≠ .priority) : (raiseFault f s).Inv c := by
  cases f with
  | priority => exact absurd rfl hf
  | zone => constructor <;> simp [endsPacket, Cause.byte]
  | alarmNo => constructor <;> simp [endsPacket, Cause.byte]

/-- A reset reaches the invariant from any state. -/
theorem inv_resetBlock (c : Cfg) (s : State) : (resetBlock s).Inv c := by
  constructor <;> simp [endsPacket]

/-- The invariant does not speak of the model's own fields. -/
theorem inv_host_fields {c : Cfg} {s : State} (h : s.Inv c) (a : List Access) (v : Word) :
    ({ s with accesses := a, rdata := v } : State).Inv c :=
  ⟨h.tFits, h.rFits, h.dFits, h.oFits, h.oEnds, h.causeIff, h.faultEmpty, h.causeCode, h.errCode, h.faultErr⟩

/-- An append keeps the invariant if what follows it does. -/
theorem inv_withAppend {c : Cfg} {b : Buf} {x : List Byte} {s : State} {next : State → State} (hf : s.FAULT = false)
    (h : s.Inv c) (hn : ∀ u : State, u.FAULT = false → u.Inv c → (next u).Inv c) :
    (withAppend c b x s next).Inv c := by
  rcases withAppend_cases c b x s next with ⟨_, e⟩ | ⟨hl, e⟩ <;> rw [e]
  · exact inv_reject hf h _
  · refine hn _ (by simpa using hf) ?_
    rw [inv_running_iff hf] at h
    rw [inv_running_iff (by simpa using hf)]
    obtain ⟨h1, h2, h3, h4, h5, h6, h7⟩ := h
    cases b <;> simp at hl ⊢ <;> exact ⟨by omega, by omega, by omega, h4, h5, h6, h7⟩

/-- An emission keeps the invariant if the size it is checked with covers its packets and what follows keeps it. -/
theorem inv_withEmit {c : Cfg} {size : Nat} {ps : List (List Byte)} {s : State} {next : State → State}
    (hf : s.FAULT = false) (h : s.Inv c) (hs : ps.flatten.length ≤ size)
    (hn : ∀ u : State, u.FAULT = false → u.Inv c → (next u).Inv c) : (withEmit c size ps s next).Inv c := by
  rcases withEmit_cases c size ps s next with ⟨_, e⟩ | ⟨hl, e⟩ <;> rw [e]
  · exact inv_reject hf h _
  · refine hn _ hf ?_
    rw [inv_running_iff hf] at h
    rw [inv_running_iff (by exact hf)]
    obtain ⟨h1, h2, h3, h4, h5, h6, h7⟩ := h
    refine ⟨h1, h2, h3, ?_, endsPacket_append h5 (endsPacket_flatMap ps), h6, h7⟩
    rw [List.length_append, flatMap_entries_length]
    omega

/-- Taking an entry off the queue keeps the invariant. -/
theorem inv_popO {c : Cfg} {s : State} (h : s.Inv c) : (popO s).2.Inv c := by
  rcases popO_cases s with ⟨_, e⟩ | ⟨x, rest, hf, ho, e⟩ <;> rw [e]
  · exact h
  · rw [inv_running_iff hf] at h
    rw [inv_running_iff (by exact hf)]
    obtain ⟨h1, h2, h3, h4, h5, h6, h7⟩ := h
    refine ⟨h1, h2, h3, ?_, ?_, h6, h7⟩
    · simp only [ho, List.length_cons] at h4; simp only; omega
    · intro y hy
      refine h5 y ?_
      simp only at hy
      have hne : rest ≠ [] := by rintro rfl; cases hy
      rw [ho, List.getLast?_cons_of_ne_nil hne]
      exact hy

end Sys2Proof.Machine
end

