-- ==== Sys2Proof/Laws/PerInstr.lean ====
section
/-! SUPPORT. A statement made for every instruction, one lemma per constructor of `Instr`: its word meets its row of the
opcode table. -/

namespace Sys2Proof.Laws

/-- The word of a well-formed instruction meets the row of 30_encoding.md R79 that has its mnemonic. -/
def EncodesRow.Statement (i : Instr) : Prop :=
  i.WellFormed → ∀ row ∈ opcodeTable, row.mnemonic = i.mnemonic → row.accepts (encode i) = true

/-- A row's condition, field by field. -/
theorem accepts_ofFields {row : TableRow} {mo ma mb mc ko ka kb kc : Byte} (op a b c : Byte)
    (hm : row.mask = ofFields mo ma mb mc) (hk : row.code = ofFields ko ka kb kc) :
    row.accepts (ofFields op a b c) = true ↔
      (op &&& mo = ko ∧ a &&& ma = ka ∧ b &&& mb = kb ∧ c &&& mc = kc) ∧
        (row.selectorNot3 = true → a.extractLsb' 0 2 ≠ 3) := by
  simp only [TableRow.accepts, hm, hk, ofFields_and, selectorBits_ofFields, Bool.and_eq_true, beq_iff_eq,
    ofFields_inj, Bool.not_eq_true', Bool.and_eq_false_iff]
  cases row.selectorNot3 <;> simp

/-- What holds of the one row with a mnemonic holds of every row with it. -/
theorem onlyRow {m : String} {r : TableRow} {P : TableRow → Prop} (hf : opcodeTable.filter (·.mnemonic == m) = [r])
    (h : P r) : ∀ row ∈ opcodeTable, row.mnemonic = m → P row := by
  intro row hr hm
  have hmem : row ∈ opcodeTable.filter (·.mnemonic == m) := by simp [hr, hm]
  rw [hf, List.mem_singleton] at hmem
  exact hmem ▸ h

theorem EncodesRow.nop : EncodesRow.Statement (.nop) := fun _ =>
  onlyRow (r := ⟨"NOP", 0x00000000, 0xFFFFFFFF, false⟩) rfl
    ((accepts_ofFields (mo := 0xFF) (ma := 0xFF) (mb := 0xFF) (mc := 0xFF) (ko := 0x00) (ka := 0) (kb := 0) (kc := 0)
      _ _ _ _ rfl rfl).mpr (by simp))

theorem EncodesRow.putb (buf : Buf) (imm8 : Byte) : EncodesRow.Statement (.putb buf imm8) := fun _ =>
  onlyRow (r := ⟨"PUTB", 0x01000000, 0xFFFCFF00, true⟩) rfl
    ((accepts_ofFields (mo := 0xFF) (ma := 0xFC) (mb := 0xFF) (mc := 0x00) (ko := 0x01) (ka := 0) (kb := 0) (kc := 0)
      _ _ _ _ rfl rfl).mpr ⟨⟨by decide, by cases buf <;> decide, by decide, by simp⟩, by cases buf <;> decide⟩)

theorem EncodesRow.setp (idx : Fin 16) (imm8 : Byte) : EncodesRow.Statement (.setp idx imm8) := fun _ =>
  onlyRow (r := ⟨"SETP", 0x02000000, 0xFFF0FF00, false⟩) rfl
    ((accepts_ofFields (mo := 0xFF) (ma := 0xF0) (mb := 0xFF) (mc := 0x00) (ko := 0x02) (ka := 0) (kb := 0) (kc := 0)
      _ _ _ _ rfl rfl).mpr ⟨⟨by decide, by fin_cases idx <;> decide, by decide, by simp⟩, by simp⟩)

theorem EncodesRow.clrb (mask : BitVec 4) : EncodesRow.Statement (.clrb mask) := fun _ =>
  onlyRow (r := ⟨"CLRB", 0x03000000, 0xFFFFFFF0, false⟩) rfl
    ((accepts_ofFields (mo := 0xFF) (ma := 0xFF) (mb := 0xFF) (mc := 0xF0) (ko := 0x03) (ka := 0) (kb := 0) (kc := 0)
      _ _ _ _ rfl rfl).mpr (by revert mask; decide))

theorem EncodesRow.enc (alpha : Alphabet) (maxlen : Nat) (pad : Bool) : EncodesRow.Statement (.enc alpha maxlen pad) := fun _ =>
  onlyRow (r := ⟨"ENC", 0x10000000, 0xFFF8FF00, false⟩) rfl
    ((accepts_ofFields (mo := 0xFF) (ma := 0xF8) (mb := 0xFF) (mc := 0x00) (ko := 0x10) (ka := 0) (kb := 0) (kc := 0)
      _ _ _ _ rfl rfl).mpr ⟨⟨by decide, by cases alpha <;> cases pad <;> decide, by decide, by simp⟩, by simp⟩)

theorem EncodesRow.pack6 : EncodesRow.Statement (.pack6) := fun _ =>
  onlyRow (r := ⟨"PACK6", 0x11000000, 0xFFFFFFFF, false⟩) rfl
    ((accepts_ofFields (mo := 0xFF) (ma := 0xFF) (mb := 0xFF) (mc := 0xFF) (ko := 0x11) (ka := 0) (kb := 0) (kc := 0)
      _ _ _ _ rfl rfl).mpr (by simp))

theorem EncodesRow.pack4 : EncodesRow.Statement (.pack4) := fun _ =>
  onlyRow (r := ⟨"PACK4", 0x12000000, 0xFFFFFFFF, false⟩) rfl
    ((accepts_ofFields (mo := 0xFF) (ma := 0xFF) (mb := 0xFF) (mc := 0xFF) (ko := 0x12) (ka := 0) (kb := 0) (kc := 0)
      _ _ _ _ rfl rfl).mpr (by simp))

theorem EncodesRow.fcrc : EncodesRow.Statement (.fcrc) := fun _ =>
  onlyRow (r := ⟨"FCRC", 0x20000000, 0xFFFFFFFF, false⟩) rfl
    ((accepts_ofFields (mo := 0xFF) (ma := 0xFF) (mb := 0xFF) (mc := 0xFF) (ko := 0x20) (ka := 0) (kb := 0) (kc := 0)
      _ _ _ _ rfl rfl).mpr (by simp))

theorem EncodesRow.flen : EncodesRow.Statement (.flen) := fun _ =>
  onlyRow (r := ⟨"FLEN", 0x21000000, 0xFFFFFFFF, false⟩) rfl
    ((accepts_ofFields (mo := 0xFF) (ma := 0xFF) (mb := 0xFF) (mc := 0xFF) (ko := 0x21) (ka := 0) (kb := 0) (kc := 0)
      _ _ _ _ rfl rfl).mpr (by simp))

theorem EncodesRow.emit : EncodesRow.Statement (.emit) := fun _ =>
  onlyRow (r := ⟨"EMIT", 0x22000000, 0xFFFFFFFF, false⟩) rfl
    ((accepts_ofFields (mo := 0xFF) (ma := 0xFF) (mb := 0xFF) (mc := 0xFF) (ko := 0x22) (ka := 0) (kb := 0) (kc := 0)
      _ _ _ _ rfl rfl).mpr (by simp))

theorem EncodesRow.page (h0 : Byte) (h1 : Byte) (cs : Nat) : EncodesRow.Statement (.page h0 h1 cs) := fun _ =>
  onlyRow (r := ⟨"PAGE", 0x30000000, 0xFF000000, false⟩) rfl
    ((accepts_ofFields (mo := 0xFF) (ma := 0x00) (mb := 0x00) (mc := 0x00) (ko := 0x30) (ka := 0) (kb := 0) (kc := 0)
      _ _ _ _ rfl rfl).mpr (by simp))

theorem EncodesRow.pagef (h0 : Byte) (h1 : Byte) (cs : Nat) : EncodesRow.Statement (.pagef h0 h1 cs) := fun _ =>
  onlyRow (r := ⟨"PAGEF", 0x31000000, 0xFF000000, false⟩) rfl
    ((accepts_ofFields (mo := 0xFF) (ma := 0x00) (mb := 0x00) (mc := 0x00) (ko := 0x31) (ka := 0) (kb := 0) (kc := 0)
      _ _ _ _ rfl rfl).mpr (by simp))

theorem EncodesRow.pcnt (cs : Nat) : EncodesRow.Statement (.pcnt cs) := fun _ =>
  onlyRow (r := ⟨"PCNT", 0x32000000, 0xFFFFFF00, false⟩) rfl
    ((accepts_ofFields (mo := 0xFF) (ma := 0xFF) (mb := 0xFF) (mc := 0x00) (ko := 0x32) (ka := 0) (kb := 0) (kc := 0)
      _ _ _ _ rfl rfl).mpr (by simp))

theorem EncodesRow.gsync (n : Nat) : EncodesRow.Statement (.gsync n) := fun _ =>
  onlyRow (r := ⟨"GSYNC", 0x40000000, 0xFFFF0000, false⟩) rfl
    ((accepts_ofFields (mo := 0xFF) (ma := 0xFF) (mb := 0x00) (mc := 0x00) (ko := 0x40) (ka := 0) (kb := 0) (kc := 0)
      _ _ _ _ rfl rfl).mpr (by simp))

theorem EncodesRow.gstart : EncodesRow.Statement (.gstart) := fun _ =>
  onlyRow (r := ⟨"GSTART", 0x41000000, 0xFFFFFFFF, false⟩) rfl
    ((accepts_ofFields (mo := 0xFF) (ma := 0xFF) (mb := 0xFF) (mc := 0xFF) (ko := 0x41) (ka := 0) (kb := 0) (kc := 0)
      _ _ _ _ rfl rfl).mpr (by simp))

theorem EncodesRow.gend : EncodesRow.Statement (.gend) := fun _ =>
  onlyRow (r := ⟨"GEND", 0x42000000, 0xFFFFFFFF, false⟩) rfl
    ((accepts_ofFields (mo := 0xFF) (ma := 0xFF) (mb := 0xFF) (mc := 0xFF) (ko := 0x42) (ka := 0) (kb := 0) (kc := 0)
      _ _ _ _ rfl rfl).mpr (by simp))

theorem EncodesRow.gtime (alpha : Alphabet) : EncodesRow.Statement (.gtime alpha) := fun _ =>
  onlyRow (r := ⟨"GTIME", 0x43000000, 0xFFFCFFFF, false⟩) rfl
    ((accepts_ofFields (mo := 0xFF) (ma := 0xFC) (mb := 0xFF) (mc := 0xFF) (ko := 0x43) (ka := 0) (kb := 0) (kc := 0)
      _ _ _ _ rfl rfl).mpr (by cases alpha <;> decide))

theorem EncodesRow.galarm (alpha : Alphabet) (pad : Bool) : EncodesRow.Statement (.galarm alpha pad) := fun _ =>
  onlyRow (r := ⟨"GALARM", 0x44000000, 0xFFF8FFFF, false⟩) rfl
    ((accepts_ofFields (mo := 0xFF) (ma := 0xF8) (mb := 0xFF) (mc := 0xFF) (ko := 0x44) (ka := 0) (kb := 0) (kc := 0)
      _ _ _ _ rfl rfl).mpr (by cases alpha <;> cases pad <;> decide))

theorem EncodesRow.gsndopt : EncodesRow.Statement (.gsndopt) := fun _ =>
  onlyRow (r := ⟨"GSNDOPT", 0x45000000, 0xFFFFFFFF, false⟩) rfl
    ((accepts_ofFields (mo := 0xFF) (ma := 0xFF) (mb := 0xFF) (mc := 0xFF) (ko := 0x45) (ka := 0) (kb := 0) (kc := 0)
      _ _ _ _ rfl rfl).mpr (by simp))

end Sys2Proof.Laws
end

