-- ==== Sys2Proof/Laws/Run.lean ====
section
/-! SUPPORT. Runs of several steps: how a run is cut into parts, and what the accesses of a host program do, command by
command. -/

namespace Sys2Proof.Machine

/-- A run of no steps. -/
@[simp] theorem run_zero (s : State) : Host.Core.run Sys2Proof.core 0 s = .next s := rfl

/-- A run whose first step answers a next state. -/
theorem run_step {s t : State} (h : step s = .next t) (k : Nat) :
    Host.Core.run Sys2Proof.core (k + 1) s = Host.Core.run Sys2Proof.core k t := by
  have hs : Sys2Proof.core.step s = .next t := h
  simp only [Host.Core.run, hs]

/-- A run is its first part, then the rest. -/
theorem run_add {s t : State} {j : Nat} (h : Host.Core.run Sys2Proof.core j s = .next t) (k : Nat) :
    Host.Core.run Sys2Proof.core (j + k) s = Host.Core.run Sys2Proof.core k t := by
  induction j generalizing s with
  | zero => rw [run_zero] at h; injection h with h; rw [Nat.zero_add, h]
  | succ j ih =>
    cases hs : step s with
    | next u =>
      rw [run_step hs] at h
      rw [Nat.succ_add, run_step hs, ih h]
    | fault r => cases r
    | refused r =>
      have hs' : Sys2Proof.core.step s = .refused r := hs
      simp [Host.Core.run, hs'] at h

/-! ## What a list of accesses does, whatever waits behind it -/

/-- Served from `s`, the accesses lead to `t`; the accesses of `s` and `t` themselves do not count. -/
def Does (as : List Access) (s t : State) : Prop :=
  ∀ rest, Host.Core.run Sys2Proof.core as.length { s with accesses := as ++ rest } = .next { t with accesses := rest }

theorem Does.nil (s : State) : Does [] s s := fun _ => rfl

theorem Does.append {as bs : List Access} {s t u : State} (h : Does as s t) (h' : Does bs t u) : Does (as ++ bs) s u := by
  intro rest
  rw [List.length_append, List.append_assoc, run_add (h (bs ++ rest))]
  exact h' rest

/-- One access. -/
theorem Does.one {a : Access} {s t : State}
    (h : ∀ rest, serve a { s with accesses := rest } = .next { t with accesses := rest }) : Does [a] s t := by
  intro rest
  have hs : step { s with accesses := [a] ++ rest } = .next { t with accesses := rest } := by
    rw [step_serves rfl]; exact h rest
  rw [List.length_singleton, run_step hs]; rfl

/-- One command, given that its word decodes to it. -/
theorem Does.cmd {i : Instr} {s t : State} (hd : decode (encode i) = .ok i)
    (h : ∀ rest, exec i { s with accesses := rest } = .next { t with accesses := rest }) :
    Does [cmdWrite (encode i)] s t := by
  refine Does.one fun rest => ?_
  rw [← h rest]
  show writeCmd (encode i) _ = _
  rw [writeCmd, hd]

/-- The accesses of a host program, line by line. -/
theorem accessesOf_append (ls ls' : List AsmLine) : accessesOf (ls ++ ls') = accessesOf ls ++ accessesOf ls' := by
  simp [accessesOf]

@[simp] theorem accessesOf_nil : accessesOf [] = [] := rfl

theorem accessesOf_cons (l : AsmLine) (ls : List AsmLine) : accessesOf (l :: ls) = l.accesses ++ accessesOf ls := rfl

/-! ## Command after command: ERR in between does not matter -/

/-- Whatever ERR holds before, the accesses lead from `s` to `t` with some ERR. -/
def Leads (as : List Access) (s t : State) : Prop :=
  ∀ e, ∃ e', Does as { s with ERR := e } { t with ERR := e' }

theorem Leads.nil (s : State) : Leads [] s s := fun e => ⟨e, Does.nil _⟩

theorem Leads.append {as bs : List Access} {s t u : State} (h : Leads as s t) (h' : Leads bs t u) :
    Leads (as ++ bs) s u := by
  intro e
  obtain ⟨e₁, h₁⟩ := h e
  obtain ⟨e₂, h₂⟩ := h' e₁
  exact ⟨e₂, h₁.append h₂⟩

/-- A command that ends in `done`, given that its word decodes to it. -/
theorem Leads.cmd {i : Instr} {s t : State} (hd : decode (encode i) = .ok i)
    (h : ∀ e rest, exec i { s with ERR := e, accesses := rest } = .next { t with ERR := 0, accesses := rest }) :
    Leads [cmdWrite (encode i)] s t := fun e => ⟨0, Does.cmd hd (h e)⟩

/-- A host read of DLEN (20_memory.md R55). -/
theorem Leads.readDlen (s : State) :
    Leads [.read Reg.dlen.offset 32] s { s with rdata := BitVec.ofNat 32 s.D.length } :=
  fun e => ⟨e, Does.one fun _ => rfl⟩

/-- The word of a PUTB decodes to it. -/
theorem decode_encode_putb (buf : Buf) (v : Byte) : decode (encode (.putb buf v)) = .ok (.putb buf v) := by
  rw [encode, decode_ofFields]
  cases buf <;> rfl

/-- One PUTB with room. -/
theorem leads_putb {s : State} (hf : s.FAULT = false) (b : Buf) (v : Byte)
    (h : (s.buf b).length + 1 ≤ bufSize Config.cfg b) :
    Leads [cmdWrite (encode (.putb b v))] s (s.setBuf b (s.buf b ++ [v])) := by
  refine Leads.cmd (decode_encode_putb b v) fun e rest => ?_
  show command (putbRule Config.cfg b v) _ = _
  rw [command_running (by exact hf), putbRule, withAppend_fits (by cases b <;> exact h)]
  cases b <;> rfl

/-- One PUTB without room. -/
theorem leads_putb_full {s : State} (hf : s.FAULT = false) (b : Buf) (v : Byte)
    (h : bufSize Config.cfg b < (s.buf b).length + 1) : Leads [cmdWrite (encode (.putb b v))] s s := by
  refine fun e => ⟨Code.bufFull.byte, Does.cmd (decode_encode_putb b v) fun rest => ?_⟩
  show command (putbRule Config.cfg b v) _ = _
  rw [command_running (by exact hf), putbRule, withAppend_full (by cases b <;> exact h)]
  rfl

theorem setBuf_setBuf (s : State) (b : Buf) (x y : List Byte) : (s.setBuf b x).setBuf b y = s.setBuf b y := by
  cases b <;> rfl

@[simp] theorem setBuf_buf (s : State) (b : Buf) : s.setBuf b (s.buf b) = s := by cases b <;> rfl

/-- A run of PUTBs fills the buffer to its capacity; bytes that do not fit are rejected one by one and change nothing
(40_buffer_ops.md R103; 70_reset_and_hazards.md R282). -/
theorem leads_putbs (b : Buf) (xs : List Byte) {s : State} (hf : s.FAULT = false)
    (hl : (s.buf b).length ≤ bufSize Config.cfg b) :
    Leads ((xs.map (Instr.putb b)).map fun i => cmdWrite (encode i)) s
      (s.setBuf b ((s.buf b ++ xs).take (bufSize Config.cfg b))) := by
  induction xs generalizing s with
  | nil => simpa [List.take_of_length_le hl] using Leads.nil s
  | cons x xs ih =>
    rw [List.map_cons, List.map_cons, ← List.singleton_append]
    rcases Nat.lt_or_ge (bufSize Config.cfg b) ((s.buf b).length + 1) with h | h
    · have := (leads_putb_full hf b x h).append (ih hf hl)
      have he : (s.buf b).length = bufSize Config.cfg b := by omega
      rwa [← he, List.take_left, setBuf_buf] at this ⊢
    · have h2 := ih (s := s.setBuf b (s.buf b ++ [x])) (by simpa using hf) (by simpa using h)
      rw [buf_setBuf, setBuf_setBuf, List.append_assoc, List.singleton_append] at h2
      exact (leads_putb hf b x h).append h2

/-- A run of PUTBs with room. -/
theorem leads_bytes (b : Buf) (xs : List Byte) {s : State} (hf : s.FAULT = false)
    (hl : (s.buf b).length + xs.length ≤ bufSize Config.cfg b) :
    Leads ((xs.map (Instr.putb b)).map fun i => cmdWrite (encode i)) s (s.setBuf b (s.buf b ++ xs)) := by
  have := leads_putbs b xs hf (Nat.le_trans (Nat.le_add_right _ _) hl)
  rwa [List.take_of_length_le (by simpa using hl)] at this

/-- A host program that ends with a command that ends in `done` leaves `ERR = 0`. -/
theorem Leads.finish {as : List Access} {i : Instr} {s t u : State} (h : Leads as s t)
    (hd : decode (encode i) = .ok i)
    (hx : ∀ e rest, exec i { t with ERR := e, accesses := rest } = .next { u with ERR := 0, accesses := rest }) :
    Does (as ++ [cmdWrite (encode i)]) s { u with ERR := 0 } := by
  obtain ⟨e, h₁⟩ := h s.ERR
  exact h₁.append (Does.cmd hd (hx e))

end Sys2Proof.Machine
end

