-- ==== Sys2Proof/Tests/Slice0.lean ====
section
/-! SUPPORT. Tests: ill-formed terms the check refuses, words written out from the spec's encodings, the spec's vectors of
95_test_vectors.md (V<n>), and for every obligation that has hypotheses a state that meets them. Expected values are the
spec's. `cfgX` is the example configuration of 95_test_vectors.md section 1, a fixture of the tests only: "A model must not
build `CfgX` in; it may use it as a test fixture." -/

namespace Sys2Proof.Tests

-- One theorem at a time: so many kernel evaluations at once would wait in one thread each and exhaust the memory limit.
set_option Elab.async false

open Sys2Proof.Machine

/-! ## Fixtures -/

/-- The bytes from `a`, `n` of them. -/
def run (a n : Nat) : List Byte := (List.range n).map fun i => BitVec.ofNat 8 (a + i)

/-- `STD64` in ASCII codes. -/
def std64 : List Byte :=
  run 0x30 10 ++ run 0x61 26 ++
  [0x20, 0x21, 0x22, 0x23, 0x24, 0x25, 0x26, 0x27, 0x28, 0x29, 0x2A, 0x2B, 0x2C, 0x2D, 0x2E, 0x2F, 0x3A, 0x5C, 0x3B, 0x3D,
   0x40, 0x3F, 0x5F, 0x7C, 0x3C, 0x3E, 0x5B, 0x5D]

/-- `CfgX`. -/
def cfgX : Cfg :=
  { alphaStd := std64, alphaAlt := std64, alphaEep := std64.take 63
    alphaPhn := run 0x30 10 ++ [0x63, 0x66, 0x68, 0x70, 0x77, 0x20]
    kTerm := 0x3F, packZeroLen := 1, kPing := 0x78, kSync1 := 0x55, kSync2 := 0xAA
    kOpTime := 0x32, kOpAlarm := 0x50, kOpSndopt := 0x71
    tSize := 256, rSize := 256, dSize := 65536, oSize := 131072
    kStart := [0x20, 0x00, 0x00, 0x04], kEnd := [0x21], kSync2Len := 40 }

theorem test_cfgX_valid : cfgX.Valid := by decide +kernel

/-- The reset state with a text in T. -/
def withT (t : List Byte) : State := { State.reset with T := t }

/-- The reset state with a record in R. -/
def withR (r : List Byte) : State := { State.reset with R := r }

/-- The reset state with data in D. -/
def withD (d : List Byte) : State := { State.reset with D := d }

/-- The reset state with values in P[0], P[1], ... -/
def withP (vs : List Byte) : State :=
  { State.reset with P := Vector.ofFn fun i => vs.getD i.val 0 }

/-- The reset state with so many bytes in T, R, D and O. -/
def filled (t r d o : Nat) : State :=
  { State.reset with
    T := List.replicate t 0, R := List.replicate r 0, D := List.replicate d 0, O := List.replicate o ⟨0, true⟩ }

@[simp] theorem filled_FAULT (t r d o : Nat) : (filled t r d o).FAULT = false := rfl
@[simp] theorem filled_T (t r d o : Nat) : (filled t r d o).T.length = t := by simp [filled]
@[simp] theorem filled_R (t r d o : Nat) : (filled t r d o).R.length = r := by simp [filled]
@[simp] theorem filled_D (t r d o : Nat) : (filled t r d o).D.length = d := by simp [filled]
@[simp] theorem filled_O (t r d o : Nat) : (filled t r d o).O.length = o := by simp [filled]

/-- A state in the fault state as R250 leaves it. -/
def faulted : State := { State.reset with FAULT := true, CAUSE := 0x81, ERR := 0x81 }

/-- A state with accesses waiting. -/
def serving (as : List Access) : State := { State.reset with accesses := as }

/-! ## WellFormed refuses (30_encoding.md R73 to R75) -/

theorem test_wf_enc_maxlen_256 : (Instr.enc .std 256 true).wf = false := by decide
theorem test_wf_page_cs_256 : (Instr.page 1 2 256).wf = false := by decide
theorem test_wf_pagef_cs_256 : (Instr.pagef 1 2 256).wf = false := by decide
theorem test_wf_pcnt_cs_256 : (Instr.pcnt 256).wf = false := by decide
theorem test_wf_gsync_65536 : (Instr.gsync 65536).wf = false := by decide

/-! ## Decoding words written out from the spec (30_encoding.md R71, R79, R88; the words of 95_test_vectors.md) -/

theorem test_decode_nop : decode 0x00000000 = .ok .nop := by rfl
theorem test_decode_putb : decode 0x010200FF = .ok (.putb .D 0xFF) := by rfl
theorem test_decode_putb_T : decode 0x01000068 = .ok (.putb .T 0x68) := by rfl
theorem test_decode_setp : decode 0x020F00AB = .ok (.setp 15 0xAB) := by rfl
theorem test_decode_clrb : decode 0x03000003 = .ok (.clrb 0b0011) := by rfl
theorem test_decode_enc : decode 0x1003000C = .ok (.enc .phn 12 false) := by rfl
theorem test_decode_enc_pad : decode 0x1004000A = .ok (.enc .std 10 true) := by rfl
theorem test_decode_pack6 : decode 0x11000000 = .ok .pack6 := by rfl
theorem test_decode_pack4 : decode 0x12000000 = .ok .pack4 := by rfl
theorem test_decode_fcrc : decode 0x20000000 = .ok .fcrc := by rfl
theorem test_decode_flen : decode 0x21000000 = .ok .flen := by rfl
theorem test_decode_emit : decode 0x22000000 = .ok .emit := by rfl
theorem test_decode_page : decode 0x30910102 = .ok (.page 0x91 0x01 2) := by rfl
theorem test_decode_pagef : decode 0x31910120 = .ok (.pagef 0x91 0x01 32) := by rfl
theorem test_decode_pcnt : decode 0x32000020 = .ok (.pcnt 32) := by rfl
theorem test_decode_gsync : decode 0x4000012C = .ok (.gsync 300) := by rfl
theorem test_decode_gstart : decode 0x41000000 = .ok .gstart := by rfl
theorem test_decode_gend : decode 0x42000000 = .ok .gend := by rfl
theorem test_decode_gtime : decode 0x43020000 = .ok (.gtime .eep) := by rfl
theorem test_decode_galarm : decode 0x44050000 = .ok (.galarm .alt true) := by rfl
theorem test_decode_gsndopt : decode 0x45000000 = .ok .gsndopt := by rfl

/-- V51, with the clause of 30_encoding.md R81 each word falls under. -/
theorem test_decode_V51_reserved :
    decode 0x05000000 = .error .reservedOpcode ∧ decode 0xFF000000 = .error .reservedOpcode ∧
    decode 0x01030000 = .error .reservedBuffer ∧ decode 0x43040000 = .error .timePad := by
  refine ⟨rfl, rfl, rfl, rfl⟩

theorem test_decode_V51_bits :
    decode 0x00000001 = .error .reservedBits ∧ decode 0x01000100 = .error .reservedBits ∧
    decode 0x02100000 = .error .reservedBits ∧ decode 0x03000010 = .error .reservedBits ∧
    decode 0x10080000 = .error .reservedBits ∧ decode 0x32000100 = .error .reservedBits ∧
    decode 0x40010000 = .error .reservedBits ∧ decode 0x44080000 = .error .reservedBits ∧
    decode 0x11000001 = .error .reservedBits := by
  refine ⟨rfl, rfl, rfl, rfl, rfl, rfl, rfl, rfl, rfl⟩

theorem test_decodeTableWord : decodeTableWord 32 0x4000012C = some (.gsync 300) := by rfl

theorem test_withFetchWord_runs : step (State.reset.withFetchWord 32 0x01010007) = .next (withR [0x07]) := by rfl

/-! ## CRC and frames (V1 to V9) -/

theorem test_V1_V4 : crc16 [] = 0 ∧ crc16 [0] = 0 ∧ crc16 [1] = 0xC0C1 ∧ crc16 [0xFF] = 0x4040 := by decide +kernel

theorem test_V5_check_value : crc16 (run 0x31 9) = 0xBB3D := by decide +kernel

theorem test_V6_V8 :
    frame [] = [0x03, 0x40, 0x01] ∧ frame [1, 2, 3] = [0x06, 1, 2, 3, 0x10, 0x29] ∧
    frame [0xFF] = [0x04, 0xFF, 0x42, 0x80] := by decide +kernel

/-- The CRC of the longest frame, 252 bytes 0 behind the header 0xFF, in four parts of 63 zero bytes. -/
theorem test_V9_longest_frame : crc16 (0xFF :: List.replicate 252 0) = 0x4114 := by
  have h : (0xFF :: List.replicate 252 0 : List Byte) =
      (0xFF :: List.replicate 63 0) ++ List.replicate 63 0 ++ List.replicate 63 0 ++ List.replicate 63 0 := by
    decide +kernel
  have h1 : crc16 (0xFF :: List.replicate 63 0) = 0x107F := by decide +kernel
  have h2 : (List.replicate 63 0).foldl crcByte 0x107F = 0x4FB0 := by decide +kernel
  have h3 : (List.replicate 63 0).foldl crcByte 0x4FB0 = 0x238A := by decide +kernel
  have h4 : (List.replicate 63 0).foldl crcByte 0x238A = 0x4114 := by decide +kernel
  rw [h, crc16_append, crc16_append, crc16_append, h1, h2, h3, h4]

/-! ## Plumbing (V52, V53, V58) -/

theorem test_V57_SETP : (setpRule 15 0xAB State.reset).reg 15 = 0xAB := by decide +kernel

theorem test_V58_CLRB :
    clrbRule 0b0011 { State.reset with T := [0x61], R := [1, 2], D := [3], O := [⟨4, true⟩] } =
      { State.reset with D := [3], O := [⟨4, true⟩] } := by decide +kernel

theorem test_V52_PUTB_full :
    (putbRule cfgX .R 0 (withR (List.replicate 255 0))).ERR = 0 ∧
    putbRule cfgX .R 0 (withR (List.replicate 256 0)) = { withR (List.replicate 256 0) with ERR := 0x06 } := by
  decide +kernel

theorem test_NOP : nopRule { State.reset with ERR := 0x06 } = State.reset := by decide +kernel

theorem test_V53_EMIT :
    emitRule cfgX (withR [1, 2]) = { State.reset with O := [⟨1, false⟩, ⟨2, true⟩] } ∧
    (emitRule cfgX State.reset).ERR = 0x03 := by decide +kernel

/-! ## Encoder and packs (V14 to V30b) -/

/-- "Hello", V14. -/
theorem test_V14_ENC :
    encRule cfgX .std 10 true (withT [0x48, 0x65, 0x6C, 0x6C, 0x6F]) =
      withR [0x11, 0x0E, 0x15, 0x15, 0x18, 0x24, 0x24, 0x24, 0x24, 0x24] := by decide +kernel

/-- "A~b", V16; bytes outside ASCII letters, V19. -/
theorem test_V16_V19_ENC :
    encRule cfgX .std 8 false (withT [0x41, 0x7E, 0x62]) = withR [0x0A, 0x24, 0x0B] ∧
    encRule cfgX .std 3 false (withT [0x00, 0x80, 0xFF]) = withR [0x24, 0x24, 0x24] ∧
    encRule cfgX .std 0 true (withT [0x61]) = State.reset := by decide +kernel

/-- "hello", V23; empty, V20; "000", V26. -/
theorem test_V23_PACK6 :
    pack6Rule cfgX (withT [0x68, 0x65, 0x6C, 0x6C, 0x6F]) = withR [0x91, 0x53, 0x55, 0xD8, 0x0F] ∧
    pack6Rule cfgX (withT []) = withR [0x3F] ∧
    pack6Rule cfgX (withT [0x30, 0x30, 0x30]) = withR [0x00, 0x00, 0xFC] := by decide +kernel

/-- V25: 32 characters, the last one is cut; the bytes of V24. -/
theorem test_V24_V25_PACK6 :
    pack6Rule cfgX (withT (run 0x61 26 ++ run 0x30 6)) =
      withR [0xCA, 0xC2, 0x34, 0xCE, 0x03, 0x45, 0xD2, 0x44, 0x55, 0xD6, 0x85, 0x65, 0xDA, 0xC6, 0x75, 0xDE, 0x07, 0x86,
        0xE2, 0x08, 0x04, 0xC2, 0x40, 0xFC] := by decide +kernel

/-- "5551234 h", V28; "x", V30b. -/
theorem test_V28_PACK4 :
    pack4Rule cfgX (withT [0x35, 0x35, 0x35, 0x31, 0x32, 0x33, 0x34, 0x20, 0x68]) =
      withR [0x55, 0x15, 0x32, 0xF4, 0x0C] ∧
    pack4Rule cfgX (withT [0x78]) = withR [0x0F] := by decide +kernel

/-- V29: a trailing code 0 adds nothing; V30: a zero accumulator. -/
theorem test_V29_V30_PACK4 :
    pack4Rule cfgX (withT [0x31, 0x30]) = withR [0x01] ∧ pack4Rule cfgX (withT []) = withR [0x00] ∧
    pack4Rule { cfgX with packZeroLen := 0 } (withT [0x30]) = State.reset := by decide +kernel

/-- The function `pack` by itself, 95_test_vectors.md section 3.5. -/
theorem test_pack_any_cfg :
    pack 1 6 [1, 2, 3] = [0x81, 0x30] ∧ pack 0 6 [0, 0, 63] = [0x00, 0xF0, 0x03] ∧
    pack 0 6 (List.replicate 32 63) = List.replicate 24 0xFF ∧
    pack 1 4 [15, 0, 1] = [0x0F, 0x01] ∧ pack 1 4 [1, 0, 0] = [0x01] := by decide +kernel

/-! ## Framing commands (V7, V11 to V13) -/

theorem test_V7_FCRC :
    fcrcRule cfgX (withR [1, 2, 3]) = { State.reset with O := entries [0x06, 1, 2, 3, 0x10, 0x29] } ∧
    fcrcRule cfgX (withR (List.replicate 253 0)) = { withR (List.replicate 253 0) with ERR := 0x04 } := by
  decide +kernel

theorem test_V12_FLEN :
    flenRule cfgX (withR [1, 2, 3]) = withD [0x04, 1, 2, 3] ∧ flenRule cfgX State.reset = withD [0x01] := by
  decide +kernel

theorem test_V13_FLEN :
    flenRule cfgX (withR (List.replicate 254 0)) = withD (0xFF :: List.replicate 254 0) ∧
    flenRule cfgX (withR (List.replicate 255 0)) = { withR (List.replicate 255 0) with ERR := 0x04 } := by
  decide +kernel

/-! ## Paginator (V31 to V37) -/

theorem test_V33_V35_PAGE :
    pageRule cfgX 0x91 0x01 2 (withD [0x0A, 0x0B, 0x0C, 0x0D, 0x0E]) =
      { State.reset with
        O := entries [0x91, 0x01, 0x01, 0x0A, 0x0B] ++ entries [0x91, 0x01, 0x02, 0x0C, 0x0D] ++
          entries [0x91, 0x01, 0x03, 0x0E]
        NPKT := 3 } ∧
    pageRule cfgX 0x91 0x01 32 State.reset = { State.reset with O := entries [0x91, 0x01, 0x01], NPKT := 1 } ∧
    (pageRule cfgX 1 2 0 State.reset).ERR = 0x02 := by decide +kernel

theorem test_V31_V32_PAGEF :
    pagefRule cfgX 0x91 0x01 32 (withD [0x0A, 0x0B, 0x0C]) =
      { State.reset with O := entries [0x09, 0x91, 0x01, 0x01, 0x0A, 0x0B, 0x0C, 0x9E, 0x8A], NPKT := 1 } ∧
    pagefRule cfgX 0x91 0x01 32 State.reset =
      { State.reset with O := entries [0x06, 0x91, 0x01, 0x01, 0x91, 0x35], NPKT := 1 } := by decide +kernel

theorem test_V34_V37_PAGEF :
    pagefRule cfgX 0x91 0x01 2 (withD [0x0A, 0x0B, 0x0C, 0x0D]) =
      { State.reset with
        O := entries [0x08, 0x91, 0x01, 0x01, 0x0A, 0x0B, 0xEB, 0xCE] ++
          entries [0x08, 0x91, 0x01, 0x02, 0x0C, 0x0D, 0x98, 0x6C]
        NPKT := 2 } ∧
    (pagefRule cfgX 1 2 250 (withD (List.replicate 250 0))).ERR = 0x04 ∧
    (pagefRule cfgX 1 2 249 (withD (List.replicate 250 0))).O.length = 262 := by decide +kernel

theorem test_V36_PCNT :
    npk 70 32 = 3 ∧ npk 64 32 = 2 ∧ npk 0 32 = 1 ∧ npk 8160 32 = 255 ∧ npk 8161 32 = 256 ∧
    pcntRule cfgX 32 (withD (List.replicate 70 0)) =
      { withD (List.replicate 70 0) with R := [0x03], NPKT := 3 } := by decide +kernel

/-! ## Generators (V38 to V50) -/

theorem test_V39_GSYNC :
    gsyncRule cfgX 0 State.reset = { State.reset with O := entries (0x78 :: List.replicate 40 0xAA) } := by
  decide +kernel

theorem test_V38_GSYNC :
    (gsyncRule cfgX 300 State.reset).O.length = 341 ∧ (gsyncRule cfgX 300 State.reset).opkts = 1 := by decide +kernel

theorem test_V40_GSTART :
    gstartRule cfgX State.reset = { State.reset with O := entries [0x07, 0x20, 0x00, 0x00, 0x04, 0xBF, 0xC3] } := by
  decide +kernel

/-- V54: the queue is full by one entry. -/
theorem test_V54_GSTART :
    (gstartRule { cfgX with oSize := 341 } (filled 0 0 0 341)).ERR = 0x07 ∧
    (gstartRule { cfgX with oSize := 341 } (filled 0 0 0 334)).O.length = 341 := by decide +kernel

theorem test_V41_GEND :
    gendRule cfgX State.reset = { State.reset with O := entries [0x04, 0x21, 0xC2, 0xD8] } := by decide +kernel

/-- V42: Saturday 7 November 2026, "UTC". -/
theorem test_V42_GTIME :
    let p := (withP [1, 45, 10, 30, 11, 7, 26, 6, 1, 2]).P
    gtimeRule cfgX .std { State.reset with P := p, T := [0x55, 0x54, 0x43] } =
      { State.reset with
        P := p
        O := entries [0x11, 0x32, 0x01, 0x2D, 0x0A, 0x1E, 0x0B, 0x07, 0x1A, 0x1E, 0x1D, 0x0C, 0x05, 0x02, 0x02, 0x38,
          0xF0] } := by decide +kernel

/-- V44: the fatal check comes first. -/
theorem test_V44_GTIME :
    (gtimeRule cfgX .std (withP [3, 0, 0, 0, 0, 0, 0, 0, 0, 3])).CAUSE = 0x80 ∧
    gtimeRule cfgX .std (withP [1]) = { withP [1] with ERR := 0x02 } ∧
    (gtimeRule cfgX .std (withP [1, 0, 0, 0, 0, 0, 0, 1, 0, 3])).ERR = 0x02 := by decide +kernel

/-- V45: "Wake up", padded. -/
theorem test_V45_GALARM :
    galarmRule cfgX .std true { withP [1, 7, 30, 1] with T := [0x57, 0x61, 0x6B, 0x65, 0x20, 0x75, 0x70] } =
      { withP [1, 7, 30, 1] with
        O := entries [0x12, 0x50, 0x01, 0x07, 0x1E, 0x00, 0x00, 0x20, 0x0A, 0x14, 0x0E, 0x24, 0x1E, 0x19, 0x24, 0x01,
          0xCE, 0x86] } := by decide +kernel

/-- V47: no message; V49: alarm numbers 0 and 6. -/
theorem test_V47_V49_GALARM :
    galarmRule cfgX .std false (withP [5, 23, 59, 0]) =
      { withP [5, 23, 59, 0] with O := entries [0x0A, 0x50, 0x05, 0x17, 0x3B, 0x00, 0x00, 0x00, 0xA9, 0x08] } ∧
    (galarmRule cfgX .std false (withP [0])).CAUSE = 0x81 ∧ (galarmRule cfgX .std false (withP [6])).ERR = 0x81 := by
  decide +kernel

theorem test_V50_GSNDOPT :
    (gsndoptRule cfgX (withP [1, 0])).O = entries [0x06, 0x71, 0x01, 0x00, 0x51, 0x03] ∧
    (gsndoptRule cfgX (withP [0, 200])).O = entries [0x06, 0x71, 0x00, 0x01, 0x91, 0x53] := by decide +kernel

/-! ## Host port (V55 to V57) -/

/-- V55: the words of the End packet's entries, the first VALID, the last with EOP. -/
theorem test_V55_ODATA :
    (popO { State.reset with O := entries [0x04, 0x21, 0xC2, 0xD8] }).1 = 0x00000204 ∧
    (popO { State.reset with O := entries [0xD8] }).1 = 0x000003D8 ∧ (popO State.reset).1 = 0 := by decide +kernel

/-- V56: after reset, after V41, after V51, after V44. -/
theorem test_V56_STATUS :
    State.reset.status = 0x0 ∧ (gendRule cfgX State.reset).status = 0x4 ∧ (reject .illCmd State.reset).status = 0x2 ∧
    (gtimeRule cfgX .std (withP [3])).status = 0x3 := by decide +kernel

theorem test_V57_PVIEW : (readAt 0x7C (setpRule 15 0xAB State.reset)).1 = 0x000000AB := by decide +kernel

theorem test_byte_access_refused :
    step (serving [.read 0x04 8]) = .refused (.undefinedAccess 0x04 8) ∧
    step (serving [.write 0x02 32 0]) = .refused (.undefinedAccess 0x02 32) := ⟨rfl, rfl⟩

/-! ## Host sequences (S13, S14, programs 3, 4 and 6) -/

/-- R87, R110: the code of a character, and the byte of a character that ASCII does not have. -/
theorem test_R110_ascii : ascii "Hi" = [0x48, 0x69] ∧ ascii (String.ofList [Char.ofNat 0x141]) = [0xFF] := by
  decide +kernel

theorem test_S13_quarter_hour : quarterHour 9 30 = 38 ∧ quarterHour 23 59 = 95 ∧ quarterHour 0 14 = 0 := by decide

/-- Program 3: the appointment "dentist", 7 November, 09:30, and the phone number of "Mom". -/
theorem test_program3_records :
    Appointment.record cfgX ⟨26, 11, 7, 9, 30, [0x64, 0x65, 0x6E, 0x74, 0x69, 0x73, 0x74]⟩ =
      [0x0A, 0x0B, 0x07, 0x26, 0x8D, 0x73, 0x75, 0x12, 0xD7, 0xFD] ∧
    PhoneNumber.record cfgX ⟨[0x4D, 0x6F, 0x6D], [0x35, 0x35, 0x35, 0x31, 0x32, 0x33, 0x34], 0x68⟩ =
      [0x09, 0x55, 0x15, 0x32, 0xF4, 0x0C, 0x16, 0x66, 0xFD] := by decide +kernel

/-- The host constants of 95_test_vectors.md section 1. -/
def hostX : HostConstants :=
  { stHdr := [0x90, 0x03], stData := (0x91, 0x03), stEnd := [0x92, 0x03], stChunk := 32
    waClear := [0x93, 0x02], waHdr := [0x90, 0x02], waMarker := 0x01, waData := (0x91, 0x02), waEnd := [0x92, 0x02]
    waChunk := 32
    eeClear := [0x93, 0x01], eeHdr := [0x90, 0x01], eeData := (0x91, 0x01), eeEnd := [0x92, 0x01] }

theorem test_program4_packets :
    eepromPackets hostX cfgX ⟨[], [], [], [], none⟩ = some
      [[0x05, 0x93, 0x01, 0xBD, 0x31],
       [0x14, 0x90, 0x01, 0x01, 0x02, 0x36, 0x02, 0x36, 0x02, 0x36, 0x02, 0x36, 0, 0, 0, 0, 0, 0xFF, 0x33, 0x03],
       [0x06, 0x91, 0x01, 0x01, 0x91, 0x35], [0x05, 0x92, 0x01, 0xBC, 0xA1]] := by decide +kernel

theorem test_program6_packets :
    soundThemePackets hostX [0xDE, 0xAD, 0xBE] = some
      [[0x07, 0x90, 0x03, 0x01, 0xFD, 0xA8, 0xD1], [0x09, 0x91, 0x03, 0x01, 0xDE, 0xAD, 0xBE, 0x5C, 0xA7],
       [0x05, 0x92, 0x03, 0x3D, 0x60]] := by decide +kernel

/-- R202: an empty theme and one of 257 bytes are refused, one of 256 bytes is not; R151: 256 chunks have no packets. -/
theorem test_R202_R151_theme :
    soundThemeLines hostX [] = none ∧ soundThemeLines hostX (List.replicate 257 0) = none ∧
    (soundThemeLines hostX (List.replicate 256 0)).isSome = true ∧
    soundThemePackets { hostX with stChunk := 1 } (List.replicate 256 0) = none := by decide +kernel

/-- R209, R225: priorities 0 and 6 abort the construction and with it the session; none, 1 and 5 do not. -/
theorem test_R209_priority :
    ListItem.construct [0x61] (some 0) = none ∧ ListItem.construct [0x61] (some 6) = none ∧
    ((ListItem.construct [0x61] none).map ListItem.priorityByte) = some 0 ∧
    ((ListItem.construct [0x61] (some 5)).map ListItem.priorityByte) = some 5 ∧
    sessionLines [some [.command .nop], (ListItem.construct [0x61] (some 6)).map ListItem.lines] = none ∧
    sessionLines [some [.command .nop], (ListItem.construct [0x61] (some 1)).map fun _ => [.command .fcrc]] =
      some [.command .nop, .command .fcrc] := by decide

/-! ## Witnesses: for every obligation that has hypotheses, inputs that meet them, clause by clause, at the ends of the
ranges -/

theorem witness_DecodeOfEncodeIsTheInstruction :
    (Instr.enc .phn 255 true).WellFormed ∧ (Instr.page 255 0 255).WellFormed ∧ (Instr.gsync 65535).WellFormed := by
  decide

theorem witness_LegalWordIsEncodingOfItsInstruction : decode 0x4000FFFF = .ok (.gsync 65535) := by rfl

theorem witness_DecoderAgreesWithOpcodeTable :
    (∃ row ∈ opcodeTable, row.accepts 0x010200FF = true) ∧ ∀ row ∈ opcodeTable, row.accepts 0x01030000 = false := by
  decide +kernel

theorem witness_EncodedWordIsAssemblerSum : (Instr.putb .D 0xFF).WellFormed ∧ (Instr.gsync 0).WellFormed := by decide

theorem witness_StepExecutesTheDecodedCommand :
    (serving [.write 0x00 32 0x41000000, .reset]).accesses = .write 0x00 32 0x41000000 :: [.reset] ∧
    decode 0x41000000 = .ok .gstart := ⟨rfl, rfl⟩

theorem witness_IllegalWordIsRejected :
    (serving [.write 0x00 32 0x01030000]).FAULT = false ∧
    (serving [.write 0x00 32 0x01030000]).accesses = .write 0x00 32 0x01030000 :: [] ∧
    decode 0x01030000 = .error .reservedBuffer := ⟨rfl, rfl, rfl⟩

theorem witness_FaultStateRejectsEveryCommand :
    ({ faulted with accesses := [.write 0x00 32 0xFF000000] } : State).FAULT = true ∧
    ({ faulted with accesses := [.write 0x00 32 0xFF000000] } : State).accesses = .write 0x00 32 0xFF000000 :: [] :=
  ⟨rfl, rfl⟩

theorem witness_RejectionChangesOnlyErr :
    ∃ t, exec .emit State.reset = .next t ∧ t.FAULT = State.reset.FAULT ∧ t.ERR ≠ 0 :=
  ⟨{ State.reset with ERR := 0x03 }, rfl, rfl, by decide⟩

theorem witness_CommandsRaiseOnlyTheirCodes : State.reset.FAULT = false ∧ ∃ t, exec .emit State.reset = .next t :=
  ⟨rfl, _, rfl⟩

/-- Both sides of the equivalence occur. -/
theorem witness_FatalFaultExactlyOnBadZoneOrAlarm :
    (∃ t, exec (.gtime .std) (withP [3]) = .next t ∧ t.FAULT = true) ∧
    (∃ t, exec (.galarm .std true) (withP [6]) = .next t ∧ t.FAULT = true) ∧
    (∃ t, exec .nop State.reset = .next t ∧ t.FAULT = false) :=
  ⟨⟨_, rfl, rfl⟩, ⟨_, rfl, rfl⟩, ⟨_, rfl, rfl⟩⟩

theorem witness_FatalFaultEntryDiscardsAllWork :
    ((withP [3]).reg 0).toNat ≠ 1 ∧ ((withP [3]).reg 0).toNat ≠ 2 ∧ ((withP [0]).reg 0).toNat ≠ 1 ∧
    ((withP [0]).reg 0).toNat ≠ 2 ∧ ¬(1 ≤ ((withP [6]).reg 0).toNat ∧ ((withP [6]).reg 0).toNat ≤ 5) ∧
    ¬(1 ≤ ((withP [0]).reg 0).toNat ∧ ((withP [0]).reg 0).toNat ≤ 5) := by decide +kernel

theorem witness_FaultStateIsLeftOnlyByReset :
    (∃ t, step { faulted with accesses := [.reset] } = .next t ∧ t.FAULT = false) ∧
    (∃ t, step { faulted with accesses := [.write 0x2C 32 1] } = .next t ∧ t.FAULT = false) ∧
    (∃ t, step { faulted with accesses := [.write 0x2C 32 2] } = .next t ∧ t.FAULT = true) :=
  ⟨⟨_, rfl, rfl⟩, ⟨_, rfl, rfl⟩, ⟨_, rfl, rfl⟩⟩

theorem witness_ParameterRegistersChangeOnlyBySetpOrReset :
    (∃ t, step (serving [.write 0x00 32 0x020F00AB]) = .next t ∧ t.P ≠ (serving [.write 0x00 32 0x020F00AB]).P) ∧
    (∃ t, step { withP [1] with accesses := [.reset] } = .next t ∧ t.P ≠ (withP [1]).P) ∧
    (∃ t, step { withP [1] with accesses := [.write 0x2C 32 1] } = .next t ∧ t.P ≠ (withP [1]).P) :=
  ⟨⟨_, rfl, by decide +kernel⟩, ⟨_, rfl, by decide +kernel⟩, ⟨_, rfl, by decide +kernel⟩⟩

theorem witness_OutputGrowsByWholePackets : ∃ t, exec .gstart State.reset = .next t := ⟨_, rfl⟩

/-- The only hypothesis of the per-command statements that is common to all of them. -/
theorem witness_NopOnlyClearsErr : State.reset.FAULT = false := rfl

theorem witness_PutbAppendsOrRejects :
    (filled 255 255 65535 0).FAULT = false ∧ (filled 255 255 65535 0).T.length + 1 ≤ 256 ∧
    (filled 255 255 65535 0).R.length + 1 ≤ 256 ∧ (filled 255 255 65535 0).D.length + 1 ≤ 65536 ∧
    256 < (filled 256 256 65536 0).T.length + 1 ∧ 256 < (filled 256 256 65536 0).R.length + 1 ∧
    65536 < (filled 256 256 65536 0).D.length + 1 := by simp

theorem witness_SetpWritesOneRegister : (withP [7]).FAULT = false ∧ (withP [7]).reg 0 ≠ (withP [7]).reg 15 := by
  decide +kernel

theorem witness_ClrbEmptiesSelectedBuffers : (filled 1 2 3 4).FAULT = false := rfl

/-- A character within the text, a place of the padding, and the letters at both ends with their neighbours. -/
theorem witness_EncodeIsCharacterwise :
    (0 < 1 ∧ ([0x41] : List Byte)[0]? = some 0x41) ∧ (([0x41] : List Byte).length ≤ 9 ∧ 9 < 10) ∧
    (0x41 ≤ (0x41 : Byte).toNat ∧ (0x5A : Byte).toNat ≤ 0x5A) ∧ (0x40 : Byte).toNat < 0x41 ∧
    0x5A < (0x5B : Byte).toNat := by decide

theorem witness_CodeIsPositionOrSpace :
    ValidAlphabet [0x20, 0x41] ∧ ([0x20, 0x41] : List Byte)[1]? = some 0x41 ∧ (0x42 : Byte) ∉ ([0x20, 0x41] : List Byte) ∧
    ([0x20, 0x41] : List Byte)[0]? = some 0x20 := by decide

theorem witness_EncAppendsCodesToRecord :
    (.std, Config.cfg.alphaStd) ∈ selectedAlphabets ∧ (.phn, Config.cfg.alphaPhn) ∈ selectedAlphabets ∧
    (filled 3 246 0 0).R.length + (encodeText Config.cfg.alphaStd (filled 3 246 0 0).T 10 true).length ≤ 256 ∧
    256 < (filled 3 247 0 0).R.length + (encodeText Config.cfg.alphaStd (filled 3 247 0 0).T 10 true).length := by
  simp [selectedAlphabets]

theorem witness_PackSerialisesTheAccumulator :
    (∑ j ∈ Finset.range [(0 : Byte)].length, ([(0 : Byte)].getD j 0).toNat <<< (6 * j)) = 0 ∧
    (∑ j ∈ Finset.range [(63 : Byte)].length, ([(63 : Byte)].getD j 0).toNat <<< (6 * j)) = 63 ∧ 63 < 2 ^ (8 * 1) ∧
    0 < (pack 0 6 [63]).length := by decide +kernel

theorem witness_PackKeepsCodesApart :
    (∀ c ∈ ([1, 63] : List Byte), c.toNat < 2 ^ 6) ∧ ([1, 63] : List Byte)[1]? = some 63 ∧ 5 < 6 ∧
    packValue 6 [1, 63] ≠ 0 ∧ (pack 0 6 [1, 63]).getLast? = some 0x0F ∧ (63 : Byte) ≠ 0 ∧
    Config.cfg.kTerm ∈ encodeText Config.cfg.alphaEep [] 31 false ++ [Config.cfg.kTerm] ∧
    code Config.cfg.alphaPhn (lower 0x31) ∈ encodeText Config.cfg.alphaPhn [0x31] 12 false := by
  refine ⟨by decide, rfl, by decide, by decide +kernel, by decide +kernel, by decide, by simp, by simp [encodeText]⟩

/-- A record of 232 bytes takes every PACK6 result, one of 256 takes none. -/
theorem witness_Pack6AppendsTerminatedText :
    (filled 31 232 0 0).R.length + (pack6Bytes Config.cfg (filled 31 232 0 0).T).length ≤ 256 ∧
    256 < (filled 0 256 0 0).R.length + (pack6Bytes Config.cfg (filled 0 256 0 0).T).length := by
  have h1 := pack6Bytes_length_le Config.cfg_valid (filled 31 232 0 0).T
  have hne := pack6_value_ne_zero Config.cfg_valid (filled 0 256 0 0).T
  have h2 : 0 < (pack6Bytes Config.cfg (filled 0 256 0 0).T).length := by
    rw [pack6Bytes, alphabet, pack_length hne]; exact Nat.succ_pos _
  rw [filled_R, filled_R]
  omega

/-- The full record can meet a PACK4 result of no bytes (00_scope.md R8, `PACK_ZERO_LEN`), so the rejection is met
above the capacity, in a state no run reaches; the statement holds there too. -/
theorem witness_Pack4AppendsPhoneText :
    (filled 12 250 0 0).R.length + (pack4Bytes Config.cfg (filled 12 250 0 0).T).length ≤ 256 ∧
    256 < (filled 0 257 0 0).R.length + (pack4Bytes Config.cfg (filled 0 257 0 0).T).length := by
  have h1 := pack4Bytes_length_le Config.cfg_valid (filled 12 250 0 0).T
  rw [filled_R, filled_R]
  omega

theorem witness_FrameIsSelfDescribingAndChecks : (List.replicate 252 (0 : Byte)).length ≤ 252 :=
  Nat.le_of_eq List.length_replicate

theorem witness_FcrcFramesTheRecord :
    ((filled 0 252 0 130817).R.length ≤ 252 ∧
      (filled 0 252 0 130817).O.length + ((filled 0 252 0 130817).R.length + 3) ≤ 131072) ∧
    252 < (filled 0 253 0 0).R.length ∧
    131072 < (filled 0 252 0 130818).O.length + ((filled 0 252 0 130818).R.length + 3) := by simp

theorem witness_FlenFramesTheRecordIntoData :
    ((filled 0 254 65281 0).R.length ≤ 254 ∧
      (filled 0 254 65281 0).D.length + (filled 0 254 65281 0).R.length + 1 ≤ 65536) ∧
    254 < (filled 0 255 0 0).R.length ∧
    65536 < (filled 0 254 65282 0).D.length + (filled 0 254 65282 0).R.length + 1 := by simp

theorem witness_EmitMovesTheRecordUnframed :
    ((filled 0 1 0 131071).R ≠ [] ∧ (filled 0 1 0 131071).O.length + (filled 0 1 0 131071).R.length ≤ 131072) ∧
    (filled 0 0 0 0).R = [] ∧
    ((filled 0 1 0 131072).R ≠ [] ∧ 131072 < (filled 0 1 0 131072).O.length + (filled 0 1 0 131072).R.length) := by
  refine ⟨⟨by decide, by simp⟩, rfl, by decide, by simp⟩

theorem witness_PacketCountIsTheCeiling : 1 ≤ 32 ∧ 1 ≤ 255 ∧ 8160 ≤ 255 * 32 := by decide

/-- Two packets of one byte each: the first has a successor, the second has none. -/
theorem witness_PaginationReconstructsTheData :
    1 ≤ 1 ∧ npk ([0x0A, 0x0B] : List Byte).length 1 ≤ 255 ∧
    (paginate 1 2 1 [0x0A, 0x0B])[0]? = some [1, 2, 1, 0x0A] ∧ 0 + 1 < npk 2 1 ∧
    (paginate 1 2 1 [0x0A, 0x0B])[1]? = some [1, 2, 2, 0x0B] := by decide +kernel

/-- 255 bytes in chunks of one: 255 packets of 4 bytes, 1020 in all; 256 bytes are one packet too many. -/
theorem witness_PageEmitsThePackets :
    255 < npk (filled 0 0 256 0).D.length 1 ∧
    (npk (filled 0 0 255 130053).D.length 1 ≤ 255 ∧
      131072 < (filled 0 0 255 130053).O.length + 3 * npk (filled 0 0 255 130053).D.length 1 +
        (filled 0 0 255 130053).D.length) ∧
    (npk (filled 0 0 255 130052).D.length 1 ≤ 255 ∧
      (filled 0 0 255 130052).O.length + 3 * npk (filled 0 0 255 130052).D.length 1 +
        (filled 0 0 255 130052).D.length ≤ 131072) := by
  simp [npk]

theorem witness_PagefEmitsFramedPackets :
    252 < min 250 (filled 0 0 250 0).D.length + 3 ∧
    (min 1 (filled 0 0 256 0).D.length + 3 ≤ 252 ∧ 255 < npk (filled 0 0 256 0).D.length 1) ∧
    (min 249 (filled 0 0 249 130818).D.length + 3 ≤ 252 ∧ npk (filled 0 0 249 130818).D.length 249 ≤ 255 ∧
      131072 < (filled 0 0 249 130818).O.length + 6 * npk (filled 0 0 249 130818).D.length 249 +
        (filled 0 0 249 130818).D.length) ∧
    (min 249 (filled 0 0 249 130817).D.length + 3 ≤ 252 ∧ npk (filled 0 0 249 130817).D.length 249 ≤ 255 ∧
      (filled 0 0 249 130817).O.length + 6 * npk (filled 0 0 249 130817).D.length 249 +
        (filled 0 0 249 130817).D.length ≤ 131072) := by
  simp [npk]

theorem witness_PcntAppendsTheCount :
    255 < npk (filled 0 0 8161 0).D.length 32 ∧
    (npk (filled 0 256 8160 0).D.length 32 ≤ 255 ∧ 256 < (filled 0 256 8160 0).R.length + 1) ∧
    (npk (filled 0 255 8160 0).D.length 32 ≤ 255 ∧ (filled 0 255 8160 0).R.length + 1 ≤ 256) := by
  simp [npk]

/-- Both outcomes occur: the pagination completes, or O is full. -/
theorem witness_PcntAgreesWithLaterPagination :
    ∃ t, State.reset.FAULT = false ∧ exec (.pcnt 32) State.reset = .next t ∧ t.ERR = 0 ∧ State.reset.D = t.D ∧
      (∃ v, exec (.page 1 2 32) State.reset = .next v ∧ v.ERR = 0) ∧
      (∃ v, exec (.pagef 1 2 32) State.reset = .next v ∧ v.ERR = 0) ∧
      (∃ v, exec (.page 1 2 32) faulted = .next v ∧ v.ERR ≠ 0) :=
  ⟨{ State.reset with R := [1], NPKT := 1 }, rfl, rfl, rfl, rfl, ⟨_, rfl, rfl⟩, ⟨_, rfl, rfl⟩, ⟨_, rfl, by decide⟩⟩

theorem witness_GsyncEmitsTheRun :
    (filled 0 0 0 65496).O.length + (65535 + 41) ≤ 131072 ∧ 131072 < (filled 0 0 0 65497).O.length + (65535 + 41) := by
  rw [filled_O, filled_O]
  omega

theorem witness_GstartEmitsTheStartPacket :
    (filled 0 0 0 131065).O.length + 7 ≤ 131072 ∧ 131072 < (filled 0 0 0 131066).O.length + 7 := by simp

theorem witness_GendEmitsTheEndPacket :
    (filled 0 0 0 131068).O.length + 4 ≤ 131072 ∧ 131072 < (filled 0 0 0 131069).O.length + 4 := by simp

/-- One state for each branch of the checks, and the two sizes of O. -/
theorem witness_GtimeEmitsTheTimePacket :
    (.eep, Config.cfg.alphaEep) ∈ selectedAlphabets ∧
    (((withP [3]).reg 0).toNat ≠ 1 ∧ ((withP [3]).reg 0).toNat ≠ 2) ∧
    (((withP [2]).reg 0).toNat = 2 ∧ ((withP [2]).reg 7).toNat < 1) ∧
    (((withP [1, 0, 0, 0, 0, 0, 0, 8]).reg 0).toNat = 1 ∧ 7 < ((withP [1, 0, 0, 0, 0, 0, 0, 8]).reg 7).toNat) ∧
    (1 ≤ ((withP [1, 0, 0, 0, 0, 0, 0, 7, 0, 3]).reg 7).toNat ∧ ((withP [1, 0, 0, 0, 0, 0, 0, 7, 0, 3]).reg 7).toNat ≤ 7 ∧
      ((withP [1, 0, 0, 0, 0, 0, 0, 7, 0, 3]).reg 9).toNat = 3) ∧
    6 < ((withP [1, 0, 0, 0, 0, 0, 0, 1, 0, 7]).reg 9).toNat ∧
    (((withP [2, 0, 0, 0, 0, 0, 0, 1, 0, 6]).reg 9).toNat ≠ 3 ∧
      ((withP [2, 0, 0, 0, 0, 0, 0, 1, 0, 6]).reg 9).toNat ≤ 6) ∧
    131072 < ({ withP [2, 0, 0, 0, 0, 0, 0, 1, 0, 6] with O := (filled 0 0 0 131056).O } : State).O.length + 17 ∧
    ({ withP [2, 0, 0, 0, 0, 0, 0, 1, 0, 6] with O := (filled 0 0 0 131055).O } : State).O.length + 17 ≤ 131072 := by
  refine ⟨by simp [selectedAlphabets], by decide +kernel, by decide +kernel, by decide +kernel, by decide +kernel,
    by decide +kernel, by decide +kernel, by simp, by simp⟩

theorem witness_GalarmEmitsTheAlarmPacket :
    (.alt, Config.cfg.alphaAlt) ∈ selectedAlphabets ∧ ((withP [0]).reg 0).toNat < 1 ∧ 5 < ((withP [6]).reg 0).toNat ∧
    (1 ≤ ((withP [5]).reg 0).toNat ∧ ((withP [5]).reg 0).toNat ≤ 5) ∧
    131072 < ({ withP [5] with O := (filled 0 0 0 131055).O } : State).O.length + 10 +
      (encodeText Config.cfg.alphaAlt (withP [5]).T 8 true).length ∧
    ({ withP [5] with O := (filled 0 0 0 131054).O } : State).O.length + 10 +
      (encodeText Config.cfg.alphaAlt (withP [5]).T 8 true).length ≤ 131072 := by
  refine ⟨by simp [selectedAlphabets], by decide +kernel, by decide +kernel, by decide +kernel, by simp, by simp⟩

theorem witness_GsndoptEmitsTheFlags :
    (filled 0 0 0 131066).O.length + 6 ≤ 131072 ∧ 131072 < (filled 0 0 0 131067).O.length + 6 := by simp

/-- A generator that completes, and one that is rejected. -/
theorem witness_GeneratorsLeaveRecordDataAndRegisters :
    (Instr.gstart.isGenerator ∧ ∃ t, exec .gstart (filled 1 2 3 0) = .next t ∧ t.FAULT = false ∧ t.ERR = 0) ∧
    ((Instr.gtime .std).isGenerator ∧ ∃ t, exec (.gtime .std) (withP [1]) = .next t ∧ t.FAULT = false ∧ t.ERR = 0x02) ∧
    ∀ n, Instr.gstart ≠ .gsync n := by
  refine ⟨⟨.inr (.inl rfl), _, rfl, rfl, rfl⟩, ⟨.inr (.inr (.inr (.inl ⟨_, rfl⟩))), _, rfl, rfl, rfl⟩, fun n h => ?_⟩
  cases h

theorem witness_RegistersReadTheState :
    (serving [.read 0x04 32]).accesses = .read 0x04 32 :: [] ∧
    (serving [.read (0x40 + 4 * 15) 32]).accesses = .read (0x40 + 4 * 15) 32 :: [] := ⟨rfl, rfl⟩

theorem witness_OdataReadRemovesTheHead :
    (serving [.read 0x10 32]).O = [] ∧ faulted.FAULT = true ∧
    (serving [.read 0x14 32]).accesses = .read 0x14 32 :: [] ∧ 0x14 % 4 = 0 ∧
    ∃ s : State, s.accesses = .read 0x10 32 :: [] ∧ s.FAULT = false ∧ s.O = ⟨0x04, true⟩ :: [] :=
  ⟨rfl, rfl, rfl, rfl, { State.reset with O := [⟨0x04, true⟩], accesses := [.read 0x10 32] }, rfl, rfl, rfl⟩

/-- An offset above 0x7C, a reserved one and the two write-only ones; an ignored write; a wrong width and a wrong
alignment. -/
theorem witness_UnmappedAndUndefinedAccesses :
    (0x80 % 4 = 0 ∧ 0x7C < 0x80) ∧ (0x30 % 4 = 0 ∧ 0x30 ≤ 0x30 ∧ 0x30 ≤ 0x3C) ∧ 0x3C % 4 = 0 ∧ 0x2C % 4 = 0 ∧
    (0x04 % 4 = 0 ∧ 0x04 ≠ 0x00 ∧ 0x04 ≠ 0x2C) ∧ 8 ≠ 32 ∧ 0x02 % 4 ≠ 0 ∧
    (serving [.read 0x80 32]).accesses = .read 0x80 32 :: [] ∧
    (serving [.write 0x04 32 1]).accesses = .write 0x04 32 1 :: [] ∧
    (serving [.read 0x04 8]).accesses = .read 0x04 8 :: [] ∧
    (serving [.write 0x02 32 1]).accesses = .write 0x02 32 1 :: [] := by decide

theorem witness_ResetsClearEveryPieceOfState :
    ({ faulted with accesses := [.reset] } : State).accesses = .reset :: [] ∧
    (({ faulted with accesses := [.write 0x2C 32 1] } : State).accesses = .write 0x2C 32 1 :: [] ∧
      (1 : Word).getLsbD 0 = true) ∧
    ((serving [.write 0x2C 32 0xFFFFFFFE]).accesses = .write 0x2C 32 0xFFFFFFFE :: [] ∧
      (0xFFFFFFFE : Word).getLsbD 0 = false) := by decide

theorem witness_StateAfterReset :
    ({ withP [1] with accesses := [.reset] } : State).accesses = .reset :: [] ∧
    (({ withP [1] with accesses := [.write 0x2C 32 3] } : State).accesses = .write 0x2C 32 3 :: [] ∧
      (3 : Word).getLsbD 0 = true) := by decide

theorem witness_FaultStateReadsAsEmpty (off : Nat) :
    ({ faulted with accesses := [.read off 32] } : State).Inv Config.cfg ∧
    ({ faulted with accesses := [.read off 32] } : State).FAULT = true ∧
    ({ faulted with accesses := [.read off 32] } : State).accesses = .read off 32 :: [] :=
  ⟨by constructor <;> simp [faulted, State.reset, endsPacket], rfl, rfl⟩

/-- The End packet at the head of the queue, another behind it. -/
theorem witness_PopPktTakesOneWholePacket :
    ∃ s : State, s.FAULT = false ∧ s.O = entries ([0x04, 0x21, 0xC2] ++ [0xD8]) ++ entries [7] ∧
      s.accesses = popPkt s ++ [] ∧ ([0x04, 0x21, 0xC2] : List Byte)[2]? = some 0xC2 :=
  ⟨{ State.reset with
      O := entries [0x04, 0x21, 0xC2, 0xD8] ++ entries [7], accesses := List.replicate 4 (.read 0x10 32) },
    rfl, rfl, rfl, rfl⟩

/-- Witness of the hypotheses of `StepKeepsInvariant` and `DefinedAccessesRunSafelyForever`. -/
theorem reset_inv : State.reset.Inv Config.cfg ∧ State.reset.onlyDefinedAccesses :=
  ⟨inv_resetBlock Config.cfg State.reset, fun _ h => absurd h List.not_mem_nil⟩

theorem witness_StepKeepsInvariant :
    (serving [.write 0x00 32 0x41000000]).Inv Config.cfg ∧ ∃ t, step (serving [.write 0x00 32 0x41000000]) = .next t :=
  ⟨inv_host_fields reset_inv.1 _ 0, _, rfl⟩

theorem witness_DefinedAccessesRunSafelyForever :
    (serving [.write 0x00 32 0x05000000, .read 0x08 32, .reset]).Inv Config.cfg ∧
    (serving [.write 0x00 32 0x05000000, .read 0x08 32, .reset]).onlyDefinedAccesses := by
  refine ⟨inv_host_fields reset_inv.1 _ 0, ?_⟩
  simp [State.onlyDefinedAccesses, serving, Access.defined, accessDefined]

/-- Records of each type, all lengths of text; the last minute of a day; priorities at the ends of 1 to 5 and beyond. -/
theorem witness_RecordSequencesAppendTheRecord (x : Appointment) (y : Anniversary) (z : ListItem) (p : PhoneNumber) :
    (State.reset.FAULT = false ∧ State.reset.R = [] ∧ State.reset.T = []) ∧
    (serving (accessesOf x.lines ++ [])).accesses = accessesOf x.lines ++ [] ∧
    (serving (accessesOf x.lines ++ [])).D.length + (x.record Config.cfg).length ≤ 65536 ∧
    (serving (accessesOf y.lines ++ [])).D.length + (y.record Config.cfg).length ≤ 65536 ∧
    (serving (accessesOf z.lines ++ [])).D.length + (z.record Config.cfg).length ≤ 65536 ∧
    (serving (accessesOf p.lines ++ [])).D.length + (p.record Config.cfg).length ≤ 65536 ∧
    ((⟨26, 12, 31, 23, 59, []⟩ : Appointment).hour ≤ 23 ∧ (⟨26, 12, 31, 23, 59, []⟩ : Appointment).minute ≤ 59) ∧
    (∃ q, some 0 = some q ∧ (q < 1 ∨ 5 < q)) ∧ (∃ q, some 6 = some q ∧ (q < 1 ∨ 5 < q)) ∧
    (∀ q, none = some q → 1 ≤ q ∧ q ≤ 5) ∧ (∀ q, some 1 = some q → 1 ≤ q ∧ q ≤ 5) ∧
    ∀ q, some 5 = some q → 1 ≤ q ∧ q ≤ 5 := by
  have h := fun X => pack6Bytes_length_le Config.cfg_valid X
  have h4 := pack4Bytes_length_le Config.cfg_valid p.phoneText
  have h1 := h x.message
  have h2 := h y.label
  have h3 := h z.entry
  have h5 := h p.name
  refine ⟨⟨rfl, rfl, rfl⟩, rfl, ?_, ?_, ?_, ?_, by decide, ⟨0, rfl, by decide⟩, ⟨6, rfl, by decide⟩, nofun, ?_, ?_⟩
  iterate 4
    simp [serving, State.reset, Appointment.record, Anniversary.record, ListItem.record, PhoneNumber.record]
    omega
  all_goals rintro q ⟨⟩; decide

/-- Themes of 0 and 257 bytes; one of 1 byte and one of 256; a WristApp payload of 8160 bytes, and the packets of a short
one. -/
theorem witness_MultiPacketGroupSequencesEmitTheGroup :
    (serving (accessesOf (wristAppLines hostX [0xDE]))).R = [] ∧
    (serving (accessesOf (wristAppLines hostX [0xDE]))).D = [] ∧
    ([] : List Byte).length < 1 ∧ 256 < (List.replicate 257 (0 : Byte)).length ∧
    (1 ≤ 256 ∧ 1 ≤ hostX.stChunk.toNat ∧ min hostX.stChunk.toNat 256 ≤ 249 ∧ npk 256 hostX.stChunk.toNat ≤ 255 ∧
      hostX.stHdr.length ≤ 250 ∧ hostX.stEnd.length ≤ 252) ∧
    (1 ≤ hostX.waChunk.toNat ∧ min hostX.waChunk.toNat 8160 ≤ 249 ∧ npk 8160 hostX.waChunk.toNat ≤ 255 ∧
      hostX.waClear.length ≤ 252 ∧ hostX.waHdr.length ≤ 250 ∧ hostX.waEnd.length ≤ 252) ∧
    (∃ ps, soundThemePackets hostX [0xDE, 0xAD, 0xBE] = some ps ∧ ps.flatten.length ≤ 131072) ∧
    ∃ ps, wristAppPackets hostX [0xDE] = some ps ∧ ps.flatten.length ≤ 131072 := by
  refine ⟨rfl, rfl, by decide, by rw [List.length_replicate]; decide, by decide +kernel, by decide +kernel, ⟨_, test_program6_packets, by decide⟩,
    ⟨_, rfl, by decide +kernel⟩⟩

/-- So many copies of an appointment make at least five bytes each. -/
theorem appointments_length (n : Nat) (x : Appointment) :
    5 * n ≤ ((List.replicate n x).flatMap (Appointment.record Config.cfg)).length := by
  have hne := pack6_value_ne_zero Config.cfg_valid x.message
  have h : 0 < (pack6Bytes Config.cfg x.message).length := by
    rw [pack6Bytes, alphabet, pack_length hne]; exact Nat.succ_pos _
  have hx : 5 ≤ (x.record Config.cfg).length := by simp [Appointment.record]; omega
  rw [List.length_flatMap, List.map_replicate, List.sum_replicate_nat]
  rw [Nat.mul_comm n]
  exact Nat.mul_le_mul_right n hx

/-- What is refused: 256 records of a kind, more than 8160 bytes, addresses above 0xFFFF, a lead-time outside the list. What
is sent: no records, and two appointments with the years 26 and 99; a lead-time of 30 minutes; 8160 bytes at most. -/
theorem witness_EepromSequenceEmitsTheGroup (x y : Appointment) (hx : x.year = 26) (hy : y.year = 99) :
    255 < (List.replicate 256 x).length ∧
    8160 < ((List.replicate 1633 x).flatMap (Appointment.record Config.cfg)).length ∧
    0xFFFF < 0x0236 + ((List.replicate 13000 x).flatMap (Appointment.record Config.cfg)).length ∧
    (∃ m, some 31 = some m ∧ m ∉ ([0, 5, 10, 15, 20, 25, 30] : List Nat)) ∧
    (([] : List Appointment) = [] ∧ (0 : Byte) = 0) ∧
    ((∃ z ∈ [y, x], (26 : Byte) = z.year) ∧ ∀ z ∈ [y, x], (26 : Byte).toNat ≤ z.year.toNat) ∧
    (some 30, 6) ∈ ([(none, 0xFF), (some 0, 0), (some 5, 1), (some 10, 2), (some 15, 3), (some 20, 4), (some 25, 5),
      (some 30, 6)] : List (Option Nat × Byte)) ∧
    ([y, x].flatMap (Appointment.record Config.cfg)).length ≤ 8160 ∧
    hostX.eeClear.length ≤ 252 ∧ hostX.eeHdr.length ≤ 237 ∧ hostX.eeEnd.length ≤ 252 ∧
    (∃ lines, eepromLines hostX Config.cfg ⟨[], [], [], [], none⟩ = some lines ∧
      (serving (accessesOf lines ++ [])).accesses = accessesOf lines ++ []) ∧
    ∃ ps, eepromPackets hostX Config.cfg ⟨[], [], [], [], none⟩ = some ps ∧
      State.reset.O.length + ps.flatten.length ≤ 131072 := by
  have h1 := appointments_length 1633 x
  have h2 := appointments_length 13000 x
  have h3 := pack6Bytes_length_le Config.cfg_valid x.message
  have h4 := pack6Bytes_length_le Config.cfg_valid y.message
  refine ⟨by rw [List.length_replicate]; decide, by omega, by omega, ⟨31, rfl, by decide⟩, ⟨rfl, rfl⟩, ⟨⟨x, by simp, hx.symm⟩, ?_⟩, by decide, ?_,
    by decide, by decide, by decide, ⟨_, rfl, rfl⟩, ⟨_, rfl, by decide +kernel⟩⟩
  · simp [hx, hy]
  · simp [Appointment.record]; omega

theorem witness_EepromWithoutRecordsHasFourPackets :
    hostX.eeClear.length ≤ 252 ∧ hostX.eeHdr.length ≤ 237 ∧ hostX.eeEnd.length ≤ 252 := by decide

end Sys2Proof.Tests
end

section
/-! SUPPORT. Everything one step can do, case by case: which access it serves, what a CMD write comes to, and what a read
of a register returns (20_memory.md R54 to R59). -/

namespace Sys2Proof.Machine

/-- Everything a step can do: stay idle, or serve the oldest waiting access. -/
theorem step_cases {s t : State} (h : step s = .next t) :
    (s.accesses = [] ∧ t = s) ∨
    ∃ a rest, s.accesses = a :: rest ∧ serve a { s with accesses := rest } = .next t := by
  cases ha : s.accesses with
  | nil => rw [step_idle ha] at h; injection h with h; exact .inl ⟨rfl, h.symm⟩
  | cons a rest => rw [step_serves ha] at h; exact .inr ⟨a, rest, rfl, h⟩

/-- A defined access is 32 bits wide and 4-byte aligned. -/
theorem accessDefined_iff {off width : Nat} : accessDefined off width = true ↔ width = 32 ∧ off % 4 = 0 := by
  simp [accessDefined]

/-- Everything an access that is not refused can do: a read, a CMD write, a CTRL write, an ignored write, a reset. -/
theorem serve_cases {a : Access} {s t : State} (h : serve a s = .next t) :
    (∃ off, a = .read off 32 ∧ off % 4 = 0 ∧ t = deliver (readAt off s)) ∨
    (∃ w, a = .write 0x00 32 w ∧ writeCmd w s = .next t) ∨
    (∃ v, a = .write 0x2C 32 v ∧ t = writeCtrl v s) ∨
    (∃ off v, a = .write off 32 v ∧ off % 4 = 0 ∧ off ≠ 0x00 ∧ off ≠ 0x2C ∧ t = s) ∨
    (a = .reset ∧ t = resetBlock s) := by
  cases a with
  | read off width =>
    simp only [serve] at h
    split at h
    · rename_i hd
      obtain ⟨rfl, ho⟩ := accessDefined_iff.mp hd
      injection h with h
      exact .inl ⟨off, rfl, ho, h.symm⟩
    · cases h
  | write off width v =>
    simp only [serve] at h
    split at h
    · rename_i hd
      obtain ⟨rfl, ho⟩ := accessDefined_iff.mp hd
      rcases writeAt_cases ho v s with ⟨rfl, e⟩ | ⟨rfl, e⟩ | ⟨h0, h2C, e⟩ <;> rw [e] at h
      · exact .inr (.inl ⟨v, rfl, h⟩)
      · injection h with h; exact .inr (.inr (.inl ⟨v, rfl, h.symm⟩))
      · injection h with h; exact .inr (.inr (.inr (.inl ⟨off, v, rfl, ho, h0, h2C, h.symm⟩)))
    · cases h
  | reset => injection h with h; exact .inr (.inr (.inr (.inr ⟨rfl, h.symm⟩)))

/-- Everything a CMD write can do: execute the decoded command, or reject an illegal word. -/
theorem writeCmd_cases {w : Word} {s t : State} (h : writeCmd w s = .next t) :
    (∃ i, decode w = .ok i ∧ exec i s = .next t) ∨
    (∃ e, decode w = .error e ∧ command (reject .illCmd) s = .next t) := by
  unfold writeCmd at h
  split at h
  · rename_i i hd; exact .inl ⟨i, hd, h⟩
  · rename_i e hd; exact .inr ⟨e, hd, h⟩

theorem writeCtrl_srst {v : Word} (h : v.getLsbD 0 = true) (s : State) : writeCtrl v s = resetBlock s := by
  rw [writeCtrl, if_pos h]

theorem writeCtrl_ignored {v : Word} (h : v.getLsbD 0 = false) (s : State) : writeCtrl v s = s := by
  rw [writeCtrl, h]; rfl

/-- Every register's offset is 4-byte aligned (20_memory.md R55). -/
theorem Reg.offset_aligned (r : Reg) : r.offset % 4 = 0 := by
  cases r <;> simp [Reg.offset]

/-- A step that serves a read of a register delivers what `readReg` returns. -/
theorem step_read_reg (r : Reg) {s : State} {rest : List Access} (h : s.accesses = .read r.offset 32 :: rest) :
    step s = .next (deliver (readReg r { s with accesses := rest })) := by
  rw [step_serves h, serve, if_pos (accessDefined_iff.mpr ⟨rfl, r.offset_aligned⟩), readAt, regAt_offset]

/-- A step that serves a CTRL write. -/
theorem step_write_ctrl {s : State} {v : Word} {rest : List Access} (h : s.accesses = .write 0x2C 32 v :: rest) :
    step s = .next (writeCtrl v { s with accesses := rest }) := by
  rw [step_serves h]; rfl

/-- A register reads as `value` if `readReg` returns that value and leaves the state. -/
theorem readsAs_reg (r : Reg) {value : State → Nat}
    (h : ∀ (s : State) (rest : List Access), readReg r { s with accesses := rest } =
      (BitVec.ofNat 32 (value s), { s with accesses := rest })) : ReadsAs r.offset value := by
  intro s rest ha
  rw [step_read_reg r ha, h s rest]
  rfl

/-- A byte register reads as its number (20_memory.md R55). -/
theorem byteWord_eq (b : Byte) : byteWord b = BitVec.ofNat 32 b.toNat := (BitVec.ofNat_toNat 32 b).symm

theorem State.errf_eq (s : State) : s.errf = decide (s.ERR ≠ 0) := by
  rw [State.errf, Bool.eq_iff_iff]
  simp

theorem State.oavail_eq (s : State) : s.oavail = decide (0 < s.O.length ∧ s.FAULT = false) := by
  rw [State.oavail, Bool.eq_iff_iff]
  simp [List.length_pos_iff]

/-- STATUS is the sum of its three flags' weights (20_memory.md R55). -/
theorem State.status_eq (s : State) :
    s.status = BitVec.ofNat 32 ((if s.FAULT then 1 else 0) + (if s.ERR ≠ 0 then 2 else 0) +
      (if 0 < s.O.length ∧ s.FAULT = false then 4 else 0)) := by
  have bits : ∀ f e o : Bool, (0 : BitVec 28) ++ BitVec.ofBool false ++ BitVec.ofBool o ++ BitVec.ofBool e ++
      BitVec.ofBool f = BitVec.ofNat 32 ((if f then 1 else 0) + (if e then 2 else 0) + (if o then 4 else 0)) := by
    decide
  rw [State.status, bits, State.errf_eq, State.oavail_eq]
  simp only [decide_eq_true_eq]

end Sys2Proof.Machine
end

section
/-! SUPPORT. The parameter registers through the shared operations and the commands: SETP alone writes them
(10_state.md R22). -/

namespace Sys2Proof.Machine

theorem withAppend_P (c : Cfg) (b : Buf) (x : List Byte) (s : State) {next : State → State}
    (hn : ∀ u, (next u).P = u.P) : (withAppend c b x s next).P = s.P := by
  rcases withAppend_cases c b x s next with ⟨_, e⟩ | ⟨_, e⟩ <;> rw [e]
  · rfl
  · rw [hn, setBuf_field_P]

theorem withEmit_P (c : Cfg) (size : Nat) (ps : List (List Byte)) (s : State) {next : State → State}
    (hn : ∀ u, (next u).P = u.P) : (withEmit c size ps s next).P = s.P := by
  rcases withEmit_cases c size ps s next with ⟨_, e⟩ | ⟨_, e⟩ <;> rw [e]
  · rfl
  · rw [hn]

theorem textIntoR_P (c : Cfg) (x : List Byte) (s : State) : (textIntoR c x s).P = s.P :=
  withAppend_P c .R x s fun _ => rfl

theorem fcrcRule_P (c : Cfg) (s : State) : (fcrcRule c s).P = s.P := by
  unfold fcrcRule
  split
  · rfl
  · exact withEmit_P c _ _ s fun _ => rfl

theorem flenRule_P (c : Cfg) (s : State) : (flenRule c s).P = s.P := by
  unfold flenRule
  split
  · rfl
  · exact withAppend_P c _ _ s fun _ => rfl

theorem emitRule_P (c : Cfg) (s : State) : (emitRule c s).P = s.P := by
  unfold emitRule
  split
  · rfl
  · exact withEmit_P c _ _ s fun _ => rfl

theorem pageRule_P (c : Cfg) (h0 h1 : Byte) (cs : Nat) (s : State) : (pageRule c h0 h1 cs s).P = s.P := by
  unfold pageRule
  split_ifs
  · rfl
  · rfl
  · exact withEmit_P c _ _ s fun _ => rfl

theorem pagefRule_P (c : Cfg) (h0 h1 : Byte) (cs : Nat) (s : State) : (pagefRule c h0 h1 cs s).P = s.P := by
  unfold pagefRule
  split_ifs
  · rfl
  · rfl
  · rfl
  · exact withEmit_P c _ _ s fun _ => rfl

theorem pcntRule_P (c : Cfg) (cs : Nat) (s : State) : (pcntRule c cs s).P = s.P := by
  unfold pcntRule
  split_ifs
  · rfl
  · rfl
  · exact withAppend_P c _ _ s fun _ => rfl

theorem gtimeRule_P (c : Cfg) (alpha : Alphabet) (s : State) : (gtimeRule c alpha s).P = s.P := by
  unfold gtimeRule
  split_ifs
  · rfl
  · rfl
  · exact withEmit_P c _ _ s fun _ => rfl
  · rfl

theorem galarmRule_P (c : Cfg) (alpha : Alphabet) (pad : Bool) (s : State) : (galarmRule c alpha pad s).P = s.P := by
  unfold galarmRule
  split
  · rfl
  · exact withEmit_P c _ _ s fun _ => rfl

/-- The envelope adds no write of P. -/
theorem command_P {rule : State → State} {s t : State} (hr : (rule s).P = s.P) (h : command rule s = .next t) :
    t.P = s.P := by
  rcases command_cases h with ⟨_, rfl⟩ | ⟨_, rfl⟩
  · rfl
  · exact hr

/-- Every command but SETP leaves the parameter registers. -/
theorem exec_P {i : Instr} {s t : State} (hi : ∀ idx imm8, i ≠ .setp idx imm8) (h : exec i s = .next t) :
    t.P = s.P := by
  cases i with
  | setp idx imm8 => exact absurd rfl (hi idx imm8)
  | nop => exact command_P rfl h
  | putb buf imm8 => exact command_P (withAppend_P _ _ _ s done_P) h
  | clrb mask => exact command_P rfl h
  | enc alpha maxlen pad => exact command_P (textIntoR_P _ _ s) h
  | pack6 => exact command_P (textIntoR_P _ _ s) h
  | pack4 => exact command_P (textIntoR_P _ _ s) h
  | fcrc => exact command_P (fcrcRule_P _ s) h
  | flen => exact command_P (flenRule_P _ s) h
  | emit => exact command_P (emitRule_P _ s) h
  | page h0 h1 cs => exact command_P (pageRule_P _ h0 h1 cs s) h
  | pagef h0 h1 cs => exact command_P (pagefRule_P _ h0 h1 cs s) h
  | pcnt cs => exact command_P (pcntRule_P _ cs s) h
  | gsync n => exact command_P (withEmit_P _ _ _ s done_P) h
  | gstart => exact command_P (withEmit_P _ _ _ s done_P) h
  | gend => exact command_P (withEmit_P _ _ _ s done_P) h
  | gtime alpha => exact command_P (gtimeRule_P _ alpha s) h
  | galarm alpha pad => exact command_P (galarmRule_P _ alpha pad s) h
  | gsndopt => exact command_P (withEmit_P _ _ _ s done_P) h

/-- Only a legal SETP word, written to CMD, changes the parameter registers. -/
theorem writeCmd_P {w : Word} {s t : State} (h : writeCmd w s = .next t) (hP : t.P ≠ s.P) :
    ∃ idx imm8, decode w = .ok (.setp idx imm8) := by
  rcases writeCmd_cases h with ⟨i, hd, hx⟩ | ⟨_, _, hx⟩
  · by_contra hno
    refine hP (exec_P (fun idx imm8 e => hno ⟨idx, imm8, ?_⟩) hx)
    rw [hd, e]
  · exact absurd (command_P rfl hx) hP

theorem readAt_P (off : Nat) (s : State) : (readAt off s).2.P = s.P := by
  rcases readAt_state off s with e | e
  · rw [e]
  · rcases popO_cases s with ⟨_, e'⟩ | ⟨_, _, _, _, e'⟩ <;> rw [e, e']

end Sys2Proof.Machine
end

section
/-! SUPPORT. The invariant of 10_state.md R41 through every command and every access. A command keeps it because each
append and each emission is checked against the capacity before anything is written. -/

namespace Sys2Proof.Machine

variable {c : Cfg} {s : State}

/-! ## Updates outside `withAppend` and `withEmit` -/

/-- The invariant does not speak of the parameter registers and of NPKT. -/
theorem inv_params (h : s.Inv c) (p : Vector Byte 16) (n : Byte) : ({ s with P := p, NPKT := n } : State).Inv c :=
  ⟨h.tFits, h.rFits, h.dFits, h.oFits, h.oEnds, h.causeIff, h.faultEmpty, h.causeCode, h.errCode, h.faultErr⟩

theorem keepUnless_length_le {α : Type} (b : Bool) (x : List α) : (keepUnless b x).length ≤ x.length := by
  cases b <;> simp [keepUnless]

/-- Emptying any of the four buffers keeps the invariant. -/
theorem inv_keepUnless (h : s.Inv c) (t r d o : Bool) :
    ({ s with T := keepUnless t s.T, R := keepUnless r s.R, D := keepUnless d s.D, O := keepUnless o s.O } :
      State).Inv c where
  tFits := (keepUnless_length_le t s.T).trans h.tFits
  rFits := (keepUnless_length_le r s.R).trans h.rFits
  dFits := (keepUnless_length_le d s.D).trans h.dFits
  oFits := (keepUnless_length_le o s.O).trans h.oFits
  oEnds := by
    cases o with
    | true => simp [keepUnless, endsPacket]
    | false => exact h.oEnds
  causeIff := h.causeIff
  faultEmpty := fun hf => by
    obtain ⟨hT, hR, hD, hO⟩ := h.faultEmpty hf
    simp [keepUnless, hT, hR, hD, hO]
  causeCode := h.causeCode
  errCode := h.errCode
  faultErr := h.faultErr

theorem inv_clear_T (h : s.Inv c) : ({ s with T := [] } : State).Inv c := inv_keepUnless h true false false false
theorem inv_clear_R (h : s.Inv c) : ({ s with R := [] } : State).Inv c := inv_keepUnless h false true false false
theorem inv_clear_D (h : s.Inv c) : ({ s with D := [] } : State).Inv c := inv_keepUnless h false false true false

/-- The end of PAGE and PAGEF keeps the invariant. -/
theorem inv_pageDone (n : Nat) (hf : s.FAULT = false) (h : s.Inv c) : (pageDone n s).Inv c :=
  inv_done hf (inv_params (inv_clear_D h) s.P _)

/-! ## The size each emission is checked with is the size of its packets -/

/-- The packets of `paginate` hold the data and three bytes each (43_paginator.md R151, R155). -/
theorem paginate_flatten_length (h0 h1 : Byte) {cs : Nat} (hcs : 1 ≤ cs) (X : List Byte) :
    (paginate h0 h1 cs X).flatten.length = 3 * npk X.length cs + X.length := by
  have hhead : ∀ j, (h0 :: h1 :: BitVec.ofNat 8 (j + 1) :: chunk cs X (j + 1)).length =
      3 + (chunk cs X (j + 1)).length := fun j => by simp only [List.length_cons]; omega
  rw [paginate_eq, length_flatten_map_append _ (fun j => chunk cs X (j + 1)) 3 hhead, chunks_flatten,
    List.length_range, List.take_of_length_le (le_npk_mul hcs)]

/-- The framed packets hold the data and six bytes each (43_paginator.md R156). -/
theorem framed_paginate_flatten_length (h0 h1 : Byte) {cs : Nat} (hcs : 1 ≤ cs) (X : List Byte) :
    ((paginate h0 h1 cs X).map frame).flatten.length = 6 * npk X.length cs + X.length := by
  rw [framed_flatten_length, paginate_length, paginate_flatten_length h0 h1 hcs]
  omega

theorem syncPacket_length (c : Cfg) (n : Nat) : (syncPacket c n).length = 1 + n + c.kSync2Len := by
  simp only [syncPacket, List.length_cons, List.length_append, List.length_replicate]; omega

theorem timePayload_length (c : Cfg) (alpha : Alphabet) (s : State) : (timePayload c alpha s).length = 14 := by
  simp [timePayload]

theorem alarmPayload_length (c : Cfg) (alpha : Alphabet) (pad : Bool) (s : State) :
    (alarmPayload c alpha pad s).length = 7 + (alarmMessage c alpha pad s).length := by
  simp only [alarmPayload, List.length_append, List.length_cons, List.length_nil]; omega

theorem sndoptPayload_length (c : Cfg) (s : State) : (sndoptPayload c s).length = 3 := rfl

/-! ## The command rules, outside the fault state -/

/-- One packet, emitted with its own size. -/
theorem inv_withEmit_one {size : Nat} {p : List Byte} {next : State → State} (hf : s.FAULT = false) (h : s.Inv c)
    (hs : p.length ≤ size) (hn : ∀ u : State, u.FAULT = false → u.Inv c → (next u).Inv c) :
    (withEmit c size [p] s next).Inv c :=
  inv_withEmit hf h (by simpa using hs) hn

theorem inv_textIntoR (hf : s.FAULT = false) (h : s.Inv c) (x : List Byte) : (textIntoR c x s).Inv c :=
  inv_withAppend hf h fun _ hu hi => inv_done hu (inv_clear_T hi)

theorem inv_clrbRule (hf : s.FAULT = false) (h : s.Inv c) (mask : BitVec 4) : (clrbRule mask s).Inv c :=
  inv_done hf (inv_keepUnless h _ _ _ _)

theorem inv_setpRule (hf : s.FAULT = false) (h : s.Inv c) (idx : Fin 16) (imm8 : Byte) :
    (setpRule idx imm8 s).Inv c :=
  inv_done hf (inv_params h _ s.NPKT)

theorem inv_fcrcRule (hf : s.FAULT = false) (h : s.Inv c) : (fcrcRule c s).Inv c := by
  unfold fcrcRule
  split
  · exact inv_reject hf h _
  · exact inv_withEmit_one hf h (Nat.le_refl _) fun _ hu hi => inv_done hu (inv_clear_R hi)

theorem inv_flenRule (hf : s.FAULT = false) (h : s.Inv c) : (flenRule c s).Inv c := by
  unfold flenRule
  split
  · exact inv_reject hf h _
  · exact inv_withAppend hf h fun _ hu hi => inv_done hu (inv_clear_R hi)

theorem inv_emitRule (hf : s.FAULT = false) (h : s.Inv c) : (emitRule c s).Inv c := by
  unfold emitRule
  split
  · exact inv_reject hf h _
  · exact inv_withEmit_one hf h (Nat.le_refl _) fun _ hu hi => inv_done hu (inv_clear_R hi)

theorem inv_pageRule (hf : s.FAULT = false) (h : s.Inv c) (h0 h1 : Byte) (cs : Nat) :
    (pageRule c h0 h1 cs s).Inv c := by
  unfold pageRule
  split_ifs with hcs
  · exact inv_reject hf h _
  · exact inv_reject hf h _
  · have hsize := paginate_flatten_length h0 h1 (Nat.one_le_iff_ne_zero.mpr hcs) s.D
    exact inv_withEmit hf h hsize.le fun _ hu hi => inv_pageDone _ hu hi

theorem inv_pagefRule (hf : s.FAULT = false) (h : s.Inv c) (h0 h1 : Byte) (cs : Nat) :
    (pagefRule c h0 h1 cs s).Inv c := by
  unfold pagefRule
  split_ifs with hcs
  · exact inv_reject hf h _
  · exact inv_reject hf h _
  · exact inv_reject hf h _
  · have hsize := framed_paginate_flatten_length h0 h1 (Nat.one_le_iff_ne_zero.mpr hcs) s.D
    exact inv_withEmit hf h hsize.le fun _ hu hi => inv_pageDone _ hu hi

theorem inv_pcntRule (hf : s.FAULT = false) (h : s.Inv c) (cs : Nat) : (pcntRule c cs s).Inv c := by
  unfold pcntRule
  split_ifs
  · exact inv_reject hf h _
  · exact inv_reject hf h _
  · exact inv_withAppend hf h fun u hu hi => inv_done hu (inv_params hi u.P _)

theorem inv_gsyncRule (hf : s.FAULT = false) (h : s.Inv c) (n : Nat) : (gsyncRule c n s).Inv c :=
  inv_withEmit_one hf h (syncPacket_length c n).le fun _ => inv_done

theorem inv_gtimeRule (hf : s.FAULT = false) (h : s.Inv c) (alpha : Alphabet) : (gtimeRule c alpha s).Inv c := by
  unfold gtimeRule
  split_ifs
  · exact inv_raiseFault c s (by decide)
  · exact inv_reject hf h _
  · exact inv_withEmit_one hf h (by simp [timePayload_length]) fun _ hu hi => inv_done hu (inv_clear_T hi)
  · exact inv_reject hf h _

theorem inv_galarmRule (hf : s.FAULT = false) (h : s.Inv c) (alpha : Alphabet) (pad : Bool) :
    (galarmRule c alpha pad s).Inv c := by
  unfold galarmRule
  split
  · exact inv_raiseFault c s (by decide)
  · have hsize : (frame (alarmPayload c alpha pad s)).length = 10 + (alarmMessage c alpha pad s).length := by
      rw [frame_length, alarmPayload_length]; omega
    exact inv_withEmit_one hf h hsize.le fun _ hu hi => inv_done hu (inv_clear_T hi)

theorem inv_gsndoptRule (hf : s.FAULT = false) (h : s.Inv c) : (gsndoptRule c s).Inv c :=
  inv_withEmit_one hf h (by rw [frame_length, sndoptPayload_length]) fun _ => inv_done

/-! ## Commands and accesses -/

/-- The envelope keeps the invariant if the rule does outside the fault state. -/
theorem inv_command {rule : State → State} {t : State} (h : s.Inv c)
    (hr : s.FAULT = false → (rule s).Inv c) (hx : command rule s = .next t) : t.Inv c := by
  rcases command_cases hx with ⟨_, rfl⟩ | ⟨hf, rfl⟩
  · exact inv_reject_faulted h
  · exact hr hf

/-- Every command keeps the invariant. -/
theorem inv_exec {i : Instr} {t : State} (h : s.Inv Config.cfg) (hx : exec i s = .next t) : t.Inv Config.cfg := by
  cases i with
  | nop => exact inv_command h (fun hf => inv_done hf h) hx
  | putb buf imm8 => exact inv_command h (fun hf => inv_withAppend hf h fun _ => inv_done) hx
  | setp idx imm8 => exact inv_command h (fun hf => inv_setpRule hf h idx imm8) hx
  | clrb mask => exact inv_command h (fun hf => inv_clrbRule hf h mask) hx
  | enc alpha maxlen pad => exact inv_command h (fun hf => inv_textIntoR hf h _) hx
  | pack6 => exact inv_command h (fun hf => inv_textIntoR hf h _) hx
  | pack4 => exact inv_command h (fun hf => inv_textIntoR hf h _) hx
  | fcrc => exact inv_command h (fun hf => inv_fcrcRule hf h) hx
  | flen => exact inv_command h (fun hf => inv_flenRule hf h) hx
  | emit => exact inv_command h (fun hf => inv_emitRule hf h) hx
  | page h0 h1 cs => exact inv_command h (fun hf => inv_pageRule hf h h0 h1 cs) hx
  | pagef h0 h1 cs => exact inv_command h (fun hf => inv_pagefRule hf h h0 h1 cs) hx
  | pcnt cs => exact inv_command h (fun hf => inv_pcntRule hf h cs) hx
  | gsync n => exact inv_command h (fun hf => inv_gsyncRule hf h n) hx
  | gstart => exact inv_command h (fun hf => inv_withEmit_one hf h (Nat.le_refl _) fun _ => inv_done) hx
  | gend => exact inv_command h (fun hf => inv_withEmit_one hf h (Nat.le_refl _) fun _ => inv_done) hx
  | gtime alpha => exact inv_command h (fun hf => inv_gtimeRule hf h alpha) hx
  | galarm alpha pad => exact inv_command h (fun hf => inv_galarmRule hf h alpha pad) hx
  | gsndopt => exact inv_command h (fun hf => inv_gsndoptRule hf h) hx

/-- A CMD write keeps the invariant, whether or not its word is legal. -/
theorem inv_writeCmd {w : Word} {t : State} (h : s.Inv Config.cfg) (hx : writeCmd w s = .next t) :
    t.Inv Config.cfg := by
  rcases writeCmd_cases hx with ⟨_, _, hx⟩ | ⟨_, _, hx⟩
  · exact inv_exec h hx
  · exact inv_command h (fun hf => inv_reject hf h _) hx

theorem inv_writeCtrl (h : s.Inv c) (v : Word) : (writeCtrl v s).Inv c := by
  cases hv : v.getLsbD 0 with
  | true => rw [writeCtrl_srst hv]; exact inv_resetBlock c s
  | false => rw [writeCtrl_ignored hv]; exact h

theorem inv_readAt (h : s.Inv c) (off : Nat) : (readAt off s).2.Inv c := by
  rcases readAt_state off s with e | e <;> rw [e]
  · exact h
  · exact inv_popO h

/-- Every access that is served keeps the invariant. -/
theorem inv_serve {a : Access} {t : State} (h : s.Inv Config.cfg) (hx : serve a s = .next t) : t.Inv Config.cfg := by
  rcases serve_cases hx with ⟨off, _, _, rfl⟩ | ⟨_, _, hw⟩ | ⟨v, _, rfl⟩ | ⟨_, _, _, _, _, _, rfl⟩ | ⟨_, rfl⟩
  · exact inv_host_fields (inv_readAt h off) _ _
  · exact inv_writeCmd h hw
  · exact inv_writeCtrl h v
  · exact h
  · exact inv_resetBlock _ s

end Sys2Proof.Machine
end

section
/-! The obligations on the state: O55, O14, O47, O51, O54 (10_state.md). -/

namespace Sys2Proof.Machine

/-- Settles O55: the step is idle or serves one access, and every access keeps the invariant. -/
theorem stepKeepsInvariant : Obligations.StepKeepsInvariant := by
  intro s t h hs
  rcases step_cases hs with ⟨_, rfl⟩ | ⟨_, rest, _, hx⟩
  · exact h
  · exact inv_serve (inv_host_fields h rest s.rdata) hx

/-- Settles O14: of the accesses a step can serve, reads and ignored writes keep P, and a CMD write keeps it unless its
word decodes to SETP. -/
theorem parameterRegistersChangeOnlyBySetpOrReset : Obligations.ParameterRegistersChangeOnlyBySetpOrReset := by
  intro s t hs hP
  rcases step_cases hs with ⟨_, rfl⟩ | ⟨a, rest, ha, hx⟩
  · exact absurd rfl hP
  rcases serve_cases hx with
    ⟨off, _, _, rfl⟩ | ⟨w, rfl, hw⟩ | ⟨v, rfl, rfl⟩ | ⟨_, _, _, _, _, _, rfl⟩ | ⟨rfl, _⟩
  · exact absurd (readAt_P off _) hP
  · obtain ⟨idx, imm8, hd⟩ := writeCmd_P hw hP
    exact .inr (.inr ⟨w, rest, idx, imm8, ha, hd⟩)
  · cases hv : v.getLsbD 0 with
    | true => exact .inr (.inl ⟨v, rest, ha, hv⟩)
    | false => rw [writeCtrl_ignored hv] at hP; exact absurd rfl hP
  · exact absurd rfl hP
  · exact .inl ⟨rest, ha⟩

/-- Settles O47: each offset is a register's, and what `readReg` returns for it is the number the map gives. -/
theorem registersReadTheState : Obligations.RegistersReadTheState := by
  refine ⟨readsAs_reg .status fun s rest => ?_, readsAs_reg .err fun s rest => ?_, readsAs_reg .cause fun s rest => ?_,
    readsAs_reg .tlen fun _ _ => rfl, readsAs_reg .rlen fun _ _ => rfl, readsAs_reg .dlen fun _ _ => rfl,
    readsAs_reg .olen fun _ _ => rfl, readsAs_reg .opkts fun s rest => ?_, readsAs_reg .npkt fun s rest => ?_,
    fun i => readsAs_reg (.pview i) fun s rest => ?_⟩
  · rw [readReg, State.status_eq]
  · rw [readReg, byteWord_eq]
  · rw [readReg, byteWord_eq]
  · rw [readReg, State.opkts, List.countP_eq_length_filter]; rfl
  · rw [readReg, byteWord_eq]
  · rw [readReg, byteWord_eq]; rfl

/-- Settles O51: `State.reset` is R42's table, and `resetBlock` is where both resets lead. -/
theorem stateAfterReset : Obligations.StateAfterReset := by
  refine ⟨by decide, rfl, rfl, rfl, rfl, rfl, rfl, rfl, rfl, by decide, rfl, fun s rest v h => ?_⟩
  rcases h with ha | ⟨ha, hv⟩
  · rw [step_serves ha]; rfl
  · rw [step_write_ctrl ha, writeCtrl_srst hv]; rfl

/-- Settles O54: `State.reset` is the reset of itself, so it meets the invariant as every reset does. -/
theorem resetMeetsInvariant : Obligations.ResetMeetsInvariant :=
  ⟨inv_resetBlock Config.cfg State.reset, rfl, fun _ h => absurd h List.not_mem_nil⟩

end Sys2Proof.Machine
end

section
/-! SUPPORT. How a command ends (00_scope.md R13): every rule ends in `reject`, `raiseFault` or `done`, and one that ends in
`done` has left O alone, emptied it or extended it by whole packets (20_memory.md R53). -/

namespace Sys2Proof.Machine

/-- What a command may do to the queue: keep it, empty it, or append whole non-empty packets (20_memory.md R53). -/
def OutputGrows (q q' : List Entry) : Prop :=
  q' = q ∨ q' = [] ∨ ∃ ps : List (List Byte), (∀ p ∈ ps, p ≠ []) ∧ q' = q ++ ps.flatMap entries

theorem OutputGrows.keepUnless (b : Bool) (q : List Entry) : OutputGrows q (keepUnless b q) := by
  cases b with
  | true => exact .inr (.inl rfl)
  | false => exact .inl rfl

/-- The three ways a command ends (00_scope.md R13). -/
inductive Ends (s : State) : State → Prop
  /-- A rejection. -/
  | rejected (e : Code) : Ends s (reject e s)
  /-- Fatal fault entry. -/
  | faulted (f : Cause) : Ends s (raiseFault f s)
  /-- Completion, with what has become of the queue. -/
  | completed {u : State} (grows : OutputGrows s.O u.O) : Ends s (done u)

/-- However a command ends, O is kept, emptied or extended by whole packets. -/
theorem Ends.output {s t : State} (h : Ends s t) : OutputGrows s.O t.O := by
  cases h with
  | rejected e => exact .inl rfl
  | faulted f => exact .inr (.inl rfl)
  | completed grows => exact grows

/-! ## The shared operations -/

/-- An append, followed by a completion that leaves O. -/
theorem withAppend_ends (c : Cfg) (b : Buf) (x : List Byte) (s : State) {next : State → State}
    (hn : ∀ u, ∃ v, next u = done v ∧ v.O = u.O) : Ends s (withAppend c b x s next) := by
  rcases withAppend_cases c b x s next with ⟨_, e⟩ | ⟨_, e⟩ <;> rw [e]
  · exact .rejected _
  · obtain ⟨v, hv, hO⟩ := hn (s.setBuf b (s.buf b ++ x))
    rw [hv]
    exact .completed (.inl (by rw [hO, setBuf_field_O]))

/-- An emission of non-empty packets, followed by a completion that leaves O. -/
theorem withEmit_ends (c : Cfg) (size : Nat) {ps : List (List Byte)} (s : State) {next : State → State}
    (hps : ∀ p ∈ ps, p ≠ []) (hn : ∀ u, ∃ v, next u = done v ∧ v.O = u.O) : Ends s (withEmit c size ps s next) := by
  rcases withEmit_cases c size ps s next with ⟨_, e⟩ | ⟨_, e⟩ <;> rw [e]
  · exact .rejected _
  · obtain ⟨v, hv, hO⟩ := hn { s with O := s.O ++ ps.flatMap entries }
    rw [hv]
    exact .completed (.inr (.inr ⟨ps, hps, hO⟩))

/-- The emission of one non-empty packet. -/
theorem withEmit_one_ends (c : Cfg) (size : Nat) {p : List Byte} (s : State) {next : State → State} (hp : p ≠ [])
    (hn : ∀ u, ∃ v, next u = done v ∧ v.O = u.O) : Ends s (withEmit c size [p] s next) :=
  withEmit_ends c size s (fun _ hq => List.mem_singleton.mp hq ▸ hp) hn

/-- In the fault state the envelope rejects; otherwise the command ends as its rule does. -/
theorem command_ends {rule : State → State} {s t : State} (hr : Ends s (rule s)) (h : command rule s = .next t) :
    Ends s t := by
  rcases command_cases h with ⟨_, rfl⟩ | ⟨_, rfl⟩
  · exact .rejected _
  · exact hr

/-! ## The command rules -/

theorem setpRule_ends (idx : Fin 16) (imm8 : Byte) (s : State) : Ends s (setpRule idx imm8 s) :=
  .completed (.inl rfl)

/-- Bit 3 of CLRB's mask decides whether O is emptied (40_buffer_ops.md R105). -/
theorem clrbRule_ends (mask : BitVec 4) (s : State) : Ends s (clrbRule mask s) :=
  .completed (.keepUnless (mask.getLsbD 3) s.O)

theorem textIntoR_ends (c : Cfg) (x : List Byte) (s : State) : Ends s (textIntoR c x s) :=
  withAppend_ends c .R x s fun _ => ⟨_, rfl, rfl⟩

theorem fcrcRule_ends (c : Cfg) (s : State) : Ends s (fcrcRule c s) := by
  unfold fcrcRule
  split
  · exact .rejected _
  · exact withEmit_one_ends c _ s (frame_ne_nil _) fun _ => ⟨_, rfl, rfl⟩

theorem flenRule_ends (c : Cfg) (s : State) : Ends s (flenRule c s) := by
  unfold flenRule
  split
  · exact .rejected _
  · exact withAppend_ends c _ _ s fun _ => ⟨_, rfl, rfl⟩

/-- EMIT's packet is R itself; that it is not empty is what EMIT checks first (42_framers.md R140). -/
theorem emitRule_ends (c : Cfg) (s : State) : Ends s (emitRule c s) := by
  unfold emitRule
  split
  · exact .rejected _
  · rename_i hR
    exact withEmit_one_ends c _ s (fun e => hR (List.length_eq_zero_iff.mpr e)) fun _ => ⟨_, rfl, rfl⟩

theorem pageRule_ends (c : Cfg) (h0 h1 : Byte) (cs : Nat) (s : State) : Ends s (pageRule c h0 h1 cs s) := by
  unfold pageRule
  split_ifs
  · exact .rejected _
  · exact .rejected _
  · exact withEmit_ends c _ s paginate_ne_nil fun _ => ⟨_, rfl, rfl⟩

theorem pagefRule_ends (c : Cfg) (h0 h1 : Byte) (cs : Nat) (s : State) : Ends s (pagefRule c h0 h1 cs s) := by
  have hps : ∀ p ∈ (paginate h0 h1 cs s.D).map frame, p ≠ [] := by
    intro p hp
    obtain ⟨X, _, rfl⟩ := List.mem_map.mp hp
    exact frame_ne_nil X
  unfold pagefRule
  split_ifs
  · exact .rejected _
  · exact .rejected _
  · exact .rejected _
  · exact withEmit_ends c _ s hps fun _ => ⟨_, rfl, rfl⟩

theorem pcntRule_ends (c : Cfg) (cs : Nat) (s : State) : Ends s (pcntRule c cs s) := by
  unfold pcntRule
  split_ifs
  · exact .rejected _
  · exact .rejected _
  · exact withAppend_ends c _ _ s fun _ => ⟨_, rfl, rfl⟩

theorem gtimeRule_ends (c : Cfg) (alpha : Alphabet) (s : State) : Ends s (gtimeRule c alpha s) := by
  unfold gtimeRule
  split_ifs
  · exact .faulted _
  · exact .rejected _
  · exact withEmit_one_ends c _ s (frame_ne_nil _) fun _ => ⟨_, rfl, rfl⟩
  · exact .rejected _

theorem galarmRule_ends (c : Cfg) (alpha : Alphabet) (pad : Bool) (s : State) :
    Ends s (galarmRule c alpha pad s) := by
  unfold galarmRule
  split
  · exact .faulted _
  · exact withEmit_one_ends c _ s (frame_ne_nil _) fun _ => ⟨_, rfl, rfl⟩

/-- A generator without checks of its own: one packet, then `done`. -/
theorem generator_ends (c : Cfg) (size : Nat) {p : List Byte} (s : State) (hp : p ≠ []) :
    Ends s (withEmit c size [p] s done) :=
  withEmit_one_ends c size s hp fun u => ⟨u, rfl, rfl⟩

/-- Every command, in every state, ends in one of the three ways. -/
theorem exec_ends {i : Instr} {s t : State} (h : exec i s = .next t) : Ends s t := by
  cases i with
  | nop => exact command_ends (.completed (.inl rfl)) h
  | putb buf imm8 => exact command_ends (withAppend_ends _ _ _ s fun u => ⟨u, rfl, rfl⟩) h
  | setp idx imm8 => exact command_ends (setpRule_ends idx imm8 s) h
  | clrb mask => exact command_ends (clrbRule_ends mask s) h
  | enc alpha maxlen pad => exact command_ends (textIntoR_ends _ _ s) h
  | pack6 => exact command_ends (textIntoR_ends _ _ s) h
  | pack4 => exact command_ends (textIntoR_ends _ _ s) h
  | fcrc => exact command_ends (fcrcRule_ends _ s) h
  | flen => exact command_ends (flenRule_ends _ s) h
  | emit => exact command_ends (emitRule_ends _ s) h
  | page h0 h1 cs => exact command_ends (pageRule_ends _ h0 h1 cs s) h
  | pagef h0 h1 cs => exact command_ends (pagefRule_ends _ h0 h1 cs s) h
  | pcnt cs => exact command_ends (pcntRule_ends _ cs s) h
  | gsync n => exact command_ends (generator_ends _ _ s (List.cons_ne_nil _ _)) h
  | gstart => exact command_ends (generator_ends _ _ s (frame_ne_nil _)) h
  | gend => exact command_ends (generator_ends _ _ s (frame_ne_nil _)) h
  | gtime alpha => exact command_ends (gtimeRule_ends _ alpha s) h
  | galarm alpha pad => exact command_ends (galarmRule_ends _ alpha pad s) h
  | gsndopt => exact command_ends (generator_ends _ _ s (frame_ne_nil _)) h

end Sys2Proof.Machine
end

section
/-! SUPPORT. What a step answers for each kind of access: a CMD write, a read, an ignored write, an undefined access
(20_memory.md R57 to R59). -/

namespace Sys2Proof.Machine

/-! ## CMD writes (20_memory.md R58) -/

/-- A write of a legal word to CMD executes the command. -/
theorem writeCmd_legal {w : Word} {i : Instr} (hd : decode w = .ok i) (s : State) : writeCmd w s = exec i s := by
  rw [writeCmd, hd]

/-- A step that serves a CMD write. -/
theorem step_write_cmd {s : State} {w : Word} {rest : List Access} (h : s.accesses = .write 0x00 32 w :: rest) :
    step s = writeCmd w { s with accesses := rest } := by
  rw [step_serves h]; rfl

/-- A fetched 32-bit word is the oldest waiting access, a write of that word to CMD. -/
theorem withFetchWord_accesses (s : State) (w : Word) :
    (s.withFetchWord 32 w.toNat).accesses = .write 0x00 32 w :: s.accesses := by
  rw [State.withFetchWord, Nat.mod_eq_of_lt w.isLt, BitVec.ofNat_toNat, BitVec.setWidth_eq, cmdWrite]

/-! ## Reads (20_memory.md R57, R59) -/

/-- A step that serves an aligned read delivers what `readAt` returns. -/
theorem step_read {s : State} {off : Nat} {rest : List Access} (ha : off % 4 = 0)
    (h : s.accesses = .read off 32 :: rest) :
    step s = .next (deliver (readAt off { s with accesses := rest })) := by
  rw [step_serves h, serve, if_pos (accessDefined_iff.mpr ⟨rfl, ha⟩)]

theorem popO_empty {s : State} (h : s.FAULT = true ∨ s.O = []) : popO s = (0, s) := by
  rcases popO_cases s with ⟨_, e⟩ | ⟨e, q, hf, ho, _⟩
  · exact e
  · simp [hf, ho] at h

theorem popO_head {s : State} {e : Entry} {q : List Entry} (hf : s.FAULT = false) (ho : s.O = e :: q) :
    popO s = (e.word, { s with O := q }) := by
  simp [popO, hf, ho]

/-- An entry's word as a number: VALID, EOP and the byte (20_memory.md R57). -/
theorem Entry.word_toNat (e : Entry) :
    e.word.toNat = 2 ^ 9 + (if e.eop then 2 ^ 8 else 0) + e.byte.toNat := by
  have heop : (BitVec.ofBool e.eop).toNat * 2 ^ 8 = if e.eop then 2 ^ 8 else 0 := by cases e.eop <;> rfl
  rw [Entry.word, toNat_append_add, toNat_append_add, toNat_append_add, Nat.add_mul, heop]
  rfl

/-- Of the registers only ODATA is changed by being read. -/
theorem readReg_state {r : Reg} (h : r ≠ .odata) (s : State) : (readReg r s).2 = s := by
  cases r with
  | odata => exact absurd rfl h
  | _ => rfl

/-- A read at any aligned offset but ODATA's has no side effect. -/
theorem readAt_state_of_ne {off : Nat} (ha : off % 4 = 0) (h : off ≠ 0x10) (s : State) : (readAt off s).2 = s := by
  unfold readAt
  split
  · rename_i r hr
    exact readReg_state (fun e => h ((regAt_iff ha .odata).mp (e ▸ hr))) s
  · rfl

/-- Above 0x7C and from 0x30 to 0x3C there is no register (20_memory.md R55). -/
theorem regAt_unmapped {off : Nat} (ha : off % 4 = 0) (h : 0x7C < off ∨ (0x30 ≤ off ∧ off ≤ 0x3C)) :
    regAt off = none := by
  cases hr : regAt off with
  | none => rfl
  | some r =>
    have ho := (regAt_iff ha r).mp hr
    cases r <;> simp only [Reg.offset] at ho <;> omega

/-- An offset without a register reads 0. -/
theorem readsAs_unmapped {off : Nat} (ha : off % 4 = 0) (h : regAt off = none) : ReadsAs off fun _ => 0 := by
  intro s rest hs
  rw [step_read ha hs, readAt, h]
  rfl

/-! ## Undefined accesses (20_memory.md R59) -/

theorem accessDefined_eq_false {off width : Nat} (h : width ≠ 32 ∨ off % 4 ≠ 0) : accessDefined off width = false := by
  rw [← Bool.not_eq_true, accessDefined_iff, not_and_or]
  exact h

theorem serve_read_undefined {off width : Nat} (h : accessDefined off width = false) (s : State) :
    serve (.read off width) s = .refused (.undefinedAccess off width) := by
  rw [serve, h]; rfl

theorem serve_write_undefined {off width : Nat} (h : accessDefined off width = false) (v : Word) (s : State) :
    serve (.write off width v) s = .refused (.undefinedAccess off width) := by
  rw [serve, h]; rfl

end Sys2Proof.Machine
end

section
/-! The obligations on the host's view of the block: O15, O6, O48, O49 (20_memory.md). -/

namespace Sys2Proof.Machine

/-- Settles O15: a command rejects, faults or completes, and each emission is of non-empty packets. -/
theorem outputGrowsByWholePackets : Obligations.OutputGrowsByWholePackets :=
  fun _ _ _ h => (exec_ends h).output

/-- Settles O6: a CMD write of a legal word executes it, and `withFetchWord` puts such a write in front. -/
theorem stepExecutesTheDecodedCommand : Obligations.StepExecutesTheDecodedCommand := by
  refine ⟨fun s w rest i ha hd => ?_, fun s w i hd => ?_⟩
  · rw [step_write_cmd ha, writeCmd_legal hd]
  · rw [step_write_cmd (withFetchWord_accesses s w), writeCmd_legal hd]
    rfl

/-- Settles O48: a read of ODATA is `popO`, which returns and removes the head of O if there is one to be seen; a read of
any other offset leaves the state. -/
theorem odataReadRemovesTheHead : Obligations.OdataReadRemovesTheHead := by
  refine fun s rest => ⟨fun ha h => ?_, fun e q ha hf ho => ?_, fun off ha h4 hne => ?_⟩
  · rw [step_read_reg .odata ha, readReg, popO_empty (by exact h)]
    rfl
  · refine ⟨_, step_read_reg .odata ha, ?_⟩
    rw [readReg, popO_head (by exact hf) (by exact ho)]
    exact ⟨e.word_toNat, rfl⟩
  · refine ⟨(readAt off { s with accesses := rest }).1, ?_⟩
    rw [step_read h4 ha, deliver, readAt_state_of_ne h4 hne]

/-- Settles O49: CMD and CTRL read 0, as an offset without a register does; only their writes are not ignored; serving an
undefined access refuses it. -/
theorem unmappedAndUndefinedAccesses : Obligations.UnmappedAndUndefinedAccesses := by
  refine ⟨fun off h4 h => ?_, fun s off v rest h4 h0 h2C ha => ?_, fun s off width rest h => ⟨fun ha => ?_, fun v ha => ?_⟩⟩
  · rcases h with h | h | rfl | rfl
    · exact readsAs_unmapped h4 (regAt_unmapped h4 (.inl h))
    · exact readsAs_unmapped h4 (regAt_unmapped h4 (.inr h))
    · exact readsAs_reg .cmd fun _ _ => rfl
    · exact readsAs_reg .ctrl fun _ _ => rfl
  · rw [step_serves ha, serve, if_pos (accessDefined_iff.mpr ⟨rfl, h4⟩)]
    rcases writeAt_cases h4 v { s with accesses := rest } with ⟨e, _⟩ | ⟨e, _⟩ | ⟨_, _, e⟩
    · exact absurd e h0
    · exact absurd e h2C
    · exact e
  · rw [step_serves ha, serve_read_undefined (accessDefined_eq_false h)]
  · rw [step_serves ha, serve_write_undefined (accessDefined_eq_false h)]

end Sys2Proof.Machine
end

section
/-! SUPPORT. The decoder, format by format (30_encoding.md R71): the exact fields each format accepts and the command it
makes of them. Decoding an encoded word and encoding a decoded one are the two directions of these equivalences. -/

namespace Sys2Proof

/-! ## Fields whose reserved bits are 0 (30_encoding.md R71) -/

/-- A field whose reserved high bits are 0 is its operand with zeros above. -/
theorem eq_zero_append_iff {n m : Nat} {x : BitVec (n + m)} {y : BitVec m} :
    x = (0 : BitVec n) ++ y ↔ x.extractLsb' m n = 0 ∧ x.extractLsb' 0 m = y := by
  constructor
  · rintro rfl
    exact ⟨BitVec.extractLsb'_append_eq_left, BitVec.extractLsb'_append_eq_right⟩
  · rintro ⟨h, rfl⟩
    rw [← h, BitVec.extractLsb'_append_extractLsb']

/-! ## What each format accepts (30_encoding.md R71) -/

/-- A checked decoding answers a command exactly when its check passes. -/
theorem ite_eq_ok_iff {p : Prop} [Decidable p] {i j : Instr} {e : Illegal} :
    (if p then .ok j else .error e : Except Illegal Instr) = .ok i ↔ p ∧ j = i := by
  by_cases hp : p <;> simp [hp]

theorem decodeZ_ok_iff {a b c : Byte} {i j : Instr} :
    decodeZ a b c j = .ok i ↔ (a = 0 ∧ b = 0 ∧ c = 0) ∧ j = i := by
  rw [decodeZ, ite_eq_ok_iff]

theorem decodeB_ok_iff {a b c : Byte} {i : Instr} :
    decodeB a b c = .ok i ↔ ∃ buf, (a = (0 : BitVec 6) ++ buf.sel ∧ b = 0) ∧ .putb buf c = i := by
  constructor
  · intro h
    unfold decodeB at h
    split at h
    · rename_i hab
      split at h
      · rename_i buf hbuf
        injection h with h
        exact ⟨buf, ⟨(eq_zero_append_iff (n := 6) (m := 2)).mpr ⟨hab.1, (sel_of_bufOfSel hbuf).symm⟩, hab.2⟩, h⟩
      · cases h
    · cases h
  · rintro ⟨buf, ⟨ha, rfl⟩, rfl⟩
    obtain ⟨hhigh, hsel⟩ := (eq_zero_append_iff (n := 6) (m := 2)).mp ha
    simp [decodeB, hhigh, hsel]

theorem decodeS_ok_iff {a b c : Byte} {i : Instr} :
    decodeS a b c = .ok i ↔ ∃ idx, (a = (0 : BitVec 4) ++ BitVec.ofFin (w := 4) idx ∧ b = 0) ∧ .setp idx c = i := by
  rw [decodeS, ite_eq_ok_iff]
  constructor
  · rintro ⟨⟨ha, hb⟩, hi⟩
    exact ⟨_, ⟨(eq_zero_append_iff (n := 4) (m := 4)).mpr ⟨ha, rfl⟩, hb⟩, hi⟩
  · rintro ⟨idx, ⟨ha, rfl⟩, rfl⟩
    obtain ⟨hhigh, hidx⟩ := (eq_zero_append_iff (n := 4) (m := 4)).mp ha
    exact ⟨⟨hhigh, rfl⟩, by rw [hidx]⟩

theorem decodeM_ok_iff {a b c : Byte} {i : Instr} :
    decodeM a b c = .ok i ↔ ∃ mask, (a = 0 ∧ b = 0 ∧ c = (0 : BitVec 4) ++ mask) ∧ .clrb mask = i := by
  rw [decodeM, ite_eq_ok_iff]
  constructor
  · rintro ⟨⟨ha, hb, hc⟩, hi⟩
    exact ⟨_, ⟨ha, hb, (eq_zero_append_iff (n := 4) (m := 4)).mpr ⟨hc, rfl⟩⟩, hi⟩
  · rintro ⟨mask, ⟨rfl, rfl, hc⟩, rfl⟩
    obtain ⟨hhigh, hmask⟩ := (eq_zero_append_iff (n := 4) (m := 4)).mp hc
    exact ⟨⟨rfl, rfl, hhigh⟩, by rw [hmask]⟩

theorem decodeE_ok_iff {a b c : Byte} {i : Instr} :
    decodeE a b c = .ok i ↔
      ∃ alpha pad, (a = encodePadAlpha alpha pad ∧ b = 0) ∧ .enc alpha c.toNat pad = i := by
  rw [decodeE, ite_eq_ok_iff]
  constructor
  · rintro ⟨⟨ha, hb⟩, hi⟩
    exact ⟨_, _, ⟨(padAlpha_eta ha).symm, hb⟩, hi⟩
  · rintro ⟨alpha, pad, ⟨rfl, rfl⟩, rfl⟩
    simp

theorem decodeG_ok_iff {a b c : Byte} {f : Byte → Byte → Nat → Instr} {i : Instr} :
    decodeG a b c f = .ok i ↔ f a b c.toNat = i := by
  rw [decodeG, Except.ok.injEq]

theorem decodeC_ok_iff {a b c : Byte} {i : Instr} :
    decodeC a b c = .ok i ↔ (a = 0 ∧ b = 0) ∧ .pcnt c.toNat = i := by
  rw [decodeC, ite_eq_ok_iff]

theorem decodeY_ok_iff {a b c : Byte} {i : Instr} :
    decodeY a b c = .ok i ↔ a = 0 ∧ .gsync (b.toNat * 2 ^ 8 + c.toNat) = i := by
  rw [decodeY, ite_eq_ok_iff, toNat_append_add]

theorem decodeATime_ok_iff {a b c : Byte} {i : Instr} :
    decodeATime a b c = .ok i ↔ ∃ alpha, (a = encodePadAlpha alpha false ∧ b = 0 ∧ c = 0) ∧ .gtime alpha = i := by
  constructor
  · intro h
    unfold decodeATime at h
    split at h
    · rename_i habc
      obtain ⟨ha, hb, hc⟩ := habc
      split at h
      · cases h
      · rename_i hpad
        injection h with h
        have ha' := padAlpha_eta ha
        rw [Bool.eq_false_of_not_eq_true hpad] at ha'
        exact ⟨_, ⟨ha'.symm, hb, hc⟩, h⟩
    · cases h
  · rintro ⟨alpha, ⟨rfl, rfl, rfl⟩, rfl⟩
    simp [decodeATime]

theorem decodeAAlarm_ok_iff {a b c : Byte} {i : Instr} :
    decodeAAlarm a b c = .ok i ↔
      ∃ alpha pad, (a = encodePadAlpha alpha pad ∧ b = 0 ∧ c = 0) ∧ .galarm alpha pad = i := by
  rw [decodeAAlarm, ite_eq_ok_iff]
  constructor
  · rintro ⟨⟨ha, hb, hc⟩, hi⟩
    exact ⟨_, _, ⟨(padAlpha_eta ha).symm, hb, hc⟩, hi⟩
  · rintro ⟨alpha, pad, ⟨rfl, rfl, rfl⟩, rfl⟩
    simp

/-! ## The round trips (30_encoding.md R71 to R81, R84) -/

/-- A byte is the encoding of the count it stands for. -/
theorem ofNat_toNat_byte (x : Byte) : BitVec.ofNat 8 x.toNat = x := by simp

/-- A count that fits a byte is read back from it. -/
theorem toNat_ofNat_byte {n : Nat} (h : n < 256) : (BitVec.ofNat 8 n).toNat = n := Nat.mod_eq_of_lt h

/-- Every operand comes back from its field. -/
theorem decode_encode {i : Instr} (hi : i.WellFormed) : decode (encode i) = .ok i := by
  cases i <;> rw [encode, decode_ofFields]
  case putb buf v => exact decodeB_ok_iff.mpr ⟨buf, ⟨rfl, rfl⟩, rfl⟩
  case setp idx v => exact decodeS_ok_iff.mpr ⟨idx, ⟨rfl, rfl⟩, rfl⟩
  case clrb mask => exact decodeM_ok_iff.mpr ⟨mask, ⟨rfl, rfl, rfl⟩, rfl⟩
  case enc alpha n pad =>
    exact decodeE_ok_iff.mpr ⟨alpha, pad, ⟨rfl, rfl⟩, by rw [toNat_ofNat_byte ((wf_enc _ _ _).mp hi)]⟩
  case page h0 h1 cs => exact decodeG_ok_iff.mpr (by rw [toNat_ofNat_byte ((wf_page _ _ _).mp hi)])
  case pagef h0 h1 cs => exact decodeG_ok_iff.mpr (by rw [toNat_ofNat_byte ((wf_pagef _ _ _).mp hi)])
  case pcnt cs => exact decodeC_ok_iff.mpr ⟨⟨rfl, rfl⟩, by rw [toNat_ofNat_byte ((wf_pcnt _).mp hi)]⟩
  case gsync n =>
    have hn : n < 65536 := (wf_gsync n).mp hi
    refine decodeY_ok_iff.mpr ⟨rfl, ?_⟩
    rw [toNat_ofNat_byte (by omega), toNat_ofNat_byte (by omega)]
    exact congrArg Instr.gsync (Nat.div_add_mod' n 256)
  case gtime alpha => exact decodeATime_ok_iff.mpr ⟨alpha, ⟨rfl, rfl, rfl⟩, rfl⟩
  case galarm alpha pad => exact decodeAAlarm_ok_iff.mpr ⟨alpha, pad, ⟨rfl, rfl, rfl⟩, rfl⟩
  all_goals exact decodeZ_ok_iff.mpr ⟨⟨rfl, rfl, rfl⟩, rfl⟩

/-- The fields that decode to a command are the ones its encoding has. -/
theorem encode_of_decodeFields {op a b c : Byte} {i : Instr} (h : decodeFields op a b c = .ok i) :
    i.WellFormed ∧ encode i = ofFields op a b c := by
  unfold decodeFields at h
  rw [← ofNat_toNat_byte op]
  generalize op.toNat = n at h ⊢
  split at h
  case h_2 => obtain ⟨buf, ⟨rfl, rfl⟩, rfl⟩ := decodeB_ok_iff.mp h; exact ⟨rfl, rfl⟩
  case h_3 => obtain ⟨idx, ⟨rfl, rfl⟩, rfl⟩ := decodeS_ok_iff.mp h; exact ⟨rfl, rfl⟩
  case h_4 => obtain ⟨mask, ⟨rfl, rfl, rfl⟩, rfl⟩ := decodeM_ok_iff.mp h; exact ⟨rfl, rfl⟩
  case h_5 =>
    obtain ⟨alpha, pad, ⟨rfl, rfl⟩, rfl⟩ := decodeE_ok_iff.mp h
    exact ⟨(wf_enc _ _ _).mpr c.isLt, by rw [encode, ofNat_toNat_byte]; rfl⟩
  case h_11 =>
    obtain rfl := decodeG_ok_iff.mp h
    exact ⟨(wf_page _ _ _).mpr c.isLt, by rw [encode, ofNat_toNat_byte]; rfl⟩
  case h_12 =>
    obtain rfl := decodeG_ok_iff.mp h
    exact ⟨(wf_pagef _ _ _).mpr c.isLt, by rw [encode, ofNat_toNat_byte]; rfl⟩
  case h_13 =>
    obtain ⟨⟨rfl, rfl⟩, rfl⟩ := decodeC_ok_iff.mp h
    exact ⟨(wf_pcnt _).mpr c.isLt, by rw [encode, ofNat_toNat_byte]; rfl⟩
  case h_14 =>
    obtain ⟨rfl, rfl⟩ := decodeY_ok_iff.mp h
    have hb : (b.toNat * 2 ^ 8 + c.toNat) / 256 = b.toNat := by omega
    have hc : (b.toNat * 2 ^ 8 + c.toNat) % 256 = c.toNat := by omega
    exact ⟨(wf_gsync _).mpr (by omega), by rw [encode, hb, hc, ofNat_toNat_byte, ofNat_toNat_byte]; rfl⟩
  case h_17 => obtain ⟨alpha, ⟨rfl, rfl, rfl⟩, rfl⟩ := decodeATime_ok_iff.mp h; exact ⟨rfl, rfl⟩
  case h_18 => obtain ⟨alpha, pad, ⟨rfl, rfl, rfl⟩, rfl⟩ := decodeAAlarm_ok_iff.mp h; exact ⟨rfl, rfl⟩
  case h_20 => cases h
  all_goals obtain ⟨⟨rfl, rfl, rfl⟩, rfl⟩ := decodeZ_ok_iff.mp h; exact ⟨rfl, rfl⟩

/-- The legal words are the encodings of the well-formed commands, one word each. -/
theorem decode_eq_ok_iff {w : Word} {i : Instr} : decode w = .ok i ↔ i.WellFormed ∧ encode i = w := by
  constructor
  · intro h
    obtain ⟨hi, hw⟩ := encode_of_decodeFields h
    exact ⟨hi, hw.trans (ofFields_fields w)⟩
  · rintro ⟨hi, rfl⟩
    exact decode_encode hi

end Sys2Proof
end

section
/-! SUPPORT. The opcode table read as a decoder (30_encoding.md R79): a word that meets a row decodes to a command with the
row's mnemonic. -/

namespace Sys2Proof.Laws

/-- Every word the row accepts decodes to a command with the row's mnemonic. -/
def RowDecodes (row : TableRow) : Prop :=
  ∀ w : Word, row.accepts w = true → ∃ i, decode w = .ok i ∧ i.mnemonic = row.mnemonic

/-- A row whose mask is all ones accepts one word only, the command's own. -/
theorem RowDecodes.fixed (i : Instr) (hi : i.WellFormed) : RowDecodes ⟨i.mnemonic, encode i, 0xFFFFFFFF, false⟩ := by
  intro w h
  have hw : w &&& BitVec.allOnes 32 = encode i := by
    simpa [TableRow.accepts] using h
  rw [BitVec.and_allOnes] at hw
  exact ⟨i, hw ▸ decode_encode hi, rfl⟩

/-- A row decodes its words if the format of its opcode decodes the operand fields the row's mask lets through. -/
theorem RowDecodes.of_fields {row : TableRow} {ma mb mc op : Byte}
    (hm : row.mask = ofFields 0xFF ma mb mc) (hk : row.code = ofFields op 0 0 0)
    (h : ∀ a b c : Byte, a &&& ma = 0 → b &&& mb = 0 → c &&& mc = 0 →
      (row.selectorNot3 = true → a.extractLsb' 0 2 ≠ 3) →
      ∃ i, decodeFields op a b c = .ok i ∧ i.mnemonic = row.mnemonic) : RowDecodes row := by
  intro w hw
  rw [← ofFields_fields w] at hw ⊢
  obtain ⟨⟨hop, ha, hb, hc⟩, hsel⟩ := (accepts_ofFields _ _ _ _ hm hk).mp hw
  have hop' : fieldOp w = op := BitVec.and_allOnes.symm.trans hop
  rw [decode_ofFields, hop']
  exact h _ _ _ ha hb hc hsel

/-! ## The mask of a field -/

theorem eq_of_and_full {x k : Byte} (h : x &&& 0xFF = k) : x = k := BitVec.and_allOnes.symm.trans h

theorem high2_of_mask : ∀ {x : Byte}, x &&& 0xFC = 0 → x.extractLsb' 2 6 = 0 := by decide +revert

theorem high3_of_mask : ∀ {x : Byte}, x &&& 0xF8 = 0 → x.extractLsb' 3 5 = 0 := by decide +revert

theorem high4_of_mask : ∀ {x : Byte}, x &&& 0xF0 = 0 → x.extractLsb' 4 4 = 0 := by decide +revert

/-- GTIME's mask covers the `pad` bit as well (30_encoding.md R81(d)). -/
theorem high3_pad_of_mask : ∀ {x : Byte}, x &&& 0xFC = 0 → x.extractLsb' 3 5 = 0 ∧ x.getLsbD 2 = false := by
  decide +revert

/-! ## The rows of commands with operands -/

theorem RowDecodes.putb : RowDecodes ⟨"PUTB", 0x01000000, 0xFFFCFF00, true⟩ := by
  refine .of_fields (ma := 0xFC) (mb := 0xFF) (mc := 0) (op := 1) rfl rfl
    fun a b c ha hb _ hs => ?_
  obtain ⟨buf, hbuf⟩ := Option.ne_none_iff_exists'.mp (mt (bufOfSel_none _).mp (hs rfl))
  have hfield : a = (0 : BitVec 6) ++ buf.sel :=
    (eq_zero_append_iff (n := 6) (m := 2)).mpr ⟨high2_of_mask ha, (sel_of_bufOfSel hbuf).symm⟩
  exact ⟨.putb buf c, decodeB_ok_iff.mpr ⟨buf, ⟨hfield, eq_of_and_full hb⟩, rfl⟩, rfl⟩

theorem RowDecodes.setp : RowDecodes ⟨"SETP", 0x02000000, 0xFFF0FF00, false⟩ :=
  .of_fields (ma := 0xF0) (mb := 0xFF) (mc := 0) (op := 2) rfl rfl
    fun _ _ _ ha hb _ _ => ⟨_, if_pos ⟨high4_of_mask ha, eq_of_and_full hb⟩, rfl⟩

theorem RowDecodes.clrb : RowDecodes ⟨"CLRB", 0x03000000, 0xFFFFFFF0, false⟩ :=
  .of_fields (ma := 0xFF) (mb := 0xFF) (mc := 0xF0) (op := 3) rfl rfl
    fun _ _ _ ha hb hc _ => ⟨_, if_pos ⟨eq_of_and_full ha, eq_of_and_full hb, high4_of_mask hc⟩, rfl⟩

theorem RowDecodes.enc : RowDecodes ⟨"ENC", 0x10000000, 0xFFF8FF00, false⟩ :=
  .of_fields (ma := 0xF8) (mb := 0xFF) (mc := 0) (op := 0x10) rfl rfl
    fun _ _ _ ha hb _ _ => ⟨_, if_pos ⟨high3_of_mask ha, eq_of_and_full hb⟩, rfl⟩

theorem RowDecodes.page : RowDecodes ⟨"PAGE", 0x30000000, 0xFF000000, false⟩ :=
  .of_fields (ma := 0) (mb := 0) (mc := 0) (op := 0x30) rfl rfl
    fun _ _ _ _ _ _ _ => ⟨_, rfl, rfl⟩

theorem RowDecodes.pagef : RowDecodes ⟨"PAGEF", 0x31000000, 0xFF000000, false⟩ :=
  .of_fields (ma := 0) (mb := 0) (mc := 0) (op := 0x31) rfl rfl
    fun _ _ _ _ _ _ _ => ⟨_, rfl, rfl⟩

theorem RowDecodes.pcnt : RowDecodes ⟨"PCNT", 0x32000000, 0xFFFFFF00, false⟩ :=
  .of_fields (ma := 0xFF) (mb := 0xFF) (mc := 0) (op := 0x32) rfl rfl
    fun _ _ _ ha hb _ _ => ⟨_, if_pos ⟨eq_of_and_full ha, eq_of_and_full hb⟩, rfl⟩

theorem RowDecodes.gsync : RowDecodes ⟨"GSYNC", 0x40000000, 0xFFFF0000, false⟩ :=
  .of_fields (ma := 0xFF) (mb := 0) (mc := 0) (op := 0x40) rfl rfl
    fun _ _ _ ha _ _ _ => ⟨_, if_pos (eq_of_and_full ha), rfl⟩

theorem RowDecodes.gtime : RowDecodes ⟨"GTIME", 0x43000000, 0xFFFCFFFF, false⟩ := by
  refine .of_fields (ma := 0xFC) (mb := 0xFF) (mc := 0xFF) (op := 0x43) rfl rfl
    fun a b c ha hb hc _ => ?_
  obtain ⟨hhigh, hpad⟩ := high3_pad_of_mask ha
  have hfield := padAlpha_eta hhigh
  rw [hpad] at hfield
  exact ⟨_, decodeATime_ok_iff.mpr ⟨_, ⟨hfield.symm, eq_of_and_full hb, eq_of_and_full hc⟩, rfl⟩, rfl⟩

theorem RowDecodes.galarm : RowDecodes ⟨"GALARM", 0x44000000, 0xFFF8FFFF, false⟩ :=
  .of_fields (ma := 0xF8) (mb := 0xFF) (mc := 0xFF) (op := 0x44) rfl rfl
    fun _ _ _ ha hb hc _ => ⟨_, if_pos ⟨high3_of_mask ha, eq_of_and_full hb, eq_of_and_full hc⟩, rfl⟩

/-! ## The whole table, both ways -/

theorem opcodeTable_rowDecodes : ∀ row ∈ opcodeTable, RowDecodes row := by
  simp only [opcodeTable, List.cons_append, List.nil_append, List.forall_mem_cons]
  exact ⟨.fixed .nop rfl, .putb, .setp, .clrb, .enc, .fixed .pack6 rfl, .fixed .pack4 rfl, .fixed .fcrc rfl,
    .fixed .flen rfl, .fixed .emit rfl, .page, .pagef, .pcnt, .gsync, .fixed .gstart rfl, .fixed .gend rfl,
    .gtime, .galarm, .fixed .gsndopt rfl, List.forall_mem_nil _⟩

/-- The word of a well-formed instruction meets the row with its mnemonic. -/
theorem encodesRow (i : Instr) : EncodesRow.Statement i := by
  cases i with
  | nop => exact EncodesRow.nop
  | putb buf v => exact EncodesRow.putb buf v
  | setp idx v => exact EncodesRow.setp idx v
  | clrb mask => exact EncodesRow.clrb mask
  | enc alpha n pad => exact EncodesRow.enc alpha n pad
  | pack6 => exact EncodesRow.pack6
  | pack4 => exact EncodesRow.pack4
  | fcrc => exact EncodesRow.fcrc
  | flen => exact EncodesRow.flen
  | emit => exact EncodesRow.emit
  | page h0 h1 cs => exact EncodesRow.page h0 h1 cs
  | pagef h0 h1 cs => exact EncodesRow.pagef h0 h1 cs
  | pcnt cs => exact EncodesRow.pcnt cs
  | gsync n => exact EncodesRow.gsync n
  | gstart => exact EncodesRow.gstart
  | gend => exact EncodesRow.gend
  | gtime alpha => exact EncodesRow.gtime alpha
  | galarm alpha pad => exact EncodesRow.galarm alpha pad
  | gsndopt => exact EncodesRow.gsndopt

/-- A word that decodes meets every row with its command's mnemonic. -/
theorem accepts_of_decode {w : Word} {i : Instr} {row : TableRow} (hd : decode w = .ok i) (hrow : row ∈ opcodeTable)
    (hm : row.mnemonic = i.mnemonic) : row.accepts w = true := by
  obtain ⟨hi, rfl⟩ := decode_eq_ok_iff.mp hd
  exact encodesRow i hi row hrow hm

/-- Every instruction has a row. -/
theorem exists_row (i : Instr) : ∃ row ∈ opcodeTable, row.mnemonic = i.mnemonic := by
  cases i <;> simp [opcodeTable, Instr.mnemonic]

end Sys2Proof.Laws

namespace Sys2Proof

/-- The `a` field of formats E and A as a number (30_encoding.md R86). -/
theorem encodePadAlpha_toNat (alpha : Alphabet) (pad : Bool) :
    (encodePadAlpha alpha pad).toNat = pad.toNat * 2 ^ 2 + alpha.sel.toNat := by
  rw [encodePadAlpha, toNat_append_add, toNat_append_add, BitVec.toNat_ofBool]
  simp

end Sys2Proof
end

section
/-! The obligations on the command word: O1, O2, O3, O4, O5 (30_encoding.md). -/

namespace Sys2Proof.Machine

open Sys2Proof.Laws

/-- Settles O1: each format's decoding gives the operands of its encoded fields back. -/
theorem decodeOfEncodeIsTheInstruction : Obligations.DecodeOfEncodeIsTheInstruction :=
  fun _ hi => decode_encode hi

/-- Settles O2: the fields a format accepts are the fields its command is encoded in. -/
theorem legalWordIsEncodingOfItsInstruction : Obligations.LegalWordIsEncodingOfItsInstruction :=
  fun _ _ h => decode_eq_ok_iff.mp h

/-- Settles O3: a word that decodes is an encoding (O2) and so meets its command's row; a word that meets a row has the
fields the row's format decodes. -/
theorem decoderAgreesWithOpcodeTable : Obligations.DecoderAgreesWithOpcodeTable := by
  refine ⟨fun row hrow w => ⟨opcodeTable_rowDecodes row hrow w, ?_⟩, fun w hnone => ?_⟩
  · rintro ⟨i, hd, hm⟩
    exact accepts_of_decode hd hrow hm.symm
  · cases hd : decode w with
    | error e => exact ⟨e, rfl⟩
    | ok i =>
      obtain ⟨row, hrow, hm⟩ := exists_row i
      have haccepts := accepts_of_decode hd hrow hm
      rw [hnone row hrow] at haccepts
      cases haccepts

/-- Settles O4: a word's number is the sum of its fields' numbers, each at its place, and a count that fits its field is
not reduced. -/
theorem encodedWordIsAssemblerSum : Obligations.EncodedWordIsAssemblerSum := by
  intro i hi
  cases i <;> rw [encode, ofFields_toNat, asmWord]
  case putb buf v => rw [toNat_append_add]; simp
  case setp idx v => rw [toNat_append_add]; simp
  case clrb mask => rw [toNat_append_add]; simp
  case enc alpha n pad => rw [encodePadAlpha_toNat, toNat_ofNat_byte ((wf_enc _ _ _).mp hi)]; rfl
  case page h0 h1 cs => rw [toNat_ofNat_byte ((wf_page _ _ _).mp hi)]; rfl
  case pagef h0 h1 cs => rw [toNat_ofNat_byte ((wf_pagef _ _ _).mp hi)]; rfl
  case pcnt cs => rw [toNat_ofNat_byte ((wf_pcnt _).mp hi)]; rfl
  case gsync n =>
    have hn : n < 65536 := (wf_gsync n).mp hi
    rw [toNat_ofNat_byte (by omega), toNat_ofNat_byte (by omega), Nat.add_assoc]
    exact congrArg (0x40000000 + ·) (Nat.div_add_mod' n 256)
  case gtime alpha => rw [encodePadAlpha_toNat]; simp
  case galarm alpha pad => rw [encodePadAlpha_toNat]; rfl
  all_goals rfl

/-- Settles O5: the worked words are the encodings of their well-formed commands, and so decode to them. -/
theorem workedEncodingsDecode : Obligations.WorkedEncodingsDecode := by
  unfold Obligations.WorkedEncodingsDecode
  simp only [decode_eq_ok_iff]
  decide

end Sys2Proof.Machine
end

section
/-! SUPPORT. Reading ODATA again and again (20_memory.md R57, 30_encoding.md R87): what a run of reads takes off the queue,
and where a packet at its head ends. -/

namespace Sys2Proof.Machine

/-- The entries of a packet that ends in `b`: only b's has `eop = 1` (00_scope.md R12). -/
theorem entries_concat (p : List Byte) (b : Byte) : entries (p ++ [b]) = p.map (⟨·, false⟩) ++ [⟨b, true⟩] := by
  induction p with
  | nil => rfl
  | cons x p ih =>
    cases p with
    | nil => rfl
    | cons y p => simpa using ih

/-- `POPPKT` reads up to the first end-of-packet mark. -/
theorem popCount_append {es : List Entry} (h : ∀ e ∈ es, e.eop = false) (q : List Entry) :
    popCount (es ++ q) = es.length + popCount q := by
  induction es with
  | nil => simp
  | cons e es ih =>
    have he : e.eop = false := h e (by simp)
    have htail := ih fun x hx => h x (by simp [hx])
    simp only [List.cons_append, popCount, he, htail, List.length_cons, Bool.false_eq_true, if_false]
    omega

/-- `POPPKT` on a packet at the head of the queue makes one read per byte. -/
theorem popPkt_packet {s : State} {p : List Byte} {b : Byte} {q : List Entry} (hf : s.FAULT = false)
    (ho : s.O = entries (p ++ [b]) ++ q) : popPkt s = List.replicate (p.length + 1) (.read Reg.odata.offset 32) := by
  have hcount : popCount s.O = p.length + 1 := by
    rw [ho, entries_concat, List.append_assoc, popCount_append (by simp)]
    simp [popCount]
  rw [popPkt, hf, hcount]
  rfl

/-- A step that serves a read of ODATA with an entry at the head of O. -/
theorem step_read_odata {s : State} {rest : List Access} {e : Entry} {q : List Entry} (hf : s.FAULT = false)
    (ho : s.O = e :: q) (ha : s.accesses = .read Reg.odata.offset 32 :: rest) :
    step s = .next { s with O := q, accesses := rest, rdata := e.word } := by
  rw [step_read_reg .odata ha, readReg, popO_head (by exact hf) (by exact ho)]
  rfl

/-- Reads of ODATA with enough entries in O: the last one returns the entry it takes, all of them together take one entry
each and change nothing else. -/
theorem run_reads_odata {s : State} {k : Nat} {e : Entry} {rest : List Access} (hf : s.FAULT = false)
    (he : s.O[k]? = some e) (ha : s.accesses = List.replicate (k + 1) (.read Reg.odata.offset 32) ++ rest) :
    Host.Core.run Sys2Proof.core (k + 1) s =
      .next { s with O := s.O.drop (k + 1), accesses := rest, rdata := e.word } := by
  induction k generalizing s with
  | zero =>
    cases ho : s.O with
    | nil => simp [ho] at he
    | cons e' q =>
      have hee : e' = e := by simpa [ho] using he
      rw [run_step (step_read_odata hf ho ha), hee]
      rfl
  | succ k ih =>
    cases ho : s.O with
    | nil => simp [ho] at he
    | cons e' q =>
      rw [run_step (step_read_odata hf ho ha), ih (by exact hf) (by simpa [ho] using he) rfl]
      rfl

end Sys2Proof.Machine
end

section
/-! The obligation on the assembler's `POPPKT`: O53 (30_encoding.md R87). -/

namespace Sys2Proof.Machine

/-- Settles O53: each read takes the entry at the head, and of a packet's entries only the last has `eop = 1`. -/
theorem popPktTakesOneWholePacket : Obligations.PopPktTakesOneWholePacket := by
  intro s p q rest b hf ho ha
  rw [popPkt_packet hf ho] at ha ⊢
  have hentries : s.O = p.map (⟨·, false⟩) ++ ⟨b, true⟩ :: q := by
    rw [ho, entries_concat, List.append_assoc, List.singleton_append]
  refine ⟨by simp, fun j x hx => ?_, ?_⟩
  · have hj : j < p.length := (List.getElem?_eq_some_iff.mp hx).1
    have he : s.O[j]? = some ⟨x, false⟩ := by
      rw [hentries, List.getElem?_append_left (by simpa using hj), List.getElem?_map, hx]
      rfl
    have hreads : s.accesses = List.replicate (j + 1) (.read Reg.odata.offset 32) ++ s.accesses.drop (j + 1) := by
      rw [ha, List.drop_append_of_le_length (by simp; omega), List.drop_replicate, ← List.append_assoc,
        List.replicate_append_replicate]
      congr 2
      omega
    exact ⟨_, run_reads_odata hf he hreads, Entry.word_toNat _, rfl⟩
  · have he : s.O[p.length]? = some ⟨b, true⟩ := by simp [hentries]
    have hrest : s.O.drop (p.length + 1) = q := by rw [ho, List.drop_left' (by simp)]
    refine ⟨_, run_reads_odata hf he ha, Entry.word_toNat _, ?_⟩
    rw [hrest]

end Sys2Proof.Machine
end

section
/-! SUPPORT. What PUTB and SETP do outside the fault state (40_buffer_ops.md R103, R104), for any buffer and any register:
the facts of the single commands that the shared operations' lemmas give. -/

namespace Sys2Proof.Machine

/-- PUTB with room appends its byte. -/
theorem exec_putb_fits {b : Buf} {s : State} (hf : s.FAULT = false) (v : Byte)
    (h : (s.buf b).length + 1 ≤ bufSize Config.cfg b) :
    exec (.putb b v) s = .next (done (s.setBuf b (s.buf b ++ [v]))) :=
  calc exec (.putb b v) s
      = .next (withAppend Config.cfg b [v] s done) := command_running hf _
    _ = .next (done (s.setBuf b (s.buf b ++ [v]))) := by rw [withAppend_fits (by exact h)]

/-- PUTB without room is rejected. -/
theorem exec_putb_full {b : Buf} {s : State} (hf : s.FAULT = false) (v : Byte)
    (h : bufSize Config.cfg b < (s.buf b).length + 1) : exec (.putb b v) s = .next (reject .bufFull s) :=
  calc exec (.putb b v) s
      = .next (withAppend Config.cfg b [v] s done) := command_running hf _
    _ = .next (reject .bufFull s) := by rw [withAppend_full (by exact h)]

/-- What a read of any register returns after a write to register `i`. -/
theorem reg_setReg_eq_ite (s : State) (i j : Fin 16) (v : Byte) :
    (s.setReg i v).reg j = if j = i then v else s.reg j := by
  split
  · next h => rw [h, reg_setReg]
  · next h => exact reg_setReg_ne s v (Ne.symm h)

end Sys2Proof.Machine
end

section
/-! The obligations on the plumbing commands: O16, O17, O18, O19 (40_buffer_ops.md). -/

namespace Sys2Proof.Machine

/-- Settles O16: outside the fault state NOP is `done`. -/
theorem nopOnlyClearsErr : Obligations.NopOnlyClearsErr :=
  fun _ hf => command_running hf nopRule

/-- Settles O17: the two outcomes of PUTB at the three buffers, whose capacities are 256, 256 and 65536. -/
theorem putbAppendsOrRejects : Obligations.PutbAppendsOrRejects :=
  fun v _ hf =>
    ⟨exec_putb_fits (b := .T) hf v, exec_putb_fits (b := .R) hf v, exec_putb_fits (b := .D) hf v,
      exec_putb_full (b := .T) hf v, exec_putb_full (b := .R) hf v, exec_putb_full (b := .D) hf v⟩

/-- Settles O18: SETP's next state is the register write, ended with `done`. -/
theorem setpWritesOneRegister : Obligations.SetpWritesOneRegister := by
  intro idx v s hf
  refine ⟨done (s.setReg idx v), command_running hf _, fun j => ?_, rfl⟩
  exact reg_setReg_eq_ite s idx j v

/-- Settles O19: `keepUnless` empties a buffer exactly when its bit of the mask is 1. -/
theorem clrbEmptiesSelectedBuffers : Obligations.ClrbEmptiesSelectedBuffers :=
  fun mask _ hf => command_running hf (clrbRule mask)

end Sys2Proof.Machine
end

section
/-! SUPPORT. The facts of 41_char_encoder.md R111 to R114 that the statements name: `lower` in numbers, the code of a
symbol and of any other byte, the encoder's places, and what a command that appends text to R does. -/

namespace Sys2Proof.Machine

/-! ## Lookup (41_char_encoder.md R111, R112) -/

theorem lower_upper {b : Byte} (h : 0x41 ≤ b.toNat) (h' : b.toNat ≤ 0x5A) : (lower b).toNat = b.toNat + 0x20 := by
  rw [lower, if_pos ⟨h, h'⟩, BitVec.toNat_add]
  exact Nat.mod_eq_of_lt (by simp; omega)

theorem lower_of_not_upper {b : Byte} (h : b.toNat < 0x41 ∨ 0x5A < b.toNat) : lower b = b :=
  if_neg (by omega)

theorem codeIndex_of_getElem? {A : List Byte} (h : A.Nodup) {j : Nat} {b : Byte} (hj : A[j]? = some b) :
    codeIndex A b = j := by
  obtain ⟨hlt, rfl⟩ := List.getElem?_eq_some_iff.mp hj
  rw [codeIndex, if_pos (List.getElem_mem hlt), h.idxOf_getElem]

theorem codeIndex_of_not_mem {A : List Byte} (h : A.Nodup) {j : Nat} {b : Byte} (hb : b ∉ A) (hj : A[j]? = some 0x20) :
    codeIndex A b = j := by
  obtain ⟨hlt, hs⟩ := List.getElem?_eq_some_iff.mp hj
  rw [codeIndex, if_neg hb, spaceIndex, ← hs, h.idxOf_getElem]

/-! ## The fixed-width encoder, place by place (41_char_encoder.md R113) -/

theorem encodeText_nopad (A X : List Byte) (n : Nat) :
    encodeText A X n false = ((X.map lower).take n).map (code A) := rfl

theorem encodeText_pad (A X : List Byte) (n : Nat) :
    encodeText A X n true = encodeText A X n false ++ List.replicate (n - min X.length n) (code A 0x20) := by
  rw [← spaceCode_eq_code]
  simp [encodeText, Nat.min_comm]

theorem encodeText_getElem?_char {A X : List Byte} {n j : Nat} {x : Byte} (pad : Bool) (hj : j < n)
    (hx : X[j]? = some x) : (encodeText A X n pad)[j]? = some (code A (lower x)) := by
  have hc : (encodeText A X n false)[j]? = some (code A (lower x)) := by
    simp [encodeText_nopad, List.getElem?_take_of_lt hj, hx]
  cases pad with
  | false => exact hc
  | true => rw [encodeText_pad, List.getElem?_append_left (List.getElem?_eq_some_iff.mp hc).1, hc]

theorem encodeText_getElem?_pad {A X : List Byte} {n j : Nat} (hX : X.length ≤ j) (hj : j < n) :
    (encodeText A X n true)[j]? = some (code A 0x20) := by
  have hl : (encodeText A X n false).length = X.length := by simp; omega
  rw [encodeText_pad, List.getElem?_append_right (by omega), List.getElem?_replicate, if_pos (by omega)]

/-! ## Text into the record (41_char_encoder.md R114, R119, R122) -/

/-- What ENC, PACK6 and PACK4 do with the bytes they append: both outcomes at R's capacity. -/
theorem command_textIntoR {s : State} (hf : s.FAULT = false) (f : State → List Byte) :
    (s.R.length + (f s).length ≤ 256 →
      command (fun s => textIntoR Config.cfg (f s) s) s = .next { s with R := s.R ++ f s, T := [], ERR := 0 }) ∧
    (256 < s.R.length + (f s).length →
      command (fun s => textIntoR Config.cfg (f s) s) s = .next { s with ERR := 0x06 }) := by
  rw [command_running hf, textIntoR]
  constructor
  · intro h
    rw [withAppend_fits (by exact h)]
    rfl
  · intro h
    rw [withAppend_full (by exact h)]
    rfl

theorem alphabet_of_mem_selected {alpha : Alphabet} {A : List Byte} (h : (alpha, A) ∈ selectedAlphabets) :
    A = alphabet Config.cfg alpha := by
  simp only [selectedAlphabets, List.mem_cons, Prod.mk.injEq, List.not_mem_nil, or_false] at h
  rcases h with ⟨rfl, rfl⟩ | ⟨rfl, rfl⟩ | ⟨rfl, rfl⟩ | ⟨rfl, rfl⟩ <;> rfl

end Sys2Proof.Machine
end

section
/-! SUPPORT. The pack engine (41_char_encoder.md R117, R118, R121): the accumulator as the rule's sum and bit by bit, the
bytes and their number, and that a terminated code sequence can be read back from its accumulator. -/

namespace Sys2Proof.Machine

/-! ## The accumulator -/

/-- The recursion of `packValue` computes the sum that the rule writes. -/
theorem packValue_eq_sum (w : Nat) (C : List Byte) :
    packValue w C = ∑ j ∈ Finset.range C.length, (C.getD j 0).toNat <<< (w * j) := by
  induction C with
  | nil => rfl
  | cons c C ih =>
    rw [packValue_cons, ih, List.length_cons, Finset.sum_range_succ', Finset.mul_sum, Nat.add_comm]
    simp only [Nat.shiftLeft_eq, List.getD_cons_succ, List.getD_cons_zero, Nat.mul_zero, Nat.pow_zero, Nat.mul_one]
    congr 1
    refine Finset.sum_congr rfl fun j _ => ?_
    rw [Nat.mul_succ, Nat.pow_add]
    ring

/-- The lane of place j holds the bits of the code at place j. -/
theorem packValue_testBit {w : Nat} {C : List Byte} (h : ∀ c ∈ C, c.toNat < 2 ^ w) {j k : Nat} {c : Byte}
    (hj : C[j]? = some c) (hk : k < w) : (packValue w C).testBit (w * j + k) = c.toNat.testBit k := by
  induction C generalizing j with
  | nil => simp at hj
  | cons d C ih =>
    have hd : d.toNat < 2 ^ w := h d List.mem_cons_self
    rw [packValue_cons, Nat.add_comm, Nat.testBit_two_pow_mul_add _ hd]
    cases j with
    | zero =>
      obtain rfl : d = c := by simpa using hj
      rw [Nat.mul_zero, Nat.zero_add, if_pos hk]
    | succ j =>
      have hup : ¬ w * (j + 1) + k < w := by rw [Nat.mul_succ]; omega
      have hdown : w * (j + 1) + k - w = w * j + k := by rw [Nat.mul_succ]; omega
      rw [if_neg hup, hdown]
      exact ih (fun e he => h e (List.mem_cons_of_mem d he)) (by simpa using hj)

theorem packValue_singleton (w : Nat) (c : Byte) : packValue w [c] = c.toNat := by
  rw [packValue_cons, packValue_nil, Nat.mul_zero, Nat.add_zero]

/-- A last code lands above all the others. -/
theorem packValue_concat (w : Nat) (C : List Byte) (c : Byte) :
    packValue w (C ++ [c]) = packValue w C + 2 ^ (w * C.length) * c.toNat := by
  rw [packValue_append, packValue_singleton]

/-- A trailing code 0 adds nothing. -/
theorem packValue_concat_zero (w : Nat) (C : List Byte) : packValue w (C ++ [0]) = packValue w C :=
  packValue_concat w C 0

theorem packValue_concat_ne_zero (w : Nat) (C : List Byte) {c : Byte} (h : c ≠ 0) : packValue w (C ++ [c]) ≠ 0 := by
  have hc : c.toNat ≠ 0 := fun e => h (BitVec.eq_of_toNat_eq e)
  rw [packValue_concat]
  positivity

/-- The first code is the accumulator's lowest lane, the other codes are the rest. -/
theorem packValue_cons_inj {w : Nat} {c c' : Byte} (h : c.toNat < 2 ^ w) (h' : c'.toNat < 2 ^ w) {C C' : List Byte}
    (e : packValue w (c :: C) = packValue w (c' :: C')) : c = c' ∧ packValue w C = packValue w C' := by
  rw [packValue_cons, packValue_cons] at e
  have hlow := congrArg (· % 2 ^ w) e
  simp only [Nat.add_mul_mod_self_left, Nat.mod_eq_of_lt h, Nat.mod_eq_of_lt h'] at hlow
  rw [hlow] at e
  exact ⟨BitVec.eq_of_toNat_eq hlow, Nat.eq_of_mul_eq_mul_left (Nat.two_pow_pos w) (Nat.add_left_cancel e)⟩

/-- 41_char_encoder.md R121: two sequences of codes below the terminator, of any lengths, are told apart by their
terminated accumulators, since the terminator is no code and each place has its own lane. -/
theorem packValue_terminated_inj {w : Nat} {k : Byte} (hk : k.toNat < 2 ^ w) {C C' : List Byte}
    (h : ∀ c ∈ C, c.toNat < k.toNat) (h' : ∀ c ∈ C', c.toNat < k.toNat)
    (e : packValue w (C ++ [k]) = packValue w (C' ++ [k])) : C = C' := by
  induction C generalizing C' with
  | nil =>
    cases C' with
    | nil => rfl
    | cons c' C' =>
      have hc' := h' c' List.mem_cons_self
      obtain ⟨rfl, _⟩ := packValue_cons_inj hk (hc'.trans hk) e
      exact absurd hc' (Nat.lt_irrefl _)
  | cons c C ih =>
    have hc := h c List.mem_cons_self
    cases C' with
    | nil =>
      obtain ⟨rfl, _⟩ := packValue_cons_inj (hc.trans hk) hk e
      exact absurd hc (Nat.lt_irrefl _)
    | cons c' C' =>
      have hc' := h' c' List.mem_cons_self
      obtain ⟨rfl, hrest⟩ := packValue_cons_inj (hc.trans hk) (hc'.trans hk) e
      rw [ih (fun d hd => h d (List.mem_cons_of_mem c hd)) (fun d hd => h' d (List.mem_cons_of_mem c hd)) hrest]

/-! ## The bytes and their number -/

/-- `byteCount V` is `ceil(bitlength(V) / 8)` (41_char_encoder.md R117). -/
theorem byteCount_eq_size {V : Nat} (h : V ≠ 0) : byteCount V = (V.size + 7) / 8 := by
  have hle : ∀ m, byteCount V ≤ m ↔ V.size ≤ 8 * m := fun m => (byteCount_le_iff h m).trans Nat.size_le.symm
  have h1 := (hle (byteCount V)).mp le_rfl
  have h2 := (hle ((V.size + 7) / 8)).mpr (by omega)
  omega

/-- The bit length of a number put above n lower bits. -/
theorem size_add_two_pow_mul {a n c : Nat} (ha : a < 2 ^ n) (hc : c ≠ 0) : (a + 2 ^ n * c).size = n + c.size := by
  have hpos : 0 < c.size := Nat.size_pos.mpr (Nat.pos_of_ne_zero hc)
  apply le_antisymm
  · have hup : c + 1 ≤ 2 ^ c.size := Nat.lt_size_self c
    rw [Nat.size_le, Nat.pow_add]
    calc a + 2 ^ n * c < 2 ^ n * (c + 1) := by rw [Nat.mul_succ]; omega
      _ ≤ 2 ^ n * 2 ^ c.size := Nat.mul_le_mul_left _ hup
  · have hlow : 2 ^ (c.size - 1) ≤ c := Nat.lt_size.mp (by omega)
    have hV : 2 ^ (n + (c.size - 1)) ≤ a + 2 ^ n * c :=
      calc 2 ^ (n + (c.size - 1)) = 2 ^ n * 2 ^ (c.size - 1) := Nat.pow_add ..
        _ ≤ 2 ^ n * c := Nat.mul_le_mul_left _ hlow
        _ ≤ a + 2 ^ n * c := Nat.le_add_left ..
    have := Nat.lt_size.mpr hV
    omega

/-- 41_char_encoder.md R118 (d), for a last code that is not 0. -/
theorem pack_length_concat (z : Nat) {w : Nat} {C : List Byte} {c : Byte} (h : ∀ d ∈ C, d.toNat < 2 ^ w) (hc : c ≠ 0) :
    (pack z w (C ++ [c])).length = (w * C.length + c.toNat.size + 7) / 8 := by
  have hV : packValue w (C ++ [c]) ≠ 0 := packValue_concat_ne_zero w C hc
  have hc0 : c.toNat ≠ 0 := fun e => hc (BitVec.eq_of_toNat_eq e)
  rw [pack_length hV, byteCount_eq_size hV, packValue_concat, size_add_two_pow_mul (packValue_lt h) hc0]

theorem pack_getElem? {z w : Nat} {C : List Byte} (h : packValue w C ≠ 0) {j : Nat} (hj : j < (pack z w C).length) :
    (pack z w C)[j]? = some (BitVec.ofNat 8 (packValue w C >>> (8 * j))) := by
  rw [pack_length h] at hj
  simp [pack_nonzero h, hj]

/-- Byte j of V, in the rule's numbers. -/
theorem toNat_ofNat_byte_eq_and (V : Nat) : (BitVec.ofNat 8 V).toNat = V &&& 0xFF := by
  rw [BitVec.toNat_ofNat]
  exact (Nat.and_two_pow_sub_one_eq_mod V 8).symm

/-- 41_char_encoder.md R118 (b): "a high-order byte of 0 is never appended". -/
theorem pack_getLast?_ne_zero {z w : Nat} {C : List Byte} (h : packValue w C ≠ 0) {b : Byte}
    (hb : (pack z w C).getLast? = some b) : b ≠ 0 := by
  obtain ⟨m, hm⟩ : ∃ m, byteCount (packValue w C) = m + 1 := ⟨_, rfl⟩
  have hlen : (pack z w C).length = m + 1 := (pack_length h).trans hm
  rw [List.getLast?_eq_getElem?, hlen, Nat.add_sub_cancel, pack_getElem? h (by omega), Nat.shiftRight_eq_div_pow] at hb
  have hlow : 2 ^ (8 * m) ≤ packValue w C := by
    rw [← Nat.not_lt, ← byteCount_le_iff h, hm]
    exact Nat.not_succ_le_self m
  have hup : packValue w C < 2 ^ (8 * m) * 2 ^ 8 := by
    rw [← Nat.pow_add]
    exact (byteCount_le_iff h (m + 1)).mp hm.le
  have hpos : 0 < packValue w C / 2 ^ (8 * m) := Nat.div_pos hlow (Nat.two_pow_pos _)
  have hlt : packValue w C / 2 ^ (8 * m) < 2 ^ 8 := Nat.div_lt_of_lt_mul hup
  rintro rfl
  have hzero := congrArg BitVec.toNat (Option.some.inj hb)
  rw [BitVec.toNat_ofNat, Nat.mod_eq_of_lt hlt] at hzero
  exact hpos.ne' hzero

/-- The bytes determine the accumulator (41_char_encoder.md R121). -/
theorem pack_eq_iff {z w : Nat} {C C' : List Byte} : pack z w C = pack z w C' ↔ packValue w C = packValue w C' := by
  constructor
  · intro e
    rw [← packValue_pack z w C, e, packValue_pack]
  · intro e
    rw [pack, e, pack]

/-- 41_char_encoder.md R118 (c): the accumulator is the same. -/
theorem pack_concat_zero (z w : Nat) (C : List Byte) : pack z w (C ++ [0]) = pack z w C :=
  pack_eq_iff.mpr (packValue_concat_zero w C)

end Sys2Proof.Machine
end

section
/-! SUPPORT. PACK6 results (41_char_encoder.md R120, R121): their length, and the codes and the normal form they stand
for. -/

namespace Sys2Proof.Machine

theorem pack6Bytes_length {c : Cfg} (h : c.Valid) (X : List Byte) :
    (pack6Bytes c X).length = (6 * min X.length 31 + c.kTerm.toNat.size + 7) / 8 := by
  have hfit : ∀ d ∈ encodeText c.alphaEep X 31 false, d.toNat < 2 ^ 6 := fun d hd =>
    pack6_codes_fit h X d (List.mem_append_left _ hd)
  have hk : c.kTerm ≠ 0 := fun e => kTerm_ne_zero h (congrArg BitVec.toNat e)
  rw [pack6Bytes, alphabet, pack_length_concat _ hfit hk, encodeText_length]
  rfl

/-- The bytes determine the codes. -/
theorem pack6Bytes_eq_iff_codes {c : Cfg} (h : c.Valid) (X X' : List Byte) :
    pack6Bytes c X = pack6Bytes c X' ↔ encodeText c.alphaEep X 31 false = encodeText c.alphaEep X' 31 false := by
  have hk : c.kTerm.toNat < 2 ^ 6 := pack6_codes_fit h X _ (List.mem_append_right _ (List.mem_singleton_self _))
  rw [pack6Bytes, pack6Bytes, alphabet, pack_eq_iff]
  constructor
  · exact packValue_terminated_inj hk (pack6_code_lt h X) (pack6_code_lt h X')
  · exact fun e => by rw [e]

/-- Two functions that identify the same pairs of elements identify the same pairs of lists. -/
theorem map_eq_map_iff_of_eq_iff {α β γ : Type} {f : α → β} {g : α → γ} (h : ∀ a b, f a = f b ↔ g a = g b)
    (l l' : List α) : l.map f = l'.map f ↔ l.map g = l'.map g := by
  simp only [← List.forall₂_eq_eq_eq, List.forall₂_map_left_iff, List.forall₂_map_right_iff, h]

end Sys2Proof.Machine
end

section
/-! The obligations on the character encoder and the pack engine: O20 to O28 (41_char_encoder.md). -/

namespace Sys2Proof.Machine

/-- Settles O20: the encoder's length, its places in the text and in the padding, and `lower` by its two cases. -/
theorem encodeIsCharacterwise : Obligations.EncodeIsCharacterwise := by
  refine ⟨fun A X n pad => ⟨encodeText_length A X n pad, fun j x => encodeText_getElem?_char pad, ?_⟩,
    fun b => ⟨lower_upper, lower_of_not_upper⟩⟩
  rintro j rfl
  exact encodeText_getElem?_pad

/-- Settles O21: a code is its index as a number (`code_toNat`), and in an alphabet without repetition a symbol has one
position. -/
theorem codeIsPositionOrSpace : Obligations.CodeIsPositionOrSpace := by
  intro A hA b
  have ⟨_, _, hnodup, hspace⟩ := hA
  rw [code_toNat hA]
  exact ⟨codeIndex_lt hspace b, fun j => codeIndex_of_getElem? hnodup, fun hb j => codeIndex_of_not_mem hnodup hb⟩

/-- Settles O23: `packValue` is the sum, and `byteCount` the least number of bytes that holds it. -/
theorem packSerialisesTheAccumulator : Obligations.PackSerialisesTheAccumulator := by
  intro z w C
  rw [← packValue_eq_sum]
  refine ⟨pack_zero, fun hV => ⟨?_, fun m hm => ?_, fun j hj => ?_⟩⟩
  · rw [pack_length hV]
    exact (byteCount_le_iff hV _).mp le_rfl
  · rw [pack_length hV]
    exact (byteCount_le_iff hV m).mpr hm
  · rw [pack_getElem? hV hj, Option.map_some, toNat_ofNat_byte_eq_and]

/-- Settles O24: the clauses of R118, and that the codes of PACK6 and PACK4 fit their lanes by R9. -/
theorem packKeepsCodesApart : Obligations.PackKeepsCodesApart := by
  refine ⟨?bits, ?lastByte, pack_concat_zero, ?length, pack6_codes_fit Config.cfg_valid,
    pack4_codes_fit Config.cfg_valid⟩
  case bits => exact fun _ _ h _ _ hj _ => packValue_testBit h hj
  case lastByte => exact fun _ _ _ h _ => pack_getLast?_ne_zero h
  case length => exact fun z _ _ _ h => pack_length_concat z fun d hd => h d (List.mem_append_left _ hd)

/-- Settles O27: the terminator is the last code and is not 0. -/
theorem pack6LengthFromTerminator : Obligations.Pack6LengthFromTerminator :=
  fun X => ⟨pack6Bytes_length Config.cfg_valid X, pack6Bytes_length_le Config.cfg_valid X⟩

/-- Settles O28: the bytes determine the codes, and two characters have the same code exactly when they stand for the
same symbol (`code_eq_iff`). -/
theorem pack6EqualExactlyForEqualNormalForms : Obligations.Pack6EqualExactlyForEqualNormalForms := by
  intro X₁ X₂
  rw [pack6Bytes_eq_iff_codes Config.cfg_valid, encodeText_nopad, encodeText_nopad]
  exact map_eq_map_iff_of_eq_iff (code_eq_iff (alphabet_valid Config.cfg_valid .eep)) _ _

/-- Settles O22: ENC appends the codes in the alphabet that its selector names. -/
theorem encAppendsCodesToRecord : Obligations.EncAppendsCodesToRecord := by
  intro alpha A maxlen pad s hA hf
  obtain rfl := alphabet_of_mem_selected hA
  exact command_textIntoR hf fun s => encodeText (alphabet Config.cfg alpha) s.T maxlen pad

/-- Settles O25: PACK6 appends `pack6Bytes` of T. -/
theorem pack6AppendsTerminatedText : Obligations.Pack6AppendsTerminatedText :=
  fun _ hf => command_textIntoR hf fun s => pack6Bytes Config.cfg s.T

/-- Settles O26: PACK4 appends `pack4Bytes` of T. -/
theorem pack4AppendsPhoneText : Obligations.Pack4AppendsPhoneText :=
  fun _ hf => command_textIntoR hf fun s => pack4Bytes Config.cfg s.T

end Sys2Proof.Machine
end

section
/-! SUPPORT. The CRC one byte at a time (42_framers.md R131, R132, R134): a byte of input as one table lookup, and that
a register fed its own two bytes ends at 0. -/

namespace Sys2Proof.Machine

/-! ## The table -/

/-- The table's entry for `x` (42_framers.md R132): the register starts at 0, so the byte alone is shifted. -/
theorem crc16_singleton (x : Byte) : crc16 [x] = crcShifts 8 (x.setWidth 16) :=
  congrArg (crcShifts 8) BitVec.zero_xor

/-- A register is its low byte and, eight bits up, its high byte. -/
theorem half_eq_high_xor_low (r : Half) : r = (r >>> 8) <<< 8 ^^^ (r.extractLsb' 0 8).setWidth 16 := by
  refine BitVec.eq_of_getLsbD_eq fun i hi => ?_
  rcases Nat.lt_or_ge i 8 with h | h
  · simp [h, hi]
  · simp [Nat.not_lt.mpr h, hi, Nat.add_sub_cancel' h]

/-- Eight shifts move the high byte down and replace the low byte by its table entry: shifting is linear, and no bit of
the high byte reaches the low end before the last shift. -/
theorem crcShifts_eight (r : Half) : crcShifts 8 r = (r >>> 8) ^^^ crc16 [r.extractLsb' 0 8] := by
  have hlow : ∀ i < 8, ((r >>> 8) <<< 8).getLsbD i = false := fun i hi => by simp [hi]
  have hhigh : (r >>> 8) <<< 8 >>> 8 = r >>> 8 := by
    apply BitVec.eq_of_toNat_eq
    simp only [BitVec.toNat_ushiftRight, BitVec.toNat_shiftLeft, Nat.shiftRight_eq_div_pow, Nat.shiftLeft_eq]
    omega
  calc crcShifts 8 r
      = crcShifts 8 ((r >>> 8) <<< 8) ^^^ crcShifts 8 ((r.extractLsb' 0 8).setWidth 16) := by
        rw [← crcShifts_xor, ← half_eq_high_xor_low]
    _ = (r >>> 8) ^^^ crc16 [r.extractLsb' 0 8] := by
        rw [crcShifts_high 8 _ hlow, hhigh, ← crc16_singleton]

/-- One byte of input by the table. -/
theorem crcByte_eq_lookup (crc : Half) (x : Byte) :
    crcByte crc x = (crc >>> 8) ^^^ crc16 [(crc ^^^ x.setWidth 16).extractLsb' 0 8] := by
  have hx : x.setWidth 16 >>> 8 = 0#16 := by
    apply BitVec.eq_of_toNat_eq
    simp only [BitVec.toNat_ushiftRight, BitVec.toNat_setWidth, Nat.shiftRight_eq_div_pow]
    exact Nat.div_eq_of_lt (Nat.lt_of_le_of_lt (Nat.mod_le ..) x.isLt)
  rw [crcByte, crcShifts_eight, BitVec.ushiftRight_xor_distrib, hx, BitVec.xor_zero]

/-! ## The residue -/

/-- Fed its own low byte, the register looks up entry 0, which is 0: what is left is its high byte. -/
theorem crcByte_own_low (crc : Half) : crcByte crc (crc.extractLsb' 0 8) = crc >>> 8 := by
  have hindex : (crc ^^^ (crc.extractLsb' 0 8).setWidth 16).extractLsb' 0 8 = 0 := by
    refine BitVec.eq_of_getLsbD_eq fun i hi => ?_
    simp [hi, Nat.lt_trans hi]
  have hentry : crc16 [0] = 0#16 := by decide
  rw [crcByte_eq_lookup, hindex, hentry, BitVec.xor_zero]

/-- Fed its own two bytes, the low one first, the register ends at 0 (42_framers.md R134). -/
theorem foldl_crcByte_own_bytes (crc : Half) : [crc.extractLsb' 0 8, crc.extractLsb' 8 8].foldl crcByte crc = 0 := by
  have hhigh : crc.extractLsb' 8 8 = (crc >>> 8).extractLsb' 0 8 := by
    ext i hi
    simp
  calc crcByte (crcByte crc (crc.extractLsb' 0 8)) (crc.extractLsb' 8 8)
      = (crc >>> 8) >>> 8 := by rw [crcByte_own_low, hhigh, crcByte_own_low]
    _ = crc >>> (8 + 8) := (BitVec.shiftRight_add crc 8 8).symm
    _ = 0 := BitVec.ushiftRight_eq_zero (Nat.le_refl 16)

theorem crc16_frame (X : List Byte) : crc16 (frame X) = 0 := by
  rw [frame, crc16_append]
  exact foldl_crcByte_own_bytes _

end Sys2Proof.Machine
end

section
/-! SUPPORT. How the commands that send the record away end (42_framers.md R135, R139, R140): the record's one packet
into O, and the rules short of their length check. -/

namespace Sys2Proof.Machine

/-- Emitting one packet with room. -/
theorem withEmit_one_fits {c : Cfg} {size : Nat} {p : List Byte} {s : State} (h : s.O.length + size ≤ c.oSize)
    (next : State → State) : withEmit c size [p] s next = next { s with O := s.O ++ entries p } := by
  rw [withEmit_fits h, List.flatMap_singleton]

theorem fcrcRule_tooLong {s : State} (h : 252 < s.R.length) (c : Cfg) : fcrcRule c s = reject .frameLen s := if_pos h

theorem fcrcRule_short {s : State} (h : s.R.length ≤ 252) (c : Cfg) :
    fcrcRule c s = withEmit c (s.R.length + 3) [frame s.R] s fun s' => done { s' with R := [] } := by
  rw [fcrcRule, if_neg (Nat.not_lt.mpr h), frame_length]

theorem flenRule_tooLong {s : State} (h : 254 < s.R.length) (c : Cfg) : flenRule c s = reject .frameLen s := if_pos h

theorem flenRule_short {s : State} (h : s.R.length ≤ 254) (c : Cfg) :
    flenRule c s = withAppend c .D (frameLen s.R) s fun s' => done { s' with R := [] } := if_neg (Nat.not_lt.mpr h)

theorem emitRule_empty {s : State} (h : s.R = []) (c : Cfg) : emitRule c s = reject .empty s :=
  if_pos (List.length_eq_zero_iff.mpr h)

theorem emitRule_nonempty {s : State} (h : s.R ≠ []) (c : Cfg) :
    emitRule c s = withEmit c s.R.length [s.R] s fun s' => done { s' with R := [] } :=
  if_neg fun h0 => h (List.length_eq_zero_iff.mp h0)

end Sys2Proof.Machine
end

section
/-! The obligations on the framers: O29 to O33 (42_framers.md). -/

namespace Sys2Proof.Machine

/-- Settles O29: each byte of input is one lookup, so the two folds take the same steps. -/
theorem crcTableFormAgrees : Obligations.CrcTableFormAgrees := by
  refine ⟨fun X => ?_, by decide⟩
  simp only [← crcByte_eq_lookup]
  rfl

/-- Settles O30: the header fits a byte for at most 252 bytes of payload, and the CRC fed its own bytes is 0. -/
theorem frameIsSelfDescribingAndChecks : Obligations.FrameIsSelfDescribingAndChecks := by
  intro X hX
  refine ⟨BitVec.ofNat 8 (X.length + 3), _, _, rfl, ?header, frame_length X, ?low, ?high, crc16_frame X⟩
  case header => rw [frame_length, toNat_ofNat_byte (by omega)]
  case low => exact BitVec.extractLsb'_toNat ..
  case high =>
    rw [BitVec.extractLsb'_toNat, Nat.shiftRight_eq_div_pow]
    exact Nat.mod_eq_of_lt (Nat.div_lt_of_lt_mul (BitVec.isLt _))

/-- Settles O31: the length check, then the room in O for the three bytes more than the record. -/
theorem fcrcFramesTheRecord : Obligations.FcrcFramesTheRecord := by
  intro s hf
  have hexec : exec .fcrc s = .next (fcrcRule Config.cfg s) := command_running hf _
  rw [hexec]
  refine ⟨fun hR hO => ?_, fun hR => ?_, fun hR hO => ?_⟩
  · rw [fcrcRule_short hR, withEmit_one_fits (by exact hO)]
    rfl
  · rw [fcrcRule_tooLong hR]
    rfl
  · rw [fcrcRule_short hR, withEmit_full (by exact hO)]
    rfl

/-- Settles O32: the length check, then the room in D for the length byte and the record. -/
theorem flenFramesTheRecordIntoData : Obligations.FlenFramesTheRecordIntoData := by
  intro s hf
  have hexec : exec .flen s = .next (flenRule Config.cfg s) := command_running hf _
  rw [hexec]
  refine ⟨fun hR hD => ?_, fun hR => ?_, fun hR hD => ?_⟩
  · rw [flenRule_short hR, withAppend_fits (by exact hD), List.append_assoc]
    rfl
  · rw [flenRule_tooLong hR]
    rfl
  · rw [flenRule_short hR, withAppend_full (by exact hD)]
    rfl

/-- Settles O33: an empty record is refused before the room in O is looked at. -/
theorem emitMovesTheRecordUnframed : Obligations.EmitMovesTheRecordUnframed := by
  intro s hf
  have hexec : exec .emit s = .next (emitRule Config.cfg s) := command_running hf _
  rw [hexec]
  refine ⟨fun hR hO => ?_, fun hR => ?_, fun hR hO => ?_⟩
  · rw [emitRule_nonempty hR, withEmit_one_fits (by exact hO)]
    rfl
  · rw [emitRule_empty hR]
    rfl
  · rw [emitRule_nonempty hR, withEmit_full (by exact hO)]
    rfl

end Sys2Proof.Machine
end

section
/-! SUPPORT. The paginator (43_paginator.md R150 to R158): its packets one by one, how PAGE, PAGEF and PCNT end, and
what PAGE and PAGEF have in common. -/

namespace Sys2Proof.Machine

/-! ## The packets (43_paginator.md R151, R153) -/

/-- The packet at place j, counted from 0. -/
theorem paginate_getElem? {h0 h1 : Byte} {cs j : Nat} {X p : List Byte} (hp : (paginate h0 h1 cs X)[j]? = some p) :
    j < npk X.length cs ∧ p = h0 :: h1 :: BitVec.ofNat 8 (j + 1) :: chunk cs X (j + 1) := by
  obtain ⟨hj, rfl⟩ := List.getElem?_eq_some_iff.mp hp
  exact ⟨by simpa using hj, by simp [paginate_eq]⟩

/-- Without their headers and indices the packets are the data. -/
theorem paginate_chunks_flatten (h0 h1 : Byte) {cs : Nat} (hcs : 1 ≤ cs) (X : List Byte) :
    ((paginate h0 h1 cs X).map (·.drop 3)).flatten = X := by
  rw [paginate_eq, List.map_map]
  exact (chunks_flatten cs X _).trans (List.take_of_length_le (le_npk_mul hcs))

/-- A chunk with a successor is full: the chunks up to it are too few to hold the data. -/
theorem chunk_length_of_lt {cs j : Nat} {X : List Byte} (hcs : 1 ≤ cs) (hj : j + 1 < npk X.length cs) :
    (chunk cs X (j + 1)).length = cs := by
  have hmore : (j + 1) * cs < X.length := by
    rw [← Nat.not_le, ← npk_le_iff hcs (Nat.le_add_left 1 j)]
    exact Nat.not_le.mpr hj
  rw [Nat.succ_mul] at hmore
  rw [chunk, Nat.add_sub_cancel, List.length_take, List.length_drop]
  omega

theorem framed_ne_nil {ps : List (List Byte)} : ∀ p ∈ ps.map frame, p ≠ [] := by
  intro p hp
  obtain ⟨X, _, rfl⟩ := List.mem_map.mp hp
  exact frame_ne_nil X

/-! ## The rules, check by check (43_paginator.md R155 to R157) -/

theorem pageRule_zero {cs : Nat} (h : cs = 0) (c : Cfg) (h0 h1 : Byte) (s : State) :
    pageRule c h0 h1 cs s = reject .param s := if_pos h

theorem pageRule_tooMany {cs : Nat} {s : State} (hcs : 1 ≤ cs) (h : 255 < npk s.D.length cs) (c : Cfg)
    (h0 h1 : Byte) : pageRule c h0 h1 cs s = reject .pageCnt s := by
  rw [pageRule, if_neg (Nat.one_le_iff_ne_zero.mp hcs), if_pos h]

theorem pageRule_emits {cs : Nat} {s : State} (hcs : 1 ≤ cs) (h : npk s.D.length cs ≤ 255) (c : Cfg)
    (h0 h1 : Byte) : pageRule c h0 h1 cs s =
      withEmit c (3 * npk s.D.length cs + s.D.length) (paginate h0 h1 cs s.D) s (pageDone (npk s.D.length cs)) := by
  rw [pageRule, if_neg (Nat.one_le_iff_ne_zero.mp hcs), if_neg (Nat.not_lt.mpr h)]

theorem pagefRule_zero {cs : Nat} (h : cs = 0) (c : Cfg) (h0 h1 : Byte) (s : State) :
    pagefRule c h0 h1 cs s = reject .param s := if_pos h

theorem pagefRule_tooLong {cs : Nat} {s : State} (hcs : 1 ≤ cs) (h : 252 < min cs s.D.length + 3) (c : Cfg)
    (h0 h1 : Byte) : pagefRule c h0 h1 cs s = reject .frameLen s := by
  rw [pagefRule, if_neg (Nat.one_le_iff_ne_zero.mp hcs), if_pos h]

theorem pagefRule_tooMany {cs : Nat} {s : State} (hcs : 1 ≤ cs) (hl : min cs s.D.length + 3 ≤ 252)
    (h : 255 < npk s.D.length cs) (c : Cfg) (h0 h1 : Byte) : pagefRule c h0 h1 cs s = reject .pageCnt s := by
  rw [pagefRule, if_neg (Nat.one_le_iff_ne_zero.mp hcs), if_neg (Nat.not_lt.mpr hl), if_pos h]

theorem pagefRule_emits {cs : Nat} {s : State} (hcs : 1 ≤ cs) (hl : min cs s.D.length + 3 ≤ 252)
    (h : npk s.D.length cs ≤ 255) (c : Cfg) (h0 h1 : Byte) :
    pagefRule c h0 h1 cs s =
      withEmit c (6 * npk s.D.length cs + s.D.length) ((paginate h0 h1 cs s.D).map frame) s
        (pageDone (npk s.D.length cs)) := by
  rw [pagefRule, if_neg (Nat.one_le_iff_ne_zero.mp hcs), if_neg (Nat.not_lt.mpr hl), if_neg (Nat.not_lt.mpr h)]

theorem pcntRule_zero {cs : Nat} (h : cs = 0) (c : Cfg) (s : State) : pcntRule c cs s = reject .param s := if_pos h

theorem pcntRule_tooMany {cs : Nat} {s : State} (hcs : 1 ≤ cs) (h : 255 < npk s.D.length cs) (c : Cfg) :
    pcntRule c cs s = reject .pageCnt s := by
  rw [pcntRule, if_neg (Nat.one_le_iff_ne_zero.mp hcs), if_pos h]

theorem pcntRule_appends {cs : Nat} {s : State} (hcs : 1 ≤ cs) (h : npk s.D.length cs ≤ 255) (c : Cfg) :
    pcntRule c cs s = withAppend c .R [BitVec.ofNat 8 (npk s.D.length cs)] s fun s' =>
      done { s' with NPKT := BitVec.ofNat 8 (npk s.D.length cs) } := by
  rw [pcntRule, if_neg (Nat.one_le_iff_ne_zero.mp hcs), if_neg (Nat.not_lt.mpr h)]

/-! ## What the rules have in common (43_paginator.md R158) -/

/-- A rejection: a code that is not 0, and nothing else changes (60_exceptions.md R246). -/
def Rejects (s t : State) : Prop := t.ERR ≠ 0 ∧ t = { s with ERR := t.ERR }

theorem Code.byte_ne_zero {e : Code} (he : e ≠ .ok) : e.byte ≠ 0 := by
  cases e with
  | ok => exact absurd rfl he
  | _ => decide

theorem rejects_reject {e : Code} (he : e ≠ .ok) (s : State) : Rejects s (reject e s) :=
  ⟨Code.byte_ne_zero he, rfl⟩

/-- What PAGE and PAGEF come to for n packets: a rejection, or `NPKT = n` and n packets more in O. -/
def PagesOrRejects (n : Nat) (u v : State) : Prop :=
  Rejects u v ∨ (v.ERR = 0 ∧ v.NPKT = BitVec.ofNat 8 n ∧ v.opkts = u.opkts + n)

/-- An emission of n non-empty packets that ends as PAGE and PAGEF do. -/
theorem withEmit_pageDone (c : Cfg) (size : Nat) {ps : List (List Byte)} (hps : ∀ p ∈ ps, p ≠ []) (u : State) :
    PagesOrRejects ps.length u (withEmit c size ps u (pageDone ps.length)) := by
  rcases withEmit_cases c size ps u (pageDone ps.length) with ⟨_, e⟩ | ⟨_, e⟩ <;> rw [e]
  · exact .inl (rejects_reject (by decide) u)
  · refine .inr ⟨rfl, rfl, ?_⟩
    rw [State.opkts, State.opkts, pageDone_O, List.countP_append, flatMap_entries_eops hps]

theorem pageRule_pagesOrRejects (c : Cfg) (h0 h1 : Byte) (cs : Nat) (u : State) :
    PagesOrRejects (npk u.D.length cs) u (pageRule c h0 h1 cs u) := by
  unfold pageRule
  split_ifs
  · exact .inl (rejects_reject (by decide) u)
  · exact .inl (rejects_reject (by decide) u)
  · have hps : ∀ p ∈ paginate h0 h1 cs u.D, p ≠ [] := paginate_ne_nil
    simpa using withEmit_pageDone c (3 * npk u.D.length cs + u.D.length) hps u

theorem pagefRule_pagesOrRejects (c : Cfg) (h0 h1 : Byte) (cs : Nat) (u : State) :
    PagesOrRejects (npk u.D.length cs) u (pagefRule c h0 h1 cs u) := by
  unfold pagefRule
  split_ifs
  · exact .inl (rejects_reject (by decide) u)
  · exact .inl (rejects_reject (by decide) u)
  · exact .inl (rejects_reject (by decide) u)
  · have hps : ∀ p ∈ (paginate h0 h1 cs u.D).map frame, p ≠ [] := framed_ne_nil
    simpa using withEmit_pageDone c (6 * npk u.D.length cs + u.D.length) hps u

/-- In the fault state the envelope rejects. -/
theorem command_pagesOrRejects {n : Nat} {rule : State → State} {u v : State} (hr : PagesOrRejects n u (rule u))
    (h : command rule u = .next v) : PagesOrRejects n u v := by
  rcases command_cases h with ⟨_, rfl⟩ | ⟨_, rfl⟩
  · exact .inl (rejects_reject (by decide) u)
  · exact hr

/-- A PCNT that completes has counted at most 255 packets. -/
theorem pcntRule_completes {c : Cfg} {cs : Nat} {s : State} (h : (pcntRule c cs s).ERR = 0) :
    npk s.D.length cs ≤ 255 ∧ pcntRule c cs s =
      done { s with R := s.R ++ [BitVec.ofNat 8 (npk s.D.length cs)], NPKT := BitVec.ofNat 8 (npk s.D.length cs) } := by
  have hrej : ∀ e : Code, e ≠ .ok → pcntRule c cs s ≠ reject e s := fun e he heq =>
    (rejects_reject he s).1 (heq ▸ h)
  rcases Nat.eq_zero_or_pos cs with hcs | hcs
  · exact absurd (pcntRule_zero hcs c s) (hrej .param (by decide))
  rcases Nat.lt_or_ge 255 (npk s.D.length cs) with hn | hn
  · exact absurd (pcntRule_tooMany hcs hn c) (hrej .pageCnt (by decide))
  have hrule := pcntRule_appends hcs hn c
  rcases withAppend_cases c .R [BitVec.ofNat 8 (npk s.D.length cs)] s _ with ⟨_, e⟩ | ⟨_, e⟩
  · exact absurd (hrule.trans e) (hrej .bufFull (by decide))
  · exact ⟨hn, hrule.trans e⟩

end Sys2Proof.Machine
end

section
/-! The obligations on the paginator: O34 to O39 (43_paginator.md). -/

namespace Sys2Proof.Machine

/-- Settles O34: m chunks are enough exactly when they hold the data (`npk_le_iff`), and one chunk holds no data. -/
theorem packetCountIsTheCeiling : Obligations.PacketCountIsTheCeiling := by
  intro L cs hcs
  refine ⟨one_le_npk L cs, le_npk_mul hcs, fun m hm => (npk_le_iff hcs hm).mpr, ?_⟩
  rintro rfl
  exact Nat.le_antisymm ((npk_le_iff hcs le_rfl).mpr (Nat.zero_le _)) (one_le_npk 0 cs)

/-- Settles O35: packet j is its header, the index j + 1 and chunk j + 1, which is full if another follows. -/
theorem paginationReconstructsTheData : Obligations.PaginationReconstructsTheData := by
  intro h0 h1 cs X hcs hn
  refine ⟨paginate_chunks_flatten h0 h1 hcs X, paginate_length h0 h1 cs X, fun j p hp => ?_,
    paginate_flatten_length h0 h1 hcs X⟩
  obtain ⟨hj, rfl⟩ := paginate_getElem? hp
  have hle := chunk_length_le cs X (j + 1)
  refine ⟨BitVec.ofNat 8 (j + 1), rfl, toNat_ofNat_byte (by omega), ?_, fun hlast => ?_⟩
  · simp only [List.length_cons]
    omega
  · simp only [List.length_cons, chunk_length_of_lt hcs hlast]
    omega

/-- Settles O39: PCNT leaves D, so a later PAGE or PAGEF counts the same packets, and the count is at most 255. -/
theorem pcntAgreesWithLaterPagination : Obligations.PcntAgreesWithLaterPagination := by
  intro cs s t u v h0 h1 i hf hs ht hD hi hu
  have hst : pcntRule Config.cfg cs s = t := Host.Outcome.next.inj ((command_running hf _).symm.trans hs)
  obtain ⟨hn, hdone⟩ := pcntRule_completes (hst ▸ ht)
  obtain rfl := hst.symm.trans hdone
  have hpages : PagesOrRejects (npk u.D.length cs) u v := by
    rcases hi with rfl | rfl
    · exact command_pagesOrRejects (pageRule_pagesOrRejects _ h0 h1 cs u) hu
    · exact command_pagesOrRejects (pagefRule_pagesOrRejects _ h0 h1 cs u) hu
  rw [hD, done_D] at hpages
  rcases hpages with hrej | ⟨herr, hnpkt, hopkts⟩
  · exact .inl hrej
  · refine .inr ⟨herr, hnpkt, ?_, rfl⟩
    rw [hopkts, done_NPKT, toNat_ofNat_byte (Nat.lt_succ_of_le hn)]

/-- Settles O36: the chunk size, the count, then the room in O for the packets. -/
theorem pageEmitsThePackets : Obligations.PageEmitsThePackets := by
  intro h0 h1 cs s hf
  have hexec : exec (.page h0 h1 cs) s = .next (pageRule Config.cfg h0 h1 cs s) := command_running hf _
  rw [hexec]
  refine ⟨fun hcs => ?_, fun hcs hn => ?_, fun hcs hn hO => ?_, fun hcs hn hO => ?_⟩
  · rw [pageRule_zero hcs]
    rfl
  · rw [pageRule_tooMany hcs hn]
    rfl
  · rw [pageRule_emits hcs hn, withEmit_full (by rw [cfg_oSize]; omega)]
    rfl
  · rw [pageRule_emits hcs hn, withEmit_fits (by rw [cfg_oSize]; omega)]
    rfl

/-- Settles O37: the chunk size, the longest packet, the count, then the room in O for the framed packets. -/
theorem pagefEmitsFramedPackets : Obligations.PagefEmitsFramedPackets := by
  intro h0 h1 cs s hf
  have hexec : exec (.pagef h0 h1 cs) s = .next (pagefRule Config.cfg h0 h1 cs s) := command_running hf _
  rw [hexec]
  refine ⟨fun hcs => ?_, fun hcs hl => ?_, fun hcs hl hn => ?_, fun hcs hl hn hO => ?_, fun hcs hl hn hO => ?_⟩
  · rw [pagefRule_zero hcs]
    rfl
  · rw [pagefRule_tooLong hcs hl]
    rfl
  · rw [pagefRule_tooMany hcs hl hn]
    rfl
  · rw [pagefRule_emits hcs hl hn, withEmit_full (by rw [cfg_oSize]; omega)]
    rfl
  · rw [pagefRule_emits hcs hl hn, withEmit_fits (by rw [cfg_oSize]; omega)]
    rfl

/-- Settles O38: the chunk size, the count, then the room in R for one byte. -/
theorem pcntAppendsTheCount : Obligations.PcntAppendsTheCount := by
  intro cs s hf
  have hexec : exec (.pcnt cs) s = .next (pcntRule Config.cfg cs s) := command_running hf _
  rw [hexec]
  refine ⟨fun hcs => ?_, fun hcs hn => ?_, fun hcs hn hR => ?_, fun hcs hn hR => ?_⟩
  · rw [pcntRule_zero hcs]
    rfl
  · rw [pcntRule_tooMany hcs hn]
    rfl
  · rw [pcntRule_appends hcs hn, withAppend_full (by exact hR)]
    rfl
  · rw [pcntRule_appends hcs hn, withAppend_fits (by exact hR)]
    rfl

end Sys2Proof.Machine
end

section
/-! SUPPORT. The generators (44_generators.md R170 to R189): the checks of GTIME and GALARM one by one, and the emission
of the one packet that every generator comes to. -/

namespace Sys2Proof.Machine

/-! ## GTIME's checks, in their order (44_generators.md R181) -/

/-- The date formats are the codes 0 to 6 without 3. -/
theorem isDateFormat_iff : ∀ b : Byte, isDateFormat b = true ↔ b.toNat ≠ 3 ∧ b.toNat ≤ 6 := by decide

theorem gtimeRule_badZone {s : State} (h : (s.reg 0).toNat ≠ 1 ∧ (s.reg 0).toNat ≠ 2) (c : Cfg) (alpha : Alphabet) :
    gtimeRule c alpha s = raiseFault .zone s :=
  if_pos ⟨fun e => h.1 (congrArg BitVec.toNat e), fun e => h.2 (congrArg BitVec.toNat e)⟩

/-- With a zone of the two that exist, the checks of the weekday and of the date format are next. -/
theorem gtimeRule_goodZone {s : State} (h : (s.reg 0).toNat = 1 ∨ (s.reg 0).toNat = 2) (c : Cfg) (alpha : Alphabet) :
    gtimeRule c alpha s =
      if (s.reg 7).toNat < 1 ∨ (s.reg 7).toNat > 7 then reject .param s
      else if ¬ isDateFormat (s.reg 9) then reject .param s
      else withEmit c 17 [frame (timePayload c alpha s)] s fun s' => done { s' with T := [] } := by
  refine if_neg fun hbad => ?_
  rcases h with h | h
  · exact hbad.1 (BitVec.eq_of_toNat_eq h)
  · exact hbad.2 (BitVec.eq_of_toNat_eq h)

theorem gtimeRule_badWeekday {s : State} (hz : (s.reg 0).toNat = 1 ∨ (s.reg 0).toNat = 2)
    (h : (s.reg 7).toNat < 1 ∨ 7 < (s.reg 7).toNat) (c : Cfg) (alpha : Alphabet) :
    gtimeRule c alpha s = reject .param s := by
  rw [gtimeRule_goodZone hz, if_pos h]

theorem gtimeRule_badDateFormat {s : State} (hz : (s.reg 0).toNat = 1 ∨ (s.reg 0).toNat = 2)
    (hw : 1 ≤ (s.reg 7).toNat ∧ (s.reg 7).toNat ≤ 7) (h : (s.reg 9).toNat = 3 ∨ 6 < (s.reg 9).toNat) (c : Cfg)
    (alpha : Alphabet) : gtimeRule c alpha s = reject .param s := by
  rw [gtimeRule_goodZone hz, if_neg (by omega), if_pos (by rw [isDateFormat_iff]; omega)]

theorem gtimeRule_emits {s : State} (hz : (s.reg 0).toNat = 1 ∨ (s.reg 0).toNat = 2)
    (hw : 1 ≤ (s.reg 7).toNat ∧ (s.reg 7).toNat ≤ 7) (hd : (s.reg 9).toNat ≠ 3 ∧ (s.reg 9).toNat ≤ 6) (c : Cfg)
    (alpha : Alphabet) :
    gtimeRule c alpha s =
      withEmit c 17 [frame (timePayload c alpha s)] s fun s' => done { s' with T := [] } := by
  rw [gtimeRule_goodZone hz, if_neg (by omega), if_neg (not_not_intro ((isDateFormat_iff _).mpr hd))]

/-! ## GALARM's check (44_generators.md R186) -/

theorem galarmRule_badNumber {s : State} (h : (s.reg 0).toNat < 1 ∨ 5 < (s.reg 0).toNat) (c : Cfg) (alpha : Alphabet)
    (pad : Bool) : galarmRule c alpha pad s = raiseFault .alarmNo s := if_pos h

theorem galarmRule_emits {s : State} (h : 1 ≤ (s.reg 0).toNat ∧ (s.reg 0).toNat ≤ 5) (c : Cfg) (alpha : Alphabet)
    (pad : Bool) :
    galarmRule c alpha pad s =
      withEmit c (10 + (alarmMessage c alpha pad s).length) [frame (alarmPayload c alpha pad s)] s fun s' =>
        done { s' with T := [] } := if_neg (by omega)

/-! ## The two commands outside the fault state -/

theorem exec_gtime {s : State} (hf : s.FAULT = false) (alpha : Alphabet) :
    exec (.gtime alpha) s = .next (gtimeRule Config.cfg alpha s) := command_running hf _

theorem exec_galarm {s : State} (hf : s.FAULT = false) (alpha : Alphabet) (pad : Bool) :
    exec (.galarm alpha pad) s = .next (galarmRule Config.cfg alpha pad s) := command_running hf _

/-! ## The packets -/

theorem frame_kStart : frame Config.cfg.kStart = [0x07, 0x20, 0x00, 0x00, 0x04, 0xBF, 0xC3] := by
  rw [cfg_kStart]
  decide +kernel

theorem frame_kEnd : frame Config.cfg.kEnd = [0x04, 0x21, 0xC2, 0xD8] := by
  rw [cfg_kEnd]
  decide +kernel

/-- A flag is true if its register is not 0 (44_generators.md R171). -/
theorem flagByte_eq (b : Byte) : flagByte b = if b ≠ 0 then 1 else 0 := (ite_not ..).symm

/-- What a command does that emits one packet and has no check of its own: both outcomes at O's capacity. -/
theorem command_emit_one {s : State} (hf : s.FAULT = false) (size : State → Nat) (p : State → List Byte) :
    (s.O.length + size s ≤ 131072 →
      command (fun s => withEmit Config.cfg (size s) [p s] s done) s =
        .next { s with O := s.O ++ entries (p s), ERR := 0 }) ∧
    (131072 < s.O.length + size s →
      command (fun s => withEmit Config.cfg (size s) [p s] s done) s = .next { s with ERR := 0x07 }) := by
  rw [command_running hf]
  constructor
  · intro h
    rw [withEmit_one_fits (by exact h)]
    rfl
  · intro h
    rw [withEmit_full (by exact h)]
    rfl

end Sys2Proof.Machine
end

section
/-! SUPPORT. What the six generators have in common (44_generators.md R170): each ends in a rejection, a fatal fault or
the emission of one packet, and in the same way whatever R and D hold. -/

namespace Sys2Proof.Machine

/-- The state with other contents of R and D. -/
def State.withRecordData (s : State) (r d : List Byte) : State := { s with R := r, D := d }

/-- The packets a generator emits: all but GSYNC's are frames of at most 15 bytes (44_generators.md R170). -/
def GeneratorPacket (i : Instr) (p : List Byte) : Prop :=
  p ≠ [] ∧ ((∀ n, i ≠ .gsync n) → ∃ payload, payload.length ≤ 15 ∧ p = frame payload)

/-- How a generator ends from `s`, and from `s` with any other R and D. -/
inductive GeneratorEnds (i : Instr) (s : State) : Prop
  /-- A rejection. -/
  | rejected (e : Code) (he : e ≠ .ok)
      (h : ∀ r d, exec i (s.withRecordData r d) = .next (reject e (s.withRecordData r d)))
  /-- Fatal fault entry. -/
  | faulted (f : Cause) (h : ∀ r d, exec i (s.withRecordData r d) = .next (raiseFault f (s.withRecordData r d)))
  /-- Completion: one packet more in O, `text` in T. -/
  | emitted (p text : List Byte) (hp : GeneratorPacket i p)
      (h : ∀ r d, exec i (s.withRecordData r d) =
        .next (done { s.withRecordData r d with O := s.O ++ entries p, T := text }))

theorem generatorPacket_frame (i : Instr) {payload : List Byte} (h : payload.length ≤ 15) :
    GeneratorPacket i (frame payload) :=
  ⟨frame_ne_nil payload, fun _ => ⟨payload, h, rfl⟩⟩

theorem generatorPacket_sync (c : Cfg) (n : Nat) : GeneratorPacket (.gsync n) (syncPacket c n) :=
  ⟨List.cons_ne_nil _ _, fun h => absurd rfl (h n)⟩

/-- A generator whose rule comes to the emission of one packet, the same for all R and D, is rejected or emits it. -/
theorem generatorEnds_of_withEmit {i : Instr} {s : State} {size : Nat} {p : List Byte} {next : State → State}
    (text : List Byte) (hp : GeneratorPacket i p)
    (hx : ∀ r d, exec i (s.withRecordData r d) =
      .next (withEmit Config.cfg size [p] (s.withRecordData r d) next))
    (hn : ∀ r d q, next { s.withRecordData r d with O := q } = done { s.withRecordData r d with O := q, T := text }) :
    GeneratorEnds i s := by
  rcases Nat.lt_or_ge Config.cfg.oSize (s.O.length + size) with hO | hO
  · refine .rejected .oFull (by decide) fun r d => ?_
    rw [hx, withEmit_full (by exact hO)]
  · refine .emitted p text hp fun r d => ?_
    rw [hx, withEmit_one_fits (by exact hO), hn]
    rfl

theorem gtime_generatorEnds (alpha : Alphabet) {s : State} (hf : s.FAULT = false) :
    GeneratorEnds (.gtime alpha) s := by
  have hx := fun r d => exec_gtime (s := s.withRecordData r d) hf alpha
  by_cases hz : (s.reg 0).toNat = 1 ∨ (s.reg 0).toNat = 2
  case neg =>
    refine .faulted .zone fun r d => ?_
    rw [hx, gtimeRule_badZone (by exact not_or.mp hz)]
  by_cases hw : 1 ≤ (s.reg 7).toNat ∧ (s.reg 7).toNat ≤ 7
  case neg =>
    have hbad : (s.reg 7).toNat < 1 ∨ 7 < (s.reg 7).toNat := by omega
    refine .rejected .param (by decide) fun r d => ?_
    rw [hx, gtimeRule_badWeekday (by exact hz) (by exact hbad)]
  by_cases hd : (s.reg 9).toNat ≠ 3 ∧ (s.reg 9).toNat ≤ 6
  case neg =>
    have hbad : (s.reg 9).toNat = 3 ∨ 6 < (s.reg 9).toNat := by omega
    refine .rejected .param (by decide) fun r d => ?_
    rw [hx, gtimeRule_badDateFormat (by exact hz) (by exact hw) (by exact hbad)]
  have hp : GeneratorPacket (.gtime alpha) (frame (timePayload Config.cfg alpha s)) :=
    generatorPacket_frame _ (by rw [timePayload_length]; decide)
  have hemit : ∀ r d, exec (.gtime alpha) (s.withRecordData r d) =
      .next (withEmit Config.cfg 17 [frame (timePayload Config.cfg alpha s)] (s.withRecordData r d)
        fun u => done { u with T := [] }) := fun r d => by
    rw [hx, gtimeRule_emits (by exact hz) (by exact hw) (by exact hd)]
    rfl
  exact generatorEnds_of_withEmit [] hp hemit fun _ _ _ => rfl

theorem alarmPayload_length_le (c : Cfg) (alpha : Alphabet) (pad : Bool) (s : State) :
    (alarmPayload c alpha pad s).length ≤ 15 := by
  have hmsg : (alarmMessage c alpha pad s).length ≤ 8 := by
    rw [alarmMessage, encodeText_length]
    cases pad <;> simp
  rw [alarmPayload_length]
  omega

theorem galarm_generatorEnds (alpha : Alphabet) (pad : Bool) {s : State} (hf : s.FAULT = false) :
    GeneratorEnds (.galarm alpha pad) s := by
  have hx := fun r d => exec_galarm (s := s.withRecordData r d) hf alpha pad
  by_cases ha : 1 ≤ (s.reg 0).toNat ∧ (s.reg 0).toNat ≤ 5
  case neg =>
    have hbad : (s.reg 0).toNat < 1 ∨ 5 < (s.reg 0).toNat := by omega
    refine .faulted .alarmNo fun r d => ?_
    rw [hx, galarmRule_badNumber (by exact hbad)]
  have hp : GeneratorPacket (.galarm alpha pad) (frame (alarmPayload Config.cfg alpha pad s)) :=
    generatorPacket_frame _ (alarmPayload_length_le _ alpha pad s)
  have hemit : ∀ r d, exec (.galarm alpha pad) (s.withRecordData r d) =
      .next (withEmit Config.cfg (10 + (alarmMessage Config.cfg alpha pad s).length)
        [frame (alarmPayload Config.cfg alpha pad s)] (s.withRecordData r d) fun u => done { u with T := [] }) :=
    fun r d => by
      rw [hx, galarmRule_emits (by exact ha)]
      rfl
  exact generatorEnds_of_withEmit [] hp hemit fun _ _ _ => rfl

/-- Each of the six generators, from every state outside the fault state. -/
theorem isGenerator_ends {i : Instr} {s : State} (hi : i.isGenerator) (hf : s.FAULT = false) : GeneratorEnds i s := by
  rcases hi with ⟨n, rfl⟩ | rfl | rfl | ⟨alpha, rfl⟩ | ⟨alpha, pad, rfl⟩ | rfl
  · exact generatorEnds_of_withEmit s.T (generatorPacket_sync Config.cfg n)
      (fun _ _ => command_running (by exact hf) _) fun _ _ _ => rfl
  · exact generatorEnds_of_withEmit s.T (generatorPacket_frame _ (by decide))
      (fun _ _ => command_running (by exact hf) (gstartRule Config.cfg)) fun _ _ _ => rfl
  · exact generatorEnds_of_withEmit s.T (generatorPacket_frame _ (by decide))
      (fun _ _ => command_running (by exact hf) (gendRule Config.cfg)) fun _ _ _ => rfl
  · exact gtime_generatorEnds alpha hf
  · exact galarm_generatorEnds alpha pad hf
  · exact generatorEnds_of_withEmit s.T
      (generatorPacket_frame _ (payload := sndoptPayload Config.cfg s) (by rw [sndoptPayload_length]; decide))
      (fun _ _ => command_running (by exact hf) (gsndoptRule Config.cfg)) fun _ _ _ => rfl

end Sys2Proof.Machine
end

section
/-! The obligations on the generators: O40 to O46 (44_generators.md). -/

namespace Sys2Proof.Machine

/-- Settles O40: the Sync packet has `n + 41` bytes. -/
theorem gsyncEmitsTheRun : Obligations.GsyncEmitsTheRun := by
  intro n s hf
  have hsize : n + 41 = 1 + n + 40 := by omega
  rw [hsize]
  exact command_emit_one hf (fun _ => 1 + n + 40) fun _ => syncPacket Config.cfg n

/-- Settles O41: the Start packet is the frame of the Start payload. -/
theorem gstartEmitsTheStartPacket : Obligations.GstartEmitsTheStartPacket := by
  intro s hf
  rw [← frame_kStart]
  exact command_emit_one hf (fun _ => 7) fun _ => frame Config.cfg.kStart

/-- Settles O42: the End packet is the frame of the End payload. -/
theorem gendEmitsTheEndPacket : Obligations.GendEmitsTheEndPacket := by
  intro s hf
  rw [← frame_kEnd]
  exact command_emit_one hf (fun _ => 4) fun _ => frame Config.cfg.kEnd

/-- Settles O43: the zone, the weekday, the date format, then the room in O for 17 bytes. -/
theorem gtimeEmitsTheTimePacket : Obligations.GtimeEmitsTheTimePacket := by
  intro alpha A s hA hf
  obtain rfl := alphabet_of_mem_selected hA
  rw [exec_gtime hf]
  refine ⟨fun hz => ?_, fun hz => ⟨fun hw => ?_, fun hw hw' => ⟨fun hd => ?_, fun hd hd' => ?_⟩⟩⟩
  · rw [gtimeRule_badZone hz]
    rfl
  · rw [gtimeRule_badWeekday hz hw]
    rfl
  · rw [gtimeRule_badDateFormat hz ⟨hw, hw'⟩ hd]
    rfl
  · rw [gtimeRule_emits hz ⟨hw, hw'⟩ ⟨hd, hd'⟩]
    refine ⟨fun hO => ?_, fun hO => ?_⟩
    · rw [withEmit_full (by exact hO)]
      rfl
    · rw [withEmit_one_fits (by exact hO)]
      rfl

/-- Settles O44: the alarm number, then the room in O for the message and ten bytes more. -/
theorem galarmEmitsTheAlarmPacket : Obligations.GalarmEmitsTheAlarmPacket := by
  intro alpha A pad s hA hf msg
  obtain rfl := alphabet_of_mem_selected hA
  rw [exec_galarm hf, Nat.add_assoc, ← flagByte_eq]
  refine ⟨fun ha => ?_, fun ha ha' => ⟨fun hO => ?_, fun hO => ?_⟩⟩
  · rw [galarmRule_badNumber ha]
    rfl
  · rw [galarmRule_emits ⟨ha, ha'⟩, withEmit_full (by exact hO)]
    rfl
  · rw [galarmRule_emits ⟨ha, ha'⟩, withEmit_one_fits (by exact hO)]
    rfl

/-- Settles O45: the payload is the opcode and two flags. -/
theorem gsndoptEmitsTheFlags : Obligations.GsndoptEmitsTheFlags := by
  intro s hf
  rw [← flagByte_eq, ← flagByte_eq]
  exact command_emit_one hf (fun _ => 6) fun s => frame (sndoptPayload Config.cfg s)

/-- Settles O46: a rejection writes ERR only, a completion adds one packet, and both are the same for every R and D. -/
theorem generatorsLeaveRecordDataAndRegisters : Obligations.GeneratorsLeaveRecordDataAndRegisters := by
  intro i s t hi hf hx ht
  cases isGenerator_ends hi hf with
  | rejected e he h =>
    obtain rfl := Host.Outcome.next.inj (hx.symm.trans (h s.R s.D))
    exact ⟨rfl, rfl, rfl, rfl, fun herr => absurd herr (Code.byte_ne_zero he), h⟩
  | faulted f h =>
    obtain rfl := Host.Outcome.next.inj (hx.symm.trans (h s.R s.D))
    exact absurd ht (by simp)
  | emitted p text hp h =>
    obtain rfl := Host.Outcome.next.inj (hx.symm.trans (h s.R s.D))
    refine ⟨rfl, rfl, rfl, rfl, fun _ => ⟨?_, p, hp.1, rfl, hp.2⟩, h⟩
    rw [State.opkts, State.opkts, done_O, List.countP_append, entries_eops hp.1]

end Sys2Proof.Machine
end

section
/-! SUPPORT. The lines of a host program one by one (30_encoding.md R87): runs of PUTBs, and the commands of the host
sequences where they complete. A command leaves `ERR = 0` whatever ERR was, a run of PUTBs leaves some ERR; so a sequence
that ends with a command leaves `ERR = 0`. -/

namespace Sys2Proof.Machine

/-! ## Accesses that end with `ERR = 0` -/

/-- Whatever ERR holds before, the accesses lead from `s` to `t` with `ERR = 0`. -/
def Completes (as : List Access) (s t : State) : Prop := ∀ e, Does as { s with ERR := e } { t with ERR := 0 }

theorem Completes.leads {as : List Access} {s t : State} (h : Completes as s t) : Leads as s t := fun e => ⟨0, h e⟩

theorem Leads.completes {as bs : List Access} {s t u : State} (h : Leads as s t) (h' : Completes bs t u) :
    Completes (as ++ bs) s u := by
  intro e
  obtain ⟨e₁, h₁⟩ := h e
  exact h₁.append (h' e₁)

/-- One more line in front. -/
theorem Leads.line {l : AsmLine} {ls : List AsmLine} {s t u : State} (h : Leads l.accesses s t)
    (h' : Completes (accessesOf ls) t u) : Completes (accessesOf (l :: ls)) s u := h.completes h'

/-- The last line. -/
theorem Completes.last {l : AsmLine} {s t : State} (h : Completes l.accesses s t) : Completes (accessesOf [l]) s t := by
  rwa [accessesOf_cons, accessesOf_nil, List.append_nil]

/-- The run of a state in which the accesses wait. -/
theorem Completes.run {as rest : List Access} {s t : State} (h : Completes as s t) (ha : s.accesses = as ++ rest) :
    Host.Core.run Sys2Proof.core as.length s = .next { t with ERR := 0, accesses := rest } := by
  have := h s.ERR rest
  rwa [← ha] at this

/-! ## Runs of PUTBs (30_encoding.md R87, 40_buffer_ops.md R103) -/

/-- The accesses that put bytes into a buffer. -/
def putbs (b : Buf) (xs : List Byte) : List Access := (xs.map (Instr.putb b)).map fun i => cmdWrite (encode i)

theorem putbs_append (b : Buf) (xs ys : List Byte) : putbs b (xs ++ ys) = putbs b xs ++ putbs b ys := by
  simp [putbs]

theorem bytes_accesses (b : Buf) (xs : List Byte) : (AsmLine.bytes b xs).accesses = putbs b xs := List.append_nil _

theorem text_accesses (b : Buf) (xs : List Byte) : (AsmLine.text b xs).accesses = putbs b xs := List.append_nil _

/-- `PUTW` puts the high byte, then the low byte. -/
theorem putw_ofNat_accesses (b : Buf) (v : Nat) : (AsmLine.putw b (BitVec.ofNat 16 v)).accesses = putbs b (be16 v) := by
  have hhi : (BitVec.ofNat 16 v).extractLsb' 8 8 = BitVec.ofNat 8 (v / 256) := by
    apply BitVec.eq_of_toNat_eq
    simp only [BitVec.extractLsb'_toNat, BitVec.toNat_ofNat, Nat.shiftRight_eq_div_pow]
    omega
  have hlo : (BitVec.ofNat 16 v).extractLsb' 0 8 = BitVec.ofNat 8 (v % 256) := by
    apply BitVec.eq_of_toNat_eq
    simp only [BitVec.extractLsb'_toNat, BitVec.toNat_ofNat, Nat.shiftRight_zero]
    omega
  rw [be16, ← hhi, ← hlo]
  rfl

/-- Two runs of PUTBs on one buffer are one run. -/
theorem accessesOf_text_bytes (b : Buf) (xs ys : List Byte) (ls : List AsmLine) :
    accessesOf (.text b xs :: .bytes b ys :: ls) = accessesOf (.text b (xs ++ ys) :: ls) := by
  simp only [accessesOf_cons, text_accesses, bytes_accesses, putbs_append, List.append_assoc]

/-- Bytes into R with room. -/
theorem leads_putbs_R {s : State} {X : List Byte} (hf : s.FAULT = false) (hX : s.R = X) (xs : List Byte)
    (h : X.length + xs.length ≤ 256) : Leads (putbs .R xs) s { s with R := X ++ xs } := by
  subst hX
  exact leads_bytes .R xs hf h

/-- A `BYTES` line into the empty R. -/
theorem leads_bytesLine_R {s : State} (hf : s.FAULT = false) (hR : s.R = []) {X : List Byte} (h : X.length ≤ 256) :
    Leads (AsmLine.bytes .R X).accesses s { s with R := X } :=
  bytes_accesses .R X ▸ leads_putbs_R hf hR X (by rwa [List.length_nil, Nat.zero_add])

/-- Bytes into D with room. -/
theorem leads_putbs_D {s : State} {X : List Byte} (hf : s.FAULT = false) (hX : s.D = X) (xs : List Byte)
    (h : X.length + xs.length ≤ 65536) : Leads (putbs .D xs) s { s with D := X ++ xs } := by
  subst hX
  exact leads_bytes .D xs hf h

/-- A text of any length into the empty T, which keeps what it can hold (70_reset_and_hazards.md R282). -/
theorem leads_text {s : State} (hf : s.FAULT = false) (hT : s.T = []) (xs : List Byte) :
    Leads (AsmLine.text .T xs).accesses s { s with T := xs.take 256 } := by
  have h := leads_putbs .T xs hf (by simp [hT])
  rw [buf_T, hT, List.nil_append] at h
  rw [text_accesses]
  exact h

/-! ## The commands of the host sequences -/

/-- A command whose rule completes, outside the fault state. -/
theorem completes_command {i : Instr} {rule : State → State} {s t : State} (hi : i.WellFormed) (hf : s.FAULT = false)
    (hx : ∀ u, exec i u = command rule u)
    (h : ∀ e rest, rule { s with ERR := e, accesses := rest } = { t with ERR := 0, accesses := rest }) :
    Completes (AsmLine.command i).accesses s t := by
  refine fun e => Does.cmd (decode_encode hi) fun rest => ?_
  rw [hx, command_running (by exact hf)]
  exact congrArg Host.Outcome.next (h e rest)

/-- ENC, PACK6 and PACK4 with room (41_char_encoder.md R114, R119, R122). -/
theorem completes_textIntoR {i : Instr} {f : State → List Byte} {s : State} {X Y : List Byte} (hi : i.WellFormed)
    (hf : s.FAULT = false) (hx : ∀ u, exec i u = command (fun v => textIntoR Config.cfg (f v) v) u) (hX : s.R = X)
    (hY : ∀ e rest, f { s with ERR := e, accesses := rest } = Y) (h : X.length + Y.length ≤ 256) :
    Completes (AsmLine.command i).accesses s { s with R := X ++ Y, T := [] } := by
  subst hX
  refine completes_command hi hf hx fun e rest => ?_
  rw [hY, textIntoR, withAppend_fits (by exact h)]
  rfl

/-- PACK6 on the text that T holds (41_char_encoder.md R119). -/
theorem completes_pack6 {s : State} {X Y : List Byte} (hf : s.FAULT = false) (hX : s.R = X) (hT : s.T = Y.take 256)
    (h : X.length ≤ 232) :
    Completes (AsmLine.command .pack6).accesses s { s with R := X ++ pack6Bytes Config.cfg Y, T := [] } := by
  have hl := pack6Bytes_length_le Config.cfg_valid Y
  exact completes_textIntoR rfl hf (fun _ => rfl) hX (fun _ _ => by rw [hT]; exact pack6Bytes_take _ _ (by decide))
    (by omega)

/-- PACK4 on the text that T holds (41_char_encoder.md R122). -/
theorem completes_pack4 {s : State} {X Y : List Byte} (hf : s.FAULT = false) (hX : s.R = X) (hT : s.T = Y.take 256)
    (h : X.length ≤ 250) :
    Completes (AsmLine.command .pack4).accesses s { s with R := X ++ pack4Bytes Config.cfg Y, T := [] } := by
  have hl := pack4Bytes_length_le Config.cfg_valid Y
  exact completes_textIntoR rfl hf (fun _ => rfl) hX (fun _ _ => by rw [hT]; exact pack4Bytes_take _ _ (by decide))
    (by omega)

/-- FLEN (42_framers.md R139). -/
theorem completes_flen {s : State} {X : List Byte} (hf : s.FAULT = false) (hX : s.R = X) (hl : X.length ≤ 254)
    (hD : s.D.length + (frameLen X).length ≤ 65536) :
    Completes (AsmLine.command .flen).accesses s { s with R := [], D := s.D ++ frameLen X } := by
  subst hX
  refine completes_command rfl hf (fun _ => rfl) fun e rest => ?_
  rw [flenRule_short (by exact hl), withAppend_fits (by exact hD)]
  rfl

/-- FCRC (42_framers.md R135). -/
theorem completes_fcrc {s : State} {X : List Byte} (hf : s.FAULT = false) (hX : s.R = X) (hl : X.length ≤ 252)
    (hO : s.O.length + (frame X).length ≤ 131072) :
    Completes (AsmLine.command .fcrc).accesses s { s with R := [], O := s.O ++ entries (frame X) } := by
  subst hX
  rw [frame_length] at hO
  refine completes_command rfl hf (fun _ => rfl) fun e rest => ?_
  rw [fcrcRule_short (by exact hl), withEmit_one_fits (by exact hO)]
  rfl

/-- PCNT (43_paginator.md R157). -/
theorem completes_pcnt {s : State} {X : List Byte} {cs : Nat} (hf : s.FAULT = false) (hX : s.R = X) (h1 : 1 ≤ cs)
    (h2 : cs ≤ 255) (hn : npk s.D.length cs ≤ 255) (hl : X.length + 1 ≤ 256) :
    Completes (AsmLine.command (.pcnt cs)).accesses s
      { s with R := X ++ [BitVec.ofNat 8 (npk s.D.length cs)], NPKT := BitVec.ofNat 8 (npk s.D.length cs) } := by
  subst hX
  refine completes_command (decide_eq_true (Nat.lt_succ_of_le h2)) hf (fun _ => rfl) fun e rest => ?_
  rw [pcntRule_appends h1 (by exact hn), withAppend_fits (by exact hl)]
  rfl

/-- PAGEF (43_paginator.md R156). -/
theorem completes_pagef {s : State} {cs : Nat} (h0 h1 : Byte) (hf : s.FAULT = false) (hcs : 1 ≤ cs) (hcs' : cs ≤ 255)
    (hm : min cs s.D.length ≤ 249) (hn : npk s.D.length cs ≤ 255)
    (hO : s.O.length + ((paginate h0 h1 cs s.D).map frame).flatten.length ≤ 131072) :
    Completes (AsmLine.command (.pagef h0 h1 cs)).accesses s
      { s with
        O := s.O ++ ((paginate h0 h1 cs s.D).map frame).flatMap entries, D := []
        NPKT := BitVec.ofNat 8 (npk s.D.length cs) } := by
  rw [framed_paginate_flatten_length h0 h1 hcs] at hO
  refine completes_command (rule := pagefRule Config.cfg h0 h1 cs) (decide_eq_true (Nat.lt_succ_of_le hcs')) hf
    (fun _ => rfl) fun e rest => ?_
  have hl : min cs s.D.length + 3 ≤ 252 := by omega
  rw [pagefRule_emits hcs (by exact hl) (by exact hn), withEmit_fits (by exact hO)]
  rfl

end Sys2Proof.Machine
end

section
/-! SUPPORT. The EEPROM records on the block (45_host_sequences.md R207 to R211): what the sequence of each record type
does, alone and in a row. -/

namespace Sys2Proof.Machine

/-! ## One record -/

/-- From T and R empty, with room in D, the lines append the record to D and leave T and R empty
(45_host_sequences.md R211). -/
def BuildsRecord (lines : List AsmLine) (record : List Byte) : Prop :=
  ∀ s : State, s.FAULT = false → s.R = [] → s.T = [] → s.D.length + record.length ≤ 65536 →
    Completes (accessesOf lines) s { s with D := s.D ++ record }

/-- What the four sequences end with: the packed text behind what R holds, length-framed into D. -/
theorem completes_textIntoRecord {s : State} {X : List Byte} (hf : s.FAULT = false) (hX : s.R = X) (hT : s.T = [])
    (hl : X.length ≤ 230) (Y : List Byte)
    (hD : s.D.length + (frameLen (X ++ pack6Bytes Config.cfg Y)).length ≤ 65536) :
    Completes (accessesOf [.text .T Y, .command .pack6, .command .flen]) s
      { s with R := [], T := [], D := s.D ++ frameLen (X ++ pack6Bytes Config.cfg Y) } := by
  have hp := pack6Bytes_length_le Config.cfg_valid Y
  have hlen : (X ++ pack6Bytes Config.cfg Y).length ≤ 254 := by rw [List.length_append]; omega
  have hpack : Completes (AsmLine.command .pack6).accesses { s with T := Y.take 256 }
      { s with R := X ++ pack6Bytes Config.cfg Y, T := [] } := completes_pack6 hf hX rfl (by omega)
  have hflen : Completes (AsmLine.command .flen).accesses { s with R := X ++ pack6Bytes Config.cfg Y, T := [] }
      { s with R := [], T := [], D := s.D ++ frameLen (X ++ pack6Bytes Config.cfg Y) } := completes_flen hf rfl hlen hD
  exact (leads_text hf hT Y).line (hpack.leads.line hflen.last)

/-- Appointments, anniversaries and list items: some bytes, then a text (45_host_sequences.md R207 to R209). -/
theorem buildsRecord_fields (fields Y : List Byte) (h : fields.length ≤ 230) :
    BuildsRecord [.bytes .R fields, .text .T Y, .command .pack6, .command .flen]
      (frameLen (fields ++ pack6Bytes Config.cfg Y)) := by
  intro s hf hR hT hD
  rw [hR, hT]
  exact (leads_bytesLine_R hf hR (by omega)).line (completes_textIntoRecord (s := { s with R := fields }) hf rfl hT h Y hD)

theorem Appointment.buildsRecord (x : Appointment) : BuildsRecord x.lines (x.record Config.cfg) :=
  buildsRecord_fields [x.month, x.day, x.quarterHourByte] x.message (by simp)

theorem Anniversary.buildsRecord (x : Anniversary) : BuildsRecord x.lines (x.record Config.cfg) :=
  buildsRecord_fields [x.month, x.day] x.label (by simp)

theorem ListItem.buildsRecord (x : ListItem) : BuildsRecord x.lines (x.record Config.cfg) :=
  buildsRecord_fields [x.priorityByte] x.entry (by simp)

/-- Phone numbers: the packed number with its tag, then the name (45_host_sequences.md R210). -/
theorem PhoneNumber.buildsRecord (x : PhoneNumber) : BuildsRecord x.lines (x.record Config.cfg) := by
  intro s hf hR hT hD
  have hp := pack4Bytes_length_le Config.cfg_valid x.phoneText
  have hpack : Completes (AsmLine.command .pack4).accesses { s with T := x.phoneText.take 256 }
      { s with R := pack4Bytes Config.cfg x.phoneText, T := [] } := completes_pack4 (X := []) hf hR rfl (by simp)
  have hname := completes_textIntoRecord (s := { s with R := pack4Bytes Config.cfg x.phoneText, T := [] }) hf rfl rfl
    (hp.trans (by decide)) x.name hD
  rw [PhoneNumber.lines, accessesOf_text_bytes, hR, hT]
  exact (leads_text hf hT x.phoneText).line (hpack.leads.line hname)

/-! ## Records in a row -/

section
variable {α : Type} {lines : α → List AsmLine} {record : α → List Byte} {s : State}

theorem leads_records (h : ∀ x, BuildsRecord (lines x) (record x)) (xs : List α) (hf : s.FAULT = false) (hR : s.R = [])
    (hT : s.T = []) (hD : s.D.length + (xs.flatMap record).length ≤ 65536) :
    Leads (accessesOf (xs.flatMap lines)) s { s with D := s.D ++ xs.flatMap record } := by
  induction xs generalizing s with
  | nil => simpa using Leads.nil s
  | cons x xs ih =>
    rw [List.flatMap_cons, List.length_append] at hD
    have hx := (h x s hf hR hT (by omega)).leads
    have hxs := ih (s := { s with D := s.D ++ record x }) hf hR hT (by rw [List.length_append]; omega)
    rw [List.flatMap_cons, List.flatMap_cons, accessesOf_append, ← List.append_assoc]
    exact hx.append hxs

/-- The state with other data and another value read last. -/
def State.withData (s : State) (X : List Byte) (v : Word) : State := { s with D := X, rdata := v }

/-- A section of the aggregator, up to its reading of DLEN (45_host_sequences.md R220). -/
theorem leads_section (h : ∀ x, BuildsRecord (lines x) (record x)) (xs : List α) (hf : s.FAULT = false) (hR : s.R = [])
    (hT : s.T = []) {X : List Byte} (v : Word) (hX : (X ++ xs.flatMap record).length ≤ 65536) :
    Leads (accessesOf (xs.flatMap lines ++ [.rd .dlen])) (s.withData X v)
      (s.withData (X ++ xs.flatMap record) (BitVec.ofNat 32 (X ++ xs.flatMap record).length)) := by
  rw [List.length_append] at hX
  rw [accessesOf_append]
  exact (leads_records (s := s.withData X v) h xs hf hR hT hX).append (Leads.readDlen _)

end

end Sys2Proof.Machine
end

section
/-! The obligation on the records: O57 (45_host_sequences.md R207 to R211). -/

namespace Sys2Proof.Machine

/-- Settles O57: each record's sequence builds the record, whatever T loses of a long text. -/
theorem recordSequencesAppendTheRecord : Obligations.RecordSequencesAppendTheRecord := by
  intro s rest hf hR hT
  refine ⟨fun x => ⟨⟨x.quarterHourByte, rfl, fun hh hm => ?_⟩, fun ha hD => (x.buildsRecord s hf hR hT hD).run ha⟩,
    fun x => ⟨rfl, fun ha hD => (x.buildsRecord s hf hR hT hD).run ha⟩,
    fun x => ⟨⟨x.priorityByte, rfl, x.priorityByte_toNat⟩, fun ha hD => (x.buildsRecord s hf hR hT hD).run ha⟩,
    fun x => ⟨rfl, fun ha hD => (x.buildsRecord s hf hR hT hD).run ha⟩, fun entry priority => ⟨?_, fun h => ?_⟩⟩
  · exact toNat_ofNat_byte (n := quarterHour x.hour x.minute) (by rw [quarterHour]; omega)
  · rintro ⟨p, rfl, hp⟩
    exact ListItem.construct_invalid entry (by omega)
  · exact ⟨_, ListItem.construct_valid entry h, rfl, rfl⟩

end Sys2Proof.Machine
end

section
/-! SUPPORT. The packet groups on the block (45_host_sequences.md R200 to R205, R217, R220): a packet of constants, and the
group of a header packet with its count, the data packets and an end packet, which the three sequences share. -/

namespace Sys2Proof.Machine

/-- Bytes into the empty R, then FCRC: one packet. -/
theorem completes_packet {s : State} (hf : s.FAULT = false) (hR : s.R = []) (X : List Byte) (hl : X.length ≤ 252)
    (hO : s.O.length + (frame X).length ≤ 131072) :
    Completes (accessesOf [.bytes .R X, .command .fcrc]) s { s with O := s.O ++ entries (frame X) } := by
  rw [hR]
  exact (leads_bytesLine_R hf hR (by omega)).line (completes_fcrc (s := { s with R := X }) hf rfl hl hO).last

/-- The packets of such a group: the header with the count and more bytes behind it, the data packets, the end packet. -/
def countedGroup (hdr tail : List Byte) (data : Byte × Byte) (cs : Nat) (X last : List Byte) : List (List Byte) :=
  [frame (hdr ++ BitVec.ofNat 8 (npk X.length cs) :: tail)] ++ (paginate data.1 data.2 cs X).map frame ++ [frame last]

/-- The lines of such a group from the header on; `tailLines` write the bytes behind the count. -/
def countedGroupLines (hdr : List Byte) (tailLines : List AsmLine) (data : Byte × Byte) (cs : Nat) (last : List Byte) :
    List AsmLine :=
  .bytes .R hdr :: .command (.pcnt cs) :: (tailLines ++ [.command .fcrc]) ++
    [.command (.pagef data.1 data.2 cs), .bytes .R last, .command .fcrc]

/-- The bounds within which the group has packets (42_framers.md R133, 43_paginator.md R151). -/
structure GroupFits (hdr tail : List Byte) (cs : Nat) (X last : List Byte) : Prop where
  chunkPos : 1 ≤ cs
  chunkByte : cs ≤ 255
  chunkFits : min cs X.length ≤ 249
  countFits : npk X.length cs ≤ 255
  headerFits : hdr.length + tail.length ≤ 251
  lastFits : last.length ≤ 252

variable {hdr tail last X : List Byte} {data : Byte × Byte} {cs : Nat}

/-- A group with packets in front of it. -/
theorem groupPackets_counted (h : GroupFits hdr tail cs X last) {front : List (List Byte)}
    (hfront : ∀ p ∈ front, p.length ≤ 252) :
    groupPackets (front ++ [hdr ++ BitVec.ofNat 8 (npk X.length cs) :: tail]) data cs X last =
      some (front.map frame ++ countedGroup hdr tail data cs X last) := by
  have hlead : ∀ p ∈ front ++ [hdr ++ BitVec.ofNat 8 (npk X.length cs) :: tail], p.length ≤ 252 := by
    intro p hp
    rcases List.mem_append.mp hp with hp | hp
    · exact hfront p hp
    · have := h.headerFits
      rw [List.mem_singleton.mp hp, List.length_append, List.length_cons]
      omega
  rw [groupPackets_eq h.chunkPos h.chunkByte h.countFits h.chunkFits hlead h.lastFits]
  simp [countedGroup]

/-- The header packet: the count stands for the data that D holds, and D keeps it. -/
theorem completes_countedHeader {tailLines : List AsmLine} {s : State} (hf : s.FAULT = false) (hR : s.R = [])
    (h : GroupFits hdr tail cs s.D last) (ht : accessesOf tailLines = putbs .R tail)
    (hO : s.O.length + (frame (hdr ++ BitVec.ofNat 8 (npk s.D.length cs) :: tail)).length ≤ 131072) :
    Completes (accessesOf (.bytes .R hdr :: .command (.pcnt cs) :: (tailLines ++ [.command .fcrc]))) s
      { s with
        O := s.O ++ entries (frame (hdr ++ BitVec.ofNat 8 (npk s.D.length cs) :: tail))
        NPKT := BitVec.ofNat 8 (npk s.D.length cs) } := by
  have hh := h.headerFits
  have hhdr := leads_bytesLine_R hf hR (X := hdr) (by omega)
  have hcount := completes_pcnt (s := { s with R := hdr }) (X := hdr) hf rfl h.chunkPos h.chunkByte h.countFits (by omega)
  generalize BitVec.ofNat 8 (npk s.D.length cs) = n at hcount hO ⊢
  have htail := leads_putbs_R (s := { s with R := hdr ++ [n], NPKT := n }) hf rfl tail
    (by rw [List.length_append, List.length_singleton]; omega)
  rw [← ht, List.append_assoc, List.singleton_append] at htail
  have hframe := completes_fcrc (s := { s with R := hdr ++ n :: tail, NPKT := n }) hf rfl
    (by rw [List.length_append, List.length_cons]; omega) hO
  rw [hR]
  refine hhdr.line (hcount.leads.line ?_)
  rw [accessesOf_append]
  exact htail.completes hframe.last

/-- The whole group: the lines emit it and empty D. -/
theorem completes_countedGroup {tailLines : List AsmLine} {s : State} (hf : s.FAULT = false) (hR : s.R = [])
    (h : GroupFits hdr tail cs s.D last) (ht : accessesOf tailLines = putbs .R tail)
    (hO : s.O.length + (countedGroup hdr tail data cs s.D last).flatten.length ≤ 131072) :
    Completes (accessesOf (countedGroupLines hdr tailLines data cs last)) s
      { s with
        D := [], O := s.O ++ (countedGroup hdr tail data cs s.D last).flatMap entries
        NPKT := BitVec.ofNat 8 (npk s.D.length cs) } := by
  simp only [countedGroup, List.flatten_append, List.length_append, List.flatten_singleton] at hO
  have hheader := completes_countedHeader hf hR h ht (by omega)
  rw [countedGroupLines, accessesOf_append, countedGroup]
  simp only [List.flatMap_append, List.flatMap_singleton, ← List.append_assoc]
  refine hheader.leads.completes (Leads.line (Completes.leads (completes_pagef data.1 data.2 hf h.chunkPos h.chunkByte
    h.chunkFits h.countFits ?_)) (completes_packet (by exact hf) (by exact hR) last h.lastFits ?_))
  · simp only [List.length_append, entries_length]
    omega
  · simp only [List.length_append, entries_length, flatMap_entries_length]
    omega

end Sys2Proof.Machine
end

section
/-! The obligation on the SoundTheme and WristApp groups: O58 (45_host_sequences.md R200 to R205). -/

namespace Sys2Proof.Machine

theorem themeSendable_iff (X : List Byte) : themeSendable X = true ↔ 1 ≤ X.length ∧ X.length ≤ 256 := by
  simp [themeSendable]

/-- A theme that the host must refuse has neither packets nor lines (45_host_sequences.md R202). -/
theorem soundTheme_refused (h : HostConstants) {X : List Byte} (hX : X.length < 1 ∨ 256 < X.length) :
    soundThemePackets h X = none ∧ soundThemeLines h X = none := by
  have hno : ¬ themeSendable X = true := by rw [themeSendable_iff]; omega
  exact ⟨if_neg hno, if_neg hno⟩

/-- From R and D empty: the data into D, then the group (45_host_sequences.md R203, R205). -/
theorem completes_dataThenGroup {hdr tail last X : List Byte} {data : Byte × Byte} {cs : Nat} {s : State}
    (hf : s.FAULT = false) (hR : s.R = []) (hD : s.D = []) (h : GroupFits hdr tail cs X last)
    (hO : s.O.length + (countedGroup hdr tail data cs X last).flatten.length ≤ 131072) :
    Completes (accessesOf (.bytes .D X :: countedGroupLines hdr [.bytes .R tail] data cs last)) s
      { s with
        O := s.O ++ (countedGroup hdr tail data cs X last).flatMap entries
        NPKT := BitVec.ofNat 8 (npk X.length cs) } := by
  have hX : X.length ≤ 65536 := calc
    X.length ≤ npk X.length cs * cs := le_npk_mul h.chunkPos
    _ ≤ 255 * 255 := Nat.mul_le_mul h.countFits h.chunkByte
    _ ≤ 65536 := by decide
  have hdata : Leads (AsmLine.bytes .D X).accesses s { s with D := X } :=
    bytes_accesses .D X ▸ leads_putbs_D hf hD X (by rwa [List.length_nil, Nat.zero_add])
  have htail : accessesOf [.bytes .R tail] = putbs .R tail := by
    rw [accessesOf_cons, accessesOf_nil, List.append_nil, bytes_accesses]
  rw [hD]
  exact hdata.line (completes_countedGroup (s := { s with D := X }) hf hR h htail hO)

/-- Settles O58: both sequences put the data into D and emit one counted group, WristApp after its clear packet. -/
theorem multiPacketGroupSequencesEmitTheGroup : Obligations.MultiPacketGroupSequencesEmitTheGroup := by
  intro h X s rest hf hR hD
  refine ⟨soundTheme_refused h, fun h1 h256 hcs hm hn hhdr hend => ?_, fun hcs hm hn hclear hhdr hend => ?_⟩
  · have hsend := (themeSendable_iff X).mpr ⟨h1, h256⟩
    have hfits : GroupFits h.stHdr [BitVec.ofNat 8 (256 - X.length)] h.stChunk.toNat X h.stEnd :=
      ⟨hcs, Nat.le_of_lt_succ h.stChunk.isLt, hm, hn, Nat.succ_le_succ hhdr, hend⟩
    refine ⟨_, _, _, _, (if_pos hsend).trans (groupPackets_counted hfits (front := []) nofun), if_pos hsend,
      toNat_ofNat_byte (by omega), toNat_ofNat_byte (by omega), rfl, fun ha hO => ?_⟩
    exact (completes_dataThenGroup hf hR hD hfits hO).run ha
  · have hfits : GroupFits h.waHdr [h.waMarker] h.waChunk.toNat X h.waEnd :=
      ⟨hcs, Nat.le_of_lt_succ h.waChunk.isLt, hm, hn, Nat.succ_le_succ hhdr, hend⟩
    refine ⟨_, _, groupPackets_counted hfits (front := [h.waClear]) (by simpa using hclear),
      toNat_ofNat_byte (by omega), rfl, fun ha hO => ?_⟩
    have hlines : wristAppLines h X = [.bytes .R h.waClear, .command .fcrc] ++ (.bytes .D X ::
      countedGroupLines h.waHdr [.bytes .R [h.waMarker]] h.waData h.waChunk.toNat h.waEnd) := rfl
    rw [hlines, accessesOf_append] at ha ⊢
    rw [List.map_singleton, List.flatten_append, List.length_append, List.flatten_singleton] at hO
    have hfirst := completes_packet hf hR h.waClear hclear (by omega)
    have hgroup := completes_dataThenGroup (s := { s with O := s.O ++ entries (frame h.waClear) })
      (data := h.waData) hf hR hD hfits (by rw [List.length_append, entries_length]; omega)
    have hall := (hfirst.leads.completes hgroup).run ha
    rw [List.append_assoc] at hall
    exact hall

end Sys2Proof.Machine
end

section
/-! SUPPORT. The EEPROM aggregator on the block (45_host_sequences.md R212 to R220): its lines in three parts, and what each
does. -/

namespace Sys2Proof.Machine

namespace EepromData

/-! ## What the host refuses (45_host_sequences.md R212, R214, R215, R220) -/

theorem acceptable_cfg_iff (e : EepromData) :
    e.acceptable Config.cfg = true ↔ (∀ n ∈ e.counts, n ≤ 255) ∧ (e.payload Config.cfg).length ≤ 8160 :=
  e.acceptable_iff Config.cfg (by decide)

theorem refused_of_not_acceptable (h : HostConstants) {c : Cfg} {e : EepromData} (he : ¬ e.acceptable c = true) :
    eepromPackets h c e = none ∧ eepromLines h c e = none := ⟨if_neg he, if_neg he⟩

theorem refused_of_leadTime (h : HostConstants) {c : Cfg} {e : EepromData} (he : notificationCode e.leadTime = none) :
    eepromPackets h c e = none ∧ eepromLines h c e = none := by
  simp [eepromPackets, eepromLines, he]

/-! ## The header packet (45_host_sequences.md R214 to R217) -/

theorem headerTail_length (c : Cfg) (e : EepromData) (notif : Byte) : (e.headerTail c notif).length = 14 := by
  simp [headerTail, addresses, runningAddresses, sections, be16, counts]

/-- The lines that write the header packet behind its count. -/
def headerTailLines (c : Cfg) (e : EepromData) (notif : Byte) : List AsmLine :=
  (e.addresses c).map (fun A => .putw .R (BitVec.ofNat 16 A)) ++
    [.bytes .R (e.counts.map (BitVec.ofNat 8)), .bytes .R [e.earliestYear], .bytes .R [notif]]

theorem accessesOf_putws (b : Buf) (vs : List Nat) :
    accessesOf (vs.map fun v => .putw b (BitVec.ofNat 16 v)) = putbs b (vs.flatMap be16) := by
  induction vs with
  | nil => rfl
  | cons v vs ih => rw [List.map_cons, accessesOf_cons, ih, putw_ofNat_accesses, List.flatMap_cons, putbs_append]

theorem accessesOf_headerTailLines (c : Cfg) (e : EepromData) (notif : Byte) :
    accessesOf (e.headerTailLines c notif) = putbs .R (e.headerTail c notif) := by
  have hyear : [e.earliestYear, notif] = [e.earliestYear] ++ [notif] := rfl
  rw [headerTailLines, headerTail, accessesOf_append, accessesOf_putws, hyear]
  simp only [accessesOf_cons, accessesOf_nil, bytes_accesses, putbs_append, List.append_assoc, List.append_nil]

/-! ## The sections (45_host_sequences.md R213, R220) -/

theorem payload_eq (c : Cfg) (e : EepromData) :
    e.payload c = e.appointments.flatMap (Appointment.record c) ++ e.lists.flatMap (ListItem.record c) ++
      e.phones.flatMap (PhoneNumber.record c) ++ e.anniversaries.flatMap (Anniversary.record c) := by
  simp [payload, sections]

/-- The lines that build the four sections, with a reading of DLEN after each of the first three. -/
def sectionLines (e : EepromData) : List AsmLine :=
  (e.appointments.flatMap Appointment.lines ++ [.rd .dlen]) ++ (e.lists.flatMap ListItem.lines ++ [.rd .dlen]) ++
    (e.phones.flatMap PhoneNumber.lines ++ [.rd .dlen]) ++ e.anniversaries.flatMap Anniversary.lines

theorem leads_sectionLines (e : EepromData) {s : State} (hf : s.FAULT = false) (hT : s.T = []) (hR : s.R = [])
    (hD : s.D = []) (hX : (e.payload Config.cfg).length ≤ 65536) :
    Leads (accessesOf e.sectionLines) s
      { s with
        D := e.payload Config.cfg
        rdata := BitVec.ofNat 32 ((e.appointments.flatMap (Appointment.record Config.cfg)).length +
          (e.lists.flatMap (ListItem.record Config.cfg)).length +
          (e.phones.flatMap (PhoneNumber.record Config.cfg)).length) } := by
  rw [payload_eq, List.length_append] at hX
  have h2 : Leads _ (s.withData [] s.rdata) _ :=
    ((leads_section Appointment.buildsRecord e.appointments hf hR hT s.rdata ?_).append
      (leads_section ListItem.buildsRecord e.lists hf hR hT _ ?_)).append
      (leads_section PhoneNumber.buildsRecord e.phones hf hR hT _ ?_)
  · have hs : s.withData [] s.rdata = s := by rw [← hD]; rfl
    rw [hs, ← accessesOf_append, ← accessesOf_append] at h2
    rw [payload_eq, sectionLines, accessesOf_append, ← List.length_append, ← List.length_append]
    exact h2.append (leads_records Anniversary.buildsRecord e.anniversaries (by exact hf) (by exact hR) (by exact hT)
      (by exact hX))
  all_goals simp only [List.length_append, List.nil_append] at hX ⊢; omega

end EepromData

/-! ## The whole group -/

section
variable {c : Cfg} {e : EepromData} {notif : Byte} (h : HostConstants)

theorem eepromLines_eq (he : e.acceptable c = true) (hn : notificationCode e.leadTime = some notif) :
    eepromLines h c e = some ([.bytes .R h.eeClear, .command .fcrc] ++ e.sectionLines ++
      countedGroupLines h.eeHdr (e.headerTailLines c notif) h.eeData 32 h.eeEnd) := by
  rw [eepromLines, if_pos he, hn]
  simp [EepromData.sectionLines, countedGroupLines, EepromData.headerTailLines]

theorem eepromPackets_eq (he : e.acceptable c = true) (hn : notificationCode e.leadTime = some notif)
    (hfits : GroupFits h.eeHdr (e.headerTail c notif) 32 (e.payload c) h.eeEnd) (hclear : h.eeClear.length ≤ 252) :
    eepromPackets h c e = some (frame h.eeClear ::
      countedGroup h.eeHdr (e.headerTail c notif) h.eeData 32 (e.payload c) h.eeEnd) := by
  rw [eepromPackets, if_pos he, hn, Option.bind_some, List.append_assoc, List.singleton_append]
  exact groupPackets_counted hfits (front := [h.eeClear]) (by simpa using hclear)

/-- Acceptable data, and constants that fit their frames. -/
theorem eeprom_groupFits (hX : (e.payload c).length ≤ 8160) (hhdr : h.eeHdr.length ≤ 237) (hend : h.eeEnd.length ≤ 252) :
    GroupFits h.eeHdr (e.headerTail c notif) 32 (e.payload c) h.eeEnd where
  chunkPos := by decide
  chunkByte := by decide
  chunkFits := Nat.le_trans (Nat.min_le_left ..) (by decide)
  countFits := (npk_le_iff (by decide) (by decide)).mpr hX
  headerFits := by rw [EepromData.headerTail_length]; omega
  lastFits := hend

/-- The three parts in a row: the clear packet, the sections, the group. -/
theorem completes_eepromLines {s : State} (hf : s.FAULT = false) (hT : s.T = []) (hR : s.R = []) (hD : s.D = [])
    (hX : (e.payload Config.cfg).length ≤ 65536) (hclear : h.eeClear.length ≤ 252)
    (hfits : GroupFits h.eeHdr (e.headerTail Config.cfg notif) 32 (e.payload Config.cfg) h.eeEnd)
    (hO : s.O.length + (frame h.eeClear :: countedGroup h.eeHdr (e.headerTail Config.cfg notif) h.eeData 32
      (e.payload Config.cfg) h.eeEnd).flatten.length ≤ 131072) :
    Completes (accessesOf ([.bytes .R h.eeClear, .command .fcrc] ++ e.sectionLines ++
        countedGroupLines h.eeHdr (e.headerTailLines Config.cfg notif) h.eeData 32 h.eeEnd)) s
      { s with
        O := s.O ++ (frame h.eeClear :: countedGroup h.eeHdr (e.headerTail Config.cfg notif) h.eeData 32
          (e.payload Config.cfg) h.eeEnd).flatMap entries
        NPKT := BitVec.ofNat 8 (npk (e.payload Config.cfg).length 32)
        rdata := BitVec.ofNat 32 ((e.appointments.flatMap (Appointment.record Config.cfg)).length +
          (e.lists.flatMap (ListItem.record Config.cfg)).length +
          (e.phones.flatMap (PhoneNumber.record Config.cfg)).length) } := by
  rw [List.flatten_cons, List.length_append] at hO
  rw [accessesOf_append, accessesOf_append, List.flatMap_cons, ← List.append_assoc, hD]
  have hfirst := completes_packet hf hR h.eeClear hclear (by omega)
  refine Leads.completes (Leads.append hfirst.leads
    (e.leads_sectionLines (by exact hf) (by exact hT) (by exact hR) (by exact hD) hX))
    (completes_countedGroup (by exact hf) (by exact hR) hfits (e.accessesOf_headerTailLines Config.cfg notif) ?_)
  simp only [List.length_append, entries_length]
  omega

end

end Sys2Proof.Machine
end

section
/-! The obligations on the EEPROM group: O59, O60 (45_host_sequences.md R212 to R220). -/

namespace Sys2Proof.Machine

theorem notificationCode_of_mem : ∀ p ∈ ([(none, 0xFF), (some 0, 0), (some 5, 1), (some 10, 2), (some 15, 3),
    (some 20, 4), (some 25, 5), (some 30, 6)] : List (Option Nat × Byte)), notificationCode p.1 = some p.2 := by
  decide

/-- Settles O59: the host refuses by its own checks; otherwise the sections' records fill D, and one counted group follows
the clear packet. -/
theorem eepromSequenceEmitsTheGroup : Obligations.EepromSequenceEmitsTheGroup := by
  intro h e
  dsimp only
  refine ⟨fun hbad => ?_, fun year notif hyear hnotif hc0 hc1 hc2 hc3 hX hclear hhdr hend => ?_⟩
  · by_cases hlead : ∃ m, e.leadTime = some m ∧ m ∉ ([0, 5, 10, 15, 20, 25, 30] : List Nat)
    · obtain ⟨m, hm, hnot⟩ := hlead
      exact EepromData.refused_of_leadTime h (hm ▸ notificationCode_eq_none hnot)
    · refine EepromData.refused_of_not_acceptable h fun hacc => ?_
      obtain ⟨hcounts, hX⟩ := e.acceptable_cfg_iff.mp hacc
      simp only [EepromData.counts, List.forall_mem_cons, List.not_mem_nil, false_imp_iff, implies_true, and_true]
        at hcounts
      simp only [List.length_append, hlead, or_false] at hbad
      rw [e.payload_length Config.cfg] at hX
      omega
  · rw [← e.payload_eq Config.cfg] at hX ⊢
    have hacc : e.acceptable Config.cfg = true :=
      e.acceptable_cfg_iff.mpr ⟨by simp [EepromData.counts, hc0, hc1, hc2, hc3], hX⟩
    have hcode := notificationCode_of_mem _ hnotif
    have hfits := eeprom_groupFits (notif := notif) h hX hhdr hend
    refine ⟨_, _, eepromPackets_eq h hacc hcode hfits hclear, eepromLines_eq h hacc hcode, ?_,
      fun s rest hf hT hR hD ha hO =>
        (completes_eepromLines h hf hT hR hD (by omega) hclear hfits hO).run ha⟩
    simp [countedGroup, EepromData.headerTail, EepromData.addresses, EepromData.sections, runningAddresses, be16,
      EepromData.counts, EepromData.earliestYear_eq hyear]

/-- Settles O60: it is the group of O59 for no data. -/
theorem eepromWithoutRecordsHasFourPackets : Obligations.EepromWithoutRecordsHasFourPackets := by
  intro h hclear hhdr hend
  exact eepromPackets_eq h rfl rfl (eeprom_groupFits h (by decide) hhdr hend) hclear

end Sys2Proof.Machine
end

section
/-! SUPPORT. The outcomes of a command (60_exceptions.md R244 to R248): a fatal fault on exactly two operands, and
otherwise an ERR of the command's row in the table of outcomes, with FAULT and the waiting accesses as they were. -/

namespace Sys2Proof.Machine

/-! ## Outside the fault state: the fatal faults (60_exceptions.md R244) -/

/-- The commands whose operand is fatal in a state, with the cause (44_generators.md R181, R186). -/
inductive FatalOperand : Instr → State → Cause → Prop
  /-- GTIME with a zone that is not 1 or 2. -/
  | zone {s : State} (alpha : Alphabet) (h : (s.reg 0).toNat ≠ 1 ∧ (s.reg 0).toNat ≠ 2) :
      FatalOperand (.gtime alpha) s .zone
  /-- GALARM with an alarm number that is not 1 to 5. -/
  | alarmNo {s : State} (alpha : Alphabet) (pad : Bool) (h : ¬(1 ≤ (s.reg 0).toNat ∧ (s.reg 0).toNat ≤ 5)) :
      FatalOperand (.galarm alpha pad) s .alarmNo

/-- A fatal operand leads to fatal fault entry with its cause. -/
theorem exec_fatalOperand {i : Instr} {s : State} {f : Cause} (hf : s.FAULT = false) (h : FatalOperand i s f) :
    exec i s = .next (raiseFault f s) := by
  cases h with
  | zone alpha hz => rw [exec_gtime hf, gtimeRule_badZone hz]
  | alarmNo alpha pad ha => rw [exec_galarm hf, galarmRule_badNumber (by omega)]

/-- The cause of a fatal fault is in the command's row. -/
theorem FatalOperand.byte_mem {i : Instr} {s : State} {f : Cause} (h : FatalOperand i s f) :
    f.byte ∈ outcomeCodes i := by
  cases h <;> simp [outcomeCodes, Cause.byte]

/-! ## Outside the fault state: the other outcomes (60_exceptions.md R248) -/

/-- From `s` to `t` ERR has become one of the codes, there has been no fault entry, and no access was taken or added. -/
structure EndsWithin (codes : List Byte) (s t : State) : Prop where
  /-- ERR is one of the codes. -/
  err : t.ERR ∈ codes
  /-- FAULT is as it was. -/
  fault : t.FAULT = s.FAULT
  /-- The accesses still to be served are the same. -/
  accesses : t.accesses = s.accesses

theorem endsWithin_reject {codes : List Byte} {e : Code} (h : e.byte ∈ codes) (s : State) :
    EndsWithin codes s (reject e s) :=
  ⟨h, rfl, rfl⟩

/-- An append that is followed by a completion: `E_BUFFULL` is the only rejection (20_memory.md R51). -/
theorem withAppend_endsWithin {codes : List Byte} (c : Cfg) (b : Buf) (x : List Byte) (s : State)
    {next : State → State} (hn : ∀ u, EndsWithin [0x00] u (next u)) (hcodes : [0x00, 0x06] ⊆ codes) :
    EndsWithin codes s (withAppend c b x s next) := by
  rcases withAppend_cases c b x s next with ⟨_, e⟩ | ⟨_, e⟩ <;> rw [e]
  · exact endsWithin_reject (hcodes (by decide)) s
  · obtain ⟨herr, hfault, hacc⟩ := hn (s.setBuf b (s.buf b ++ x))
    rw [List.mem_singleton] at herr
    exact ⟨hcodes (by simp [herr]), by rw [hfault, setBuf_field_FAULT], by rw [hacc, setBuf_field_accesses]⟩

/-- An emission that is followed by a completion: `E_OFULL` is the only rejection (20_memory.md R53). -/
theorem withEmit_endsWithin {codes : List Byte} (c : Cfg) (size : Nat) (ps : List (List Byte)) (s : State)
    {next : State → State} (hn : ∀ u, EndsWithin [0x00] u (next u)) (hcodes : [0x00, 0x07] ⊆ codes) :
    EndsWithin codes s (withEmit c size ps s next) := by
  rcases withEmit_cases c size ps s next with ⟨_, e⟩ | ⟨_, e⟩ <;> rw [e]
  · exact endsWithin_reject (hcodes (by decide)) s
  · obtain ⟨herr, hfault, hacc⟩ := hn { s with O := s.O ++ ps.flatMap entries }
    rw [List.mem_singleton] at herr
    exact ⟨hcodes (by simp [herr]), hfault, hacc⟩

theorem done_endsWithin (s : State) : EndsWithin [0x00] s (done s) := ⟨by simp, rfl, rfl⟩

/-- The completion of the commands that empty T. -/
theorem done_clear_T_endsWithin (s : State) : EndsWithin [0x00] s (done { s with T := [] }) := ⟨by simp, rfl, rfl⟩

/-- The completion of the commands that send the record away. -/
theorem done_clear_R_endsWithin (s : State) : EndsWithin [0x00] s (done { s with R := [] }) := ⟨by simp, rfl, rfl⟩

theorem pageDone_endsWithin (n : Nat) (s : State) : EndsWithin [0x00] s (pageDone n s) := ⟨by simp, rfl, rfl⟩

theorem textIntoR_endsWithin (c : Cfg) (x : List Byte) (s : State) :
    EndsWithin [0x00, 0x06] s (textIntoR c x s) :=
  withAppend_endsWithin c .R x s done_clear_T_endsWithin (by decide)

theorem fcrcRule_endsWithin (c : Cfg) (s : State) : EndsWithin [0x00, 0x04, 0x07] s (fcrcRule c s) := by
  unfold fcrcRule
  split
  · exact endsWithin_reject (by decide) s
  · exact withEmit_endsWithin c _ _ s done_clear_R_endsWithin (by decide)

theorem flenRule_endsWithin (c : Cfg) (s : State) : EndsWithin [0x00, 0x04, 0x06] s (flenRule c s) := by
  unfold flenRule
  split
  · exact endsWithin_reject (by decide) s
  · exact withAppend_endsWithin c _ _ s done_clear_R_endsWithin (by decide)

theorem emitRule_endsWithin (c : Cfg) (s : State) : EndsWithin [0x00, 0x03, 0x07] s (emitRule c s) := by
  unfold emitRule
  split
  · exact endsWithin_reject (by decide) s
  · exact withEmit_endsWithin c _ _ s done_clear_R_endsWithin (by decide)

theorem pageRule_endsWithin (c : Cfg) (h0 h1 : Byte) (cs : Nat) (s : State) :
    EndsWithin [0x00, 0x02, 0x05, 0x07] s (pageRule c h0 h1 cs s) := by
  unfold pageRule
  split_ifs
  · exact endsWithin_reject (by decide) s
  · exact endsWithin_reject (by decide) s
  · exact withEmit_endsWithin c _ _ s (pageDone_endsWithin _) (by decide)

theorem pagefRule_endsWithin (c : Cfg) (h0 h1 : Byte) (cs : Nat) (s : State) :
    EndsWithin [0x00, 0x02, 0x04, 0x05, 0x07] s (pagefRule c h0 h1 cs s) := by
  unfold pagefRule
  split_ifs
  · exact endsWithin_reject (by decide) s
  · exact endsWithin_reject (by decide) s
  · exact endsWithin_reject (by decide) s
  · exact withEmit_endsWithin c _ _ s (pageDone_endsWithin _) (by decide)

theorem pcntRule_endsWithin (c : Cfg) (cs : Nat) (s : State) :
    EndsWithin [0x00, 0x02, 0x05, 0x06] s (pcntRule c cs s) := by
  unfold pcntRule
  split_ifs
  · exact endsWithin_reject (by decide) s
  · exact endsWithin_reject (by decide) s
  · exact withAppend_endsWithin c _ _ s (fun _ => ⟨by simp, rfl, rfl⟩) (by decide)

/-- GTIME with a zone of the two that exist: its other checks answer `E_PARAM` (44_generators.md R181). -/
theorem gtimeRule_endsWithin {s : State} (hz : (s.reg 0).toNat = 1 ∨ (s.reg 0).toNat = 2) (c : Cfg)
    (alpha : Alphabet) : EndsWithin [0x00, 0x80, 0x02, 0x07] s (gtimeRule c alpha s) := by
  rw [gtimeRule_goodZone hz]
  split_ifs
  · exact endsWithin_reject (by decide) s
  · exact withEmit_endsWithin c _ _ s done_clear_T_endsWithin (by decide)
  · exact endsWithin_reject (by decide) s

theorem galarmRule_endsWithin {s : State} (ha : 1 ≤ (s.reg 0).toNat ∧ (s.reg 0).toNat ≤ 5) (c : Cfg)
    (alpha : Alphabet) (pad : Bool) : EndsWithin [0x00, 0x81, 0x07] s (galarmRule c alpha pad s) := by
  rw [galarmRule_emits ha]
  exact withEmit_endsWithin c _ _ s done_clear_T_endsWithin (by decide)

/-- A generator without checks of its own: one packet, then `done`. -/
theorem generator_endsWithin (c : Cfg) (size : Nat) (p : List Byte) (s : State) :
    EndsWithin [0x00, 0x07] s (withEmit c size [p] s done) :=
  withEmit_endsWithin c size [p] s done_endsWithin (List.Subset.refl _)

/-- Outside the fault state the envelope is the rule. -/
theorem command_endsWithin {codes : List Byte} {rule : State → State} {s t : State} (hf : s.FAULT = false)
    (h : command rule s = .next t) (hr : EndsWithin codes s (rule s)) : EndsWithin codes s t := by
  rw [command_running hf] at h
  injection h with h
  exact h ▸ hr

/-- A command without a fatal operand ends with a code of its row. -/
theorem exec_endsWithin {i : Instr} {s t : State} (hf : s.FAULT = false) (hno : ∀ f, ¬FatalOperand i s f)
    (h : exec i s = .next t) : EndsWithin (outcomeCodes i) s t := by
  cases i with
  | nop => exact command_endsWithin hf h (done_endsWithin s)
  | putb buf imm8 => exact command_endsWithin hf h (withAppend_endsWithin _ _ _ s done_endsWithin (List.Subset.refl _))
  | setp idx imm8 => exact command_endsWithin hf h ⟨List.mem_singleton_self _, rfl, rfl⟩
  | clrb mask => exact command_endsWithin hf h ⟨List.mem_singleton_self _, rfl, rfl⟩
  | enc alpha maxlen pad => exact command_endsWithin hf h (textIntoR_endsWithin _ _ s)
  | pack6 => exact command_endsWithin hf h (textIntoR_endsWithin _ _ s)
  | pack4 => exact command_endsWithin hf h (textIntoR_endsWithin _ _ s)
  | fcrc => exact command_endsWithin hf h (fcrcRule_endsWithin _ s)
  | flen => exact command_endsWithin hf h (flenRule_endsWithin _ s)
  | emit => exact command_endsWithin hf h (emitRule_endsWithin _ s)
  | page h0 h1 cs => exact command_endsWithin hf h (pageRule_endsWithin _ h0 h1 cs s)
  | pagef h0 h1 cs => exact command_endsWithin hf h (pagefRule_endsWithin _ h0 h1 cs s)
  | pcnt cs => exact command_endsWithin hf h (pcntRule_endsWithin _ cs s)
  | gsync n => exact command_endsWithin hf h (generator_endsWithin _ _ _ s)
  | gstart => exact command_endsWithin hf h (generator_endsWithin _ _ _ s)
  | gend => exact command_endsWithin hf h (generator_endsWithin _ _ _ s)
  | gtime alpha =>
    have hz : (s.reg 0).toNat = 1 ∨ (s.reg 0).toNat = 2 := by
      by_contra hbad
      exact hno .zone (.zone alpha (not_or.mp hbad))
    exact command_endsWithin hf h (gtimeRule_endsWithin hz _ alpha)
  | galarm alpha pad =>
    have ha : 1 ≤ (s.reg 0).toNat ∧ (s.reg 0).toNat ≤ 5 := by
      by_contra hbad
      exact hno .alarmNo (.alarmNo alpha pad hbad)
    exact command_endsWithin hf h (galarmRule_endsWithin ha _ alpha pad)
  | gsndopt => exact command_endsWithin hf h (generator_endsWithin _ _ _ s)

/-- Everything a command can come to outside the fault state. -/
theorem exec_cases {i : Instr} {s t : State} (hf : s.FAULT = false) (h : exec i s = .next t) :
    (∃ f, FatalOperand i s f ∧ t = raiseFault f s) ∨
    ((∀ f, ¬FatalOperand i s f) ∧ EndsWithin (outcomeCodes i) s t) := by
  by_cases hfatal : ∃ f, FatalOperand i s f
  · obtain ⟨f, hi⟩ := hfatal
    exact .inl ⟨f, hi, Host.Outcome.next.inj (h.symm.trans (exec_fatalOperand hf hi))⟩
  · have hno := not_exists.mp hfatal
    exact .inr ⟨hno, exec_endsWithin hf hno h⟩

/-! ## In the fault state (60_exceptions.md R247, R252) -/

/-- Every command is rejected. -/
theorem exec_faulted {s : State} (hf : s.FAULT = true) (i : Instr) : exec i s = .next (reject .faulted s) := by
  obtain ⟨rule, hrule⟩ := exec_is_command i
  rw [hrule, command_faulted hf]

/-- A write of an illegal word to CMD goes through the envelope with a rejection as its rule. -/
theorem writeCmd_illegal {w : Word} {e : Illegal} (hd : decode w = .error e) (s : State) :
    writeCmd w s = command (reject .illCmd) s := by
  rw [writeCmd, hd]

/-- A CMD write, legal or illegal, is the envelope around some rule. -/
theorem writeCmd_is_command (w : Word) : ∃ rule, ∀ s, writeCmd w s = command rule s := by
  cases hd : decode w with
  | ok i =>
    obtain ⟨rule, hrule⟩ := exec_is_command i
    exact ⟨rule, fun s => (writeCmd_legal hd s).trans (hrule s)⟩
  | error e => exact ⟨reject .illCmd, writeCmd_illegal hd⟩

/-- Every CMD write is rejected, whatever its word. -/
theorem writeCmd_faulted {s : State} (hf : s.FAULT = true) (w : Word) :
    writeCmd w s = .next (reject .faulted s) := by
  obtain ⟨rule, hrule⟩ := writeCmd_is_command w
  rw [hrule, command_faulted hf]

/-- The accesses that reset the block: the reset input, and a write of CTRL with `SRST = 1`
(70_reset_and_hazards.md R270, R272). -/
def Access.Resets (a : Access) : Prop := a = .reset ∨ ∃ v, a = .write 0x2C 32 v ∧ v.getLsbD 0 = true

/-- A read changes nothing but O. -/
theorem readAt_changes_only_O (off : Nat) (s : State) : ∃ q, (readAt off s).2 = { s with O := q } := by
  rcases readAt_state off s with e | e
  · exact ⟨s.O, e⟩
  · rcases popO_cases s with ⟨_, e'⟩ | ⟨_, rest, _, _, e'⟩
    · exact ⟨s.O, by rw [e, e']⟩
    · exact ⟨rest, by rw [e, e']⟩

/-- Serving an access in the fault state resets the block or stays in the fault state. -/
theorem serve_faulted {a : Access} {s t : State} (hf : s.FAULT = true) (h : serve a s = .next t) :
    (a.Resets ∧ t = resetBlock s) ∨ (¬a.Resets ∧ t.FAULT = true) := by
  rcases serve_cases h with
    ⟨off, rfl, _, rfl⟩ | ⟨w, rfl, hw⟩ | ⟨v, rfl, rfl⟩ | ⟨off, v, rfl, _, _, h2C, rfl⟩ | ⟨rfl, rfl⟩
  · obtain ⟨q, hq⟩ := readAt_changes_only_O off s
    exact .inr ⟨by simp [Access.Resets], by rw [deliver_FAULT, hq]; exact hf⟩
  · rw [writeCmd_faulted hf] at hw
    injection hw with hw
    exact .inr ⟨by simp [Access.Resets], hw ▸ hf⟩
  · cases hv : v.getLsbD 0 with
    | true => exact .inl ⟨.inr ⟨v, rfl, hv⟩, writeCtrl_srst hv s⟩
    | false => exact .inr ⟨by simpa [Access.Resets] using hv, by rw [writeCtrl_ignored hv, hf]⟩
  · exact .inr ⟨by simp [Access.Resets, h2C], hf⟩
  · exact .inl ⟨.inl rfl, rfl⟩

/-- What a state that meets the invariant shows in the fault state: CAUSE and ERR are not 0 (60_exceptions.md R251). -/
theorem State.Inv.faulted_codes {c : Cfg} {s : State} (h : s.Inv c) (hf : s.FAULT = true) :
    s.CAUSE ≠ 0 ∧ s.ERR ≠ 0 := by
  have hcause : s.CAUSE ≠ 0 := fun e => by simpa [hf] using h.causeIff.mp e
  refine ⟨hcause, ?_⟩
  rcases h.faultErr hf with e | e <;> rw [e]
  · exact hcause
  · decide

/-- A read of a register whose value is known. -/
theorem ReadsAs.step_eq {off n : Nat} {value : State → Nat} {s : State} {rest : List Access} (h : ReadsAs off value)
    (ha : s.accesses = .read off 32 :: rest) (hv : value s = n) :
    step s = .next { s with accesses := rest, rdata := BitVec.ofNat 32 n } :=
  hv ▸ h s rest ha

/-- A byte that is not 0 does not read as 0. -/
theorem ofNat_toNat_ne_zero {b : Byte} (h : b ≠ 0) : BitVec.ofNat 32 b.toNat ≠ 0 := by
  bv_omega

end Sys2Proof.Machine
end

section
/-! SUPPORT. Progress (20_memory.md R59, 60_exceptions.md R262): an access that the spec defines is always served, and
serving it leaves the accesses behind it alone, so a run of defined accesses never stops. -/

namespace Sys2Proof.Machine

/-- No command reads or writes the waiting accesses. -/
theorem exec_accesses {i : Instr} {s t : State} (h : exec i s = .next t) : t.accesses = s.accesses := by
  cases hf : s.FAULT with
  | true =>
    rw [exec_faulted hf] at h
    injection h with h
    rw [← h, reject_accesses]
  | false =>
    rcases exec_cases hf h with ⟨_, _, rfl⟩ | ⟨_, hends⟩
    · rfl
    · exact hends.accesses

theorem writeCmd_accesses {w : Word} {s t : State} (h : writeCmd w s = .next t) : t.accesses = s.accesses := by
  rcases writeCmd_cases h with ⟨_, _, hx⟩ | ⟨_, _, hx⟩
  · exact exec_accesses hx
  · rcases command_cases hx with ⟨_, rfl⟩ | ⟨_, rfl⟩ <;> rfl

theorem writeCtrl_accesses (v : Word) (s : State) : (writeCtrl v s).accesses = s.accesses := by
  cases hv : v.getLsbD 0 with
  | true => rw [writeCtrl_srst hv, resetBlock_accesses]
  | false => rw [writeCtrl_ignored hv]

/-- Serving one access leaves those behind it waiting. -/
theorem serve_accesses {a : Access} {s t : State} (h : serve a s = .next t) : t.accesses = s.accesses := by
  rcases serve_cases h with ⟨off, _, _, rfl⟩ | ⟨_, _, hw⟩ | ⟨v, _, rfl⟩ | ⟨_, _, _, _, _, _, rfl⟩ | ⟨_, rfl⟩
  · obtain ⟨q, hq⟩ := readAt_changes_only_O off s
    rw [deliver_accesses, hq]
  · exact writeCmd_accesses hw
  · exact writeCtrl_accesses v s
  · rfl
  · rfl

/-- A CMD write answers a next state, as the envelope always does. -/
theorem writeCmd_progress (w : Word) (s : State) : ∃ t, writeCmd w s = .next t := by
  obtain ⟨rule, hrule⟩ := writeCmd_is_command w
  exact ⟨_, hrule s⟩

/-- An access that the spec defines is served. -/
theorem serve_progress {a : Access} (hd : a.defined = true) (s : State) : ∃ t, serve a s = .next t := by
  cases a with
  | read off width => exact ⟨_, if_pos hd⟩
  | write off width v =>
    rw [serve, if_pos (by exact hd)]
    rcases writeAt_cases (accessDefined_iff.mp hd).2 v s with ⟨_, e⟩ | ⟨_, e⟩ | ⟨_, _, e⟩ <;> rw [e]
    · exact writeCmd_progress v s
    · exact ⟨_, rfl⟩
    · exact ⟨_, rfl⟩
  | reset => exact ⟨_, rfl⟩

/-- With only defined accesses waiting a step answers a next state, with only defined accesses waiting. -/
theorem step_progress {s : State} (hd : s.onlyDefinedAccesses) : ∃ t, step s = .next t ∧ t.onlyDefinedAccesses := by
  cases ha : s.accesses with
  | nil => exact ⟨s, step_idle ha, hd⟩
  | cons a rest =>
    rw [State.onlyDefinedAccesses, ha] at hd
    obtain ⟨hfirst, hrest⟩ := List.forall_mem_cons.mp hd
    obtain ⟨t, ht⟩ := serve_progress hfirst { s with accesses := rest }
    refine ⟨t, (step_serves ha).trans ht, ?_⟩
    rw [State.onlyDefinedAccesses, serve_accesses ht]
    exact hrest

/-- A run of defined accesses reaches a state that meets the invariant. -/
theorem run_progress (j : Nat) {s : State} (h : s.Inv Config.cfg) (hd : s.onlyDefinedAccesses) :
    ∃ t, Host.Core.run Sys2Proof.core j s = .next t ∧ t.Inv Config.cfg := by
  induction j generalizing s with
  | zero => exact ⟨s, run_zero s, h⟩
  | succ j ih =>
    obtain ⟨u, hu, hdu⟩ := step_progress hd
    rw [run_step hu]
    exact ih (stepKeepsInvariant s u h hu) hdu

end Sys2Proof.Machine
end

section
/-! The obligations on outcomes, faults and progress: O56, O9, O10, O11, O13, O52, O7, O8, O12 (60_exceptions.md). -/

namespace Sys2Proof.Machine

/-- Settles O56: the runs of each length up to `k` make progress step by step, and each step keeps the invariant. -/
theorem definedAccessesRunSafelyForever : Obligations.DefinedAccessesRunSafelyForever :=
  fun _ _ h hd j _ => run_progress j h hd

/-- Settles O9: of the three ways a command ends, a completion leaves `ERR = 0`, and fault entry sets FAULT, which was
clear, since in the fault state every command is rejected. -/
theorem rejectionChangesOnlyErr : Obligations.RejectionChangesOnlyErr := by
  intro i s t hx hfault herr
  cases exec_ends hx with
  | rejected e => rfl
  | completed grows => exact absurd (done_ERR _) herr
  | faulted f =>
    rw [exec_faulted hfault.symm] at hx
    injection hx with hx
    rw [← hx]
    rfl

/-- Settles O10: the cause of a fatal operand is in the row, and so is every other code the command can answer. -/
theorem commandsRaiseOnlyTheirCodes : Obligations.CommandsRaiseOnlyTheirCodes := by
  intro i s t hf hx
  rcases exec_cases hf hx with ⟨f, hi, rfl⟩ | ⟨_, hends⟩
  · exact hi.byte_mem
  · exact hends.err

/-- Settles O11: a fatal operand raises the fault, and without one FAULT stays clear. -/
theorem fatalFaultExactlyOnBadZoneOrAlarm : Obligations.FatalFaultExactlyOnBadZoneOrAlarm := by
  intro i s t hf hx
  constructor
  · intro ht
    rcases exec_cases hf hx with ⟨f, hi, rfl⟩ | ⟨_, hends⟩
    · cases hi with
      | zone alpha h => exact .inl ⟨alpha, rfl, h⟩
      | alarmNo alpha pad h => exact .inr ⟨alpha, pad, rfl, h⟩
    · rw [hends.fault, hf] at ht
      cases ht
  · intro hbad
    have hfatal : ∃ f, FatalOperand i s f := by
      rcases hbad with ⟨alpha, rfl, h⟩ | ⟨alpha, pad, rfl, h⟩
      · exact ⟨_, .zone alpha h⟩
      · exact ⟨_, .alarmNo alpha pad h⟩
    obtain ⟨f, hi⟩ := hfatal
    obtain rfl := Host.Outcome.next.inj (hx.symm.trans (exec_fatalOperand hf hi))
    rfl

/-- Settles O13: an idle step stays in the fault state, and an access served there resets the block or stays. -/
theorem faultStateIsLeftOnlyByReset : Obligations.FaultStateIsLeftOnlyByReset := by
  intro s t hf hs
  rcases step_cases hs with ⟨ha, rfl⟩ | ⟨a, rest, ha, hx⟩
  · simp [hf, ha]
  have hresets : a.Resets ↔ (∃ rest, s.accesses = .reset :: rest) ∨
      ∃ v rest, s.accesses = .write 0x2C 32 v :: rest ∧ v.getLsbD 0 = true := by
    simp [ha, Access.Resets]
  rw [← hresets]
  rcases serve_faulted (by exact hf) hx with ⟨hr, rfl⟩ | ⟨hr, ht⟩
  · exact ⟨iff_of_true rfl hr, fun _ => rfl⟩
  · simp [hr, ht]

/-- Settles O52: the registers read what they always read; by the invariant the buffers are empty, and ERR and CAUSE are
not 0. -/
theorem faultStateReadsAsEmpty : Obligations.FaultStateReadsAsEmpty := by
  intro s rest off hinv hf ha
  obtain ⟨hstatus, _, hcause, htlen, hrlen, hdlen, holen, hopkts, _, _⟩ := registersReadTheState
  obtain ⟨hT, hR, hD, hO⟩ := hinv.faultEmpty hf
  obtain ⟨hcauseCode, herrCode⟩ := hinv.faulted_codes hf
  refine ⟨?_, fun hoff => ?_, ?_⟩
  · rintro rfl
    exact hstatus.step_eq ha (by rw [if_pos hf, if_pos herrCode, if_neg (by simp [hf])])
  · simp only [List.mem_cons, List.not_mem_nil, or_false] at hoff
    rcases hoff with rfl | rfl | rfl | rfl | rfl | rfl
    · exact (odataReadRemovesTheHead s rest).1 ha (.inl hf)
    · exact htlen.step_eq ha (by rw [hT, List.length_nil])
    · exact hrlen.step_eq ha (by rw [hR, List.length_nil])
    · exact hdlen.step_eq ha (by rw [hD, List.length_nil])
    · exact holen.step_eq ha (by rw [hO, List.length_nil])
    · exact hopkts.step_eq ha (by rw [hO, List.filter_nil, List.length_nil])
  · rintro rfl
    exact ⟨_, hcause s rest ha, ofNat_toNat_ne_zero hcauseCode, rfl⟩

/-- Settles O7: the envelope around an illegal word is a rejection. -/
theorem illegalWordIsRejected : Obligations.IllegalWordIsRejected := by
  intro s w rest e hf ha hd
  rw [step_write_cmd ha, writeCmd_illegal hd, command_running (by exact hf)]
  rfl

/-- Settles O8: in the fault state the envelope rejects before the rule, whether the word is legal or not. -/
theorem faultStateRejectsEveryCommand : Obligations.FaultStateRejectsEveryCommand := by
  refine ⟨fun s w rest hf ha => ?_, fun s i hf => exec_faulted hf i⟩
  rw [step_write_cmd ha, writeCmd_faulted (by exact hf)]
  rfl

/-- Settles O12: both operands are fatal, and fatal fault entry is `raiseFault`. -/
theorem fatalFaultEntryDiscardsAllWork : Obligations.FatalFaultEntryDiscardsAllWork :=
  ⟨fun _ alpha hf h1 h2 => exec_fatalOperand hf (.zone alpha ⟨h1, h2⟩),
    fun _ alpha pad hf h => exec_fatalOperand hf (.alarmNo alpha pad h)⟩

end Sys2Proof.Machine
end

section
/-! The obligation on resets: O50 (70_reset_and_hazards.md R270, R272). -/

namespace Sys2Proof.Machine

/-- Settles O50: the reset event and a CTRL write with `SRST = 1` lead to `State.reset`, as for O51, and that is the
listed state; a CTRL write with `SRST = 0` is ignored. -/
theorem resetsClearEveryPieceOfState : Obligations.ResetsClearEveryPieceOfState := by
  obtain ⟨_, _, _, _, _, _, _, _, _, _, _, hreset⟩ := stateAfterReset
  intro s rest v
  refine ⟨fun ha => ?_, fun ha hv => ?_, fun ha hv => ?_⟩
  · exact hreset s rest v (.inl ha)
  · exact hreset s rest v (.inr ⟨ha, hv⟩)
  · rw [step_write_ctrl ha, writeCtrl_ignored hv]

end Sys2Proof.Machine
end
